-- ==== Sys2Proof/Word.lean ====
section
/-!
DEFINITION. The word types of the block: 32-bit registers and command words (00_scope.md R8), 8-bit
characters (R11), 18-bit host bus addresses (20_memory.md R60).
-/

namespace Sys2Proof

/-- A register value, a command word or a 32-bit bus datum (R8, R60). -/
abbrev Word := BitVec 32

/-- A character: one 8-bit byte holding its ASCII code (R11). -/
abbrev Byte := BitVec 8

/-- A host bus address, an offset from the block's base (R60, R70). -/
abbrev Addr := BitVec 18

end Sys2Proof
end

