-- ==== Sys2Proof/Config.lean ====
section
/-!
DEFINITION. What is fixed for one block: the source's parameters (00_scope.md R7) and the two buffer
capacities the source leaves open (R8, R45, log entry 1).
-/

namespace Sys2Proof

/-- Rows and columns of the matrix (R7). -/
abbrev Config.grid : Nat := 16

/-- Characters of one record field (R7). -/
abbrev Config.fieldChars : Nat := 2

/-- Fields of one record: row, column, red, green, blue (R7). -/
abbrev Config.fields : Nat := 5

/-- Field characters of one record (R7). -/
abbrev Config.recordFieldLen : Nat := 10

/-- Bits of one hex character (R7). -/
abbrev Config.nibbleBits : Nat := 4

/-- The record separator `,` (R7). -/
abbrev Config.pixelSep : Byte := 0x2C#8

/-- The frame terminator, the newline character (R7). -/
abbrev Config.frameTerm : Byte := 0x0A#8

/-- The two buffer capacities with the bounds R8 gives them: a parameter of the model, carried beside
the state and changed by no step (R45, log entry 1). -/
structure Capacities where
  /-- IBUF_BYTES -/
  ibufBytes : Nat
  /-- OBUF_BYTES -/
  obufBytes : Nat
  ibufBytes_range : 1 ≤ ibufBytes ∧ ibufBytes ≤ 65536
  obufBytes_range : 1 ≤ obufBytes ∧ obufBytes ≤ 65536
  deriving DecidableEq, Repr

/-- IBUF_BYTES - 1 of the block that `State.reset` resets: OPEN in the spec (R8, D21), so it has no
body. DESIGN CHOICE, log entry 1: safe. -/
opaque Config.ibufLast : Fin 65536

/-- OBUF_BYTES - 1 of the block that `State.reset` resets: OPEN in the spec (R8, D21), so it has no
body. DESIGN CHOICE, log entry 1: safe. -/
opaque Config.obufLast : Fin 65536

/-- The capacities of the block that `State.reset` resets. -/
def Config.capacities : Capacities where
  ibufBytes := Config.ibufLast.val + 1
  obufBytes := Config.obufLast.val + 1
  ibufBytes_range := by omega
  obufBytes_range := by omega

end Sys2Proof
end

