-- ==== Sys2Proof/Syntax.lean ====
section
/-!
DEFINITION. The eight commands of 30_encoding.md R84. Every field of the command word the row permits is an
argument: the permitted flags, and BSZ, which a row that does not use it carries all the same (R81: "BSZ is
ignored by a command that does not use it"; log entry 12).
-/

namespace Sys2Proof

/-- One constructor per row of opcode_table.json. `bsz` is the block size in bits (R80, R81). -/
inductive Instr where
  /-- 0x01 HEX2BIN (R106); BSZ ignored -/
  | hex2bin (bsz : Nat)
  /-- 0x02 BIN2HEX (R107); BSZ ignored -/
  | bin2hex (bsz : Nat)
  /-- 0x03 CKCOMP (R130); XF selects the hex form -/
  | ckcomp (xf : Bool) (bsz : Nat)
  /-- 0x04 CKVERIFY (R131) -/
  | ckverify (bsz : Nat)
  /-- 0x05 PIXENC (R169); CK trailer, XF hex form, AP append, TM terminator -/
  | pixenc (ck xf ap tm : Bool) (bsz : Nat)
  /-- 0x06 RECDEC (R170); XF hex form, VF verify -/
  | recdec (xf vf : Bool) (bsz : Nat)
  /-- 0x07 FRAMEAPPLY (R171); BSZ ignored -/
  | frameapply (bsz : Nat)
  /-- 0x08 MATRIXENC (R172); CK trailer, XF hex form -/
  | matrixenc (ck xf : Bool) (bsz : Nat)
  deriving DecidableEq, Repr

/-- The BSZ field of a command. -/
def Instr.bsz : Instr → Nat
  | .hex2bin b => b
  | .bin2hex b => b
  | .ckcomp _ b => b
  | .ckverify b => b
  | .pixenc _ _ _ _ b => b
  | .recdec _ _ b => b
  | .frameapply b => b
  | .matrixenc _ _ b => b

end Sys2Proof
end

