-- ==== Sys2Proof/WellFormed.lean ====
section
/-!
DEFINITION. Which terms of `Instr` are command words: the one field with a range is BSZ, 16 bits
(30_encoding.md R80, 00_scope.md R8). A BSZ of 0 is well formed: no BSZ makes a command illegal at decode
(R82), it is the command's own argument check that refuses it (R81).
-/

namespace Sys2Proof

/-- BSZ fits its 16-bit field (R80). -/
abbrev Instr.WellFormed (i : Instr) : Prop := i.bsz < 65536

end Sys2Proof
end

