-- ==== Sys2Proof/Decode.lean ====
section
/-!
DEFINITION. Command words and commands: the fields of CMD32 (30_encoding.md R80), the opcode map with its
masks (R83, R84), the decoder (R82), total on every 32-bit word and rejecting by name, and the encoder
(R89) written from the same map.
-/

namespace Sys2Proof

/-! ## The fields of CMD32 (R80) -/

/-- OP, bits [7:0]. -/
def cmdOp (w : Word) : Byte := w.extractLsb' 0 8

/-- FLAGS, bits [15:8], RSV included (R25, R80). -/
def cmdFlags (w : Word) : Byte := w.extractLsb' 8 8

/-- BSZ, bits [31:16], unsigned and not scaled (R81). -/
def cmdBsz (w : Word) : Nat := (w.extractLsb' 16 16).toNat

/-- CK, bit [8]. -/
def cmdCk (w : Word) : Bool := w.getLsbD 8

/-- XF, bit [9]. -/
def cmdXf (w : Word) : Bool := w.getLsbD 9

/-- AP, bit [10]. -/
def cmdAp (w : Word) : Bool := w.getLsbD 10

/-- TM, bit [11]. -/
def cmdTm (w : Word) : Bool := w.getLsbD 11

/-- VF, bit [12]. -/
def cmdVf (w : Word) : Bool := w.getLsbD 12

/-! ## The opcode map (R84) -/

/-- A row of R84: mnemonic, OP, and the permitted flags as bits of the FLAGS byte. -/
structure OpcodeRow where
  mnemonic : String
  op : Byte
  permitted : Byte
  deriving DecidableEq, Repr

/-- R84. In the FLAGS byte CK is bit 0, XF bit 1, AP bit 2, TM bit 3, VF bit 4. -/
def opcodeMap : List OpcodeRow :=
  [⟨"HEX2BIN", 0x01#8, 0x00#8⟩, ⟨"BIN2HEX", 0x02#8, 0x00#8⟩,
   ⟨"CKCOMP", 0x03#8, 0x02#8⟩, ⟨"CKVERIFY", 0x04#8, 0x00#8⟩,
   ⟨"PIXENC", 0x05#8, 0x0F#8⟩, ⟨"RECDEC", 0x06#8, 0x12#8⟩,
   ⟨"FRAMEAPPLY", 0x07#8, 0x00#8⟩, ⟨"MATRIXENC", 0x08#8, 0x03#8⟩]

/-- R83: 0x0000FFFF with the permitted flag bits cleared. -/
def OpcodeRow.mask (r : OpcodeRow) : Word := 0#16 ++ ~~~r.permitted ++ 0xFF#8

/-- R83: OP. -/
def OpcodeRow.pattern (r : OpcodeRow) : Word := 0#24 ++ r.op

/-- R83: a word selects a row exactly when `w & mask = match`. -/
abbrev OpcodeRow.Selects (r : OpcodeRow) (w : Word) : Prop := w &&& r.mask = r.pattern

/-! ## Decode (R82) -/

/-- Why a word names no command: both complete with IllegalCommand (R82, R87, R193). -/
inductive IllegalWord where
  /-- OP is not one of the eight opcodes (R82 step 1). -/
  | unknownOpcode
  /-- A FLAGS bit is set that the row does not permit, RSV included (R82 step 2). -/
  | unpermittedFlag
  deriving DecidableEq, Repr

/-- R82 step 2: the command `i` if FLAGS holds no bit outside `permitted`. -/
def decodeRow (w : Word) (permitted : Byte) (i : Instr) : Except IllegalWord Instr :=
  if cmdFlags w &&& ~~~permitted = 0#8 then .ok i else .error .unpermittedFlag

/-- R82: total on every word; needs only OP and the permitted-flags mask. -/
def decode (w : Word) : Except IllegalWord Instr :=
  if cmdOp w = 0x01#8 then decodeRow w 0x00#8 (.hex2bin (cmdBsz w))
  else if cmdOp w = 0x02#8 then decodeRow w 0x00#8 (.bin2hex (cmdBsz w))
  else if cmdOp w = 0x03#8 then decodeRow w 0x02#8 (.ckcomp (cmdXf w) (cmdBsz w))
  else if cmdOp w = 0x04#8 then decodeRow w 0x00#8 (.ckverify (cmdBsz w))
  else if cmdOp w = 0x05#8 then
    decodeRow w 0x0F#8 (.pixenc (cmdCk w) (cmdXf w) (cmdAp w) (cmdTm w) (cmdBsz w))
  else if cmdOp w = 0x06#8 then decodeRow w 0x12#8 (.recdec (cmdXf w) (cmdVf w) (cmdBsz w))
  else if cmdOp w = 0x07#8 then decodeRow w 0x00#8 (.frameapply (cmdBsz w))
  else if cmdOp w = 0x08#8 then decodeRow w 0x03#8 (.matrixenc (cmdCk w) (cmdXf w) (cmdBsz w))
  else .error .unknownOpcode

/-! ## Encode (R80, R89) -/

/-- The word of the given fields, RSV = 0 (R80). -/
def cmdWord (op : Byte) (ck xf ap tm vf : Bool) (bsz : Nat) : Word :=
  BitVec.ofNat 16 bsz ++ 0#3 ++ BitVec.ofBool vf ++ BitVec.ofBool tm ++ BitVec.ofBool ap ++
    BitVec.ofBool xf ++ BitVec.ofBool ck ++ op

/-- The word of a well-formed command (R84, R89). -/
def encode : Instr → Word
  | .hex2bin b => cmdWord 0x01#8 false false false false false b
  | .bin2hex b => cmdWord 0x02#8 false false false false false b
  | .ckcomp xf b => cmdWord 0x03#8 false xf false false false b
  | .ckverify b => cmdWord 0x04#8 false false false false false b
  | .pixenc ck xf ap tm b => cmdWord 0x05#8 ck xf ap tm false b
  | .recdec xf vf b => cmdWord 0x06#8 false xf false false vf b
  | .frameapply b => cmdWord 0x07#8 false false false false false b
  | .matrixenc ck xf b => cmdWord 0x08#8 ck xf false false false b

/-- The host's reading of a table row: the command whose `nbits` bits are `w`, the bits above them 0. A
command is one 32-bit word (R80, R88). -/
def decodeTableWord (nbits w : Nat) : Option Instr :=
  (decode (BitVec.ofNat 32 (w % 2 ^ nbits))).toOption

end Sys2Proof
end

