-- ==== Sys2Proof/Machine/State.lean ====
section
/-!
DEFINITION. The state of the block as plain data (10_state.md), the faults and refusals of a step, and
the state after reset (R46).
-/

namespace Sys2Proof.Machine

/-! ## Errors, faults, refusals -/

/-- The error taxonomy (60_exceptions.md R190). -/
inductive Err where
  | invalidCharacter
  | invalidArgument
  | truncatedFrame
  | checksumMismatch
  | illegalCommand
  deriving DecidableEq, Repr

/-- What STATUS.ERR holds: the outcome of the last completed command (R29). Codes 6 to 15 are never
written, so they have no constructor. -/
inductive StatusErr where
  | ok
  | error (e : Err)
  deriving DecidableEq, Repr

/-- An error with its error position: what `raise E(pos)` ends a function or a command with (R12, R13). -/
structure EngineError where
  err : Err
  pos : Nat
  deriving DecidableEq, Repr

/-- Host-protocol violations (20_memory.md R64): "a model records a fault, named by the violation". All are
safe: the model stops where the chip gives some unknown response. -/
inductive Fault where
  /-- A host access to a reserved address (R60, R61, R22). Raised by the bus. Safe. -/
  | reservedAddress
  /-- An access of a width its region does not take, or of a width the bus does not have at any address, a reserved
  one among them (R62, log entry 7). Raised by the bus. Safe. -/
  | accessWidth
  /-- A 32-bit access at an address that is no multiple of 4 (R62). Raised by the bus. Safe. -/
  | misaligned
  /-- A write to a read-only register, the OBUF window or the matrix window (R63). Raised by the bus. Safe. -/
  | readOnlyWrite
  /-- A host access other than a 32-bit read of STATUS while BUSY = 1, or after it while no STATUS read has yet
  returned BUSY = 0 (R64, R213, log entry 16). Raised by the bus. Safe. -/
  | hostWhileBusy
  /-- A consumer read while BUSY = 1 (R64, R214). Raised by the consumer's turn. Safe. -/
  | consumerWhileBusy
  /-- A host read of an IBUF byte whose written mark is clear (R211). Raised by the bus. Safe. -/
  | hostReadUnwritten
  /-- A host read of an OBUF byte at index OLEN or beyond (R75, R211). Raised by the bus. Safe. -/
  | hostReadBeyondOlen
  /-- An engine read of an IBUF byte whose written mark is clear (R211). Raised by HEX2BIN, BIN2HEX, CKCOMP,
  CKVERIFY, RECDEC and FRAMEAPPLY. Safe. -/
  | engineReadUnwritten
  deriving DecidableEq, Repr

/-- Instructions without a meaning. Every command has one, so no arm of `exec` answers this. -/
inductive Refusal where
  /-- Raised by a refused arm of `exec`, of which there is none. Safe. -/
  | notModelled (mnemonic : String)
  deriving DecidableEq, Repr

/-! ## Storage -/

/-- A buffer as (index, byte) pairs with strictly rising indices. An index that is not listed holds no
value: in IBUF its written mark is clear (R41), in OBUF it is unspecified (R42, R75). Log entries 3, 4. -/
abbrev Memory := List Host.Cell

/-- A string as the engine finds it in IBUF: `none` is a byte whose written mark is clear (R41). -/
abbrev Cells := List (Option Byte)

/-- The three unsigned 8-bit channels of a cell or of PIXRGB (R35, R40). -/
structure Rgb where
  red : Byte
  green : Byte
  blue : Byte
  deriving DecidableEq, Repr

/-- The matrix store M, cell (r, c) at index 16 * r + c (R40, R42). -/
abbrev Matrix := Vector Rgb 256

/-! ## The agents beside the engine: the model's own data (R20, log entry 2) -/

/-- One host access on the bus. 8 and 32 bits are the only widths there are (R62); `otherWidth` is an
attempt at any other. -/
inductive Access where
  | read8 (a : Addr)
  | read32 (a : Addr)
  | write8 (a : Addr) (b : Byte)
  | write32 (a : Addr) (w : Word)
  | otherWidth (a : Addr)
  deriving DecidableEq, Repr

/-- A statement of a host program (R90). `poll` repeats a read of STATUS until bit 0 reads 0. -/
inductive HostOp where
  | access (x : Access)
  | poll
  deriving DecidableEq, Repr

/-- Who moves next (R20): the host's next statement, the engine, a consumer read of cell
(row, col), or the reset event (R210). -/
inductive Turn where
  | host
  | engine
  | consumer (row col : Fin 16)
  | reset
  deriving DecidableEq, Repr

/-! ## State -/

/-- Everything the spec gives the block (10_state.md), the parameters it is built with, and the model's own
record of the host, the schedule and what reads returned. -/
structure State where
  /-- IBUF_BYTES and OBUF_BYTES: parameters, changed by no step (R45, log entry 1). -/
  caps : Capacities
  /-- CMD, offset 0x000 (R25). -/
  cmd : Word
  /-- The pending-command latch (R21, R44). -/
  pcmd : Word
  /-- STATUS.BUSY (R27). -/
  busy : Bool
  /-- STATUS.VALID (R28). -/
  valid : Bool
  /-- STATUS.ERR (R29). -/
  err : StatusErr
  /-- CTRL.FB16 (R30): false is decimal, true is hexadecimal. -/
  fb16 : Bool
  /-- ILEN, offset 0x00C (R31). -/
  ilen : Word
  /-- IPTR, offset 0x010 (R32). -/
  iptr : Word
  /-- OLEN, offset 0x014 (R33). -/
  olen : Word
  /-- PIXPOS.ROW (R34). -/
  pixRow : Byte
  /-- PIXPOS.COL (R34). -/
  pixCol : Byte
  /-- PIXRGB (R35). -/
  pixRgb : Rgb
  /-- ERRPOS, offset 0x020 (R36). -/
  errpos : Word
  /-- RECCNT, offset 0x024 (R37). -/
  reccnt : Word
  /-- TRAIL.TOFF (R38). -/
  toff : BitVec 16
  /-- TRAIL.TLEN (R38). -/
  tlen : BitVec 16
  /-- IBUF with its written marks (R41). -/
  ibuf : Memory
  /-- OBUF (R42). -/
  obuf : Memory
  /-- The matrix store (R40). -/
  matrix : Matrix
  /-- The host has written CMD and no read of STATUS has returned BUSY = 0 since: the model's own record of R213's
  window (log entry 16). -/
  awaiting : Bool
  /-- The host program still to run: the model's own (R90, log entry 2). -/
  host : List HostOp
  /-- The turns already scheduled: the model's own (R20, R72, log entry 2). -/
  turns : List Turn
  /-- What the host's reads returned, newest first: the model's own (R220, log entry 2). -/
  hostReads : List Word
  /-- What the consumer's reads returned, newest first: the model's own (R220, log entry 2). -/
  consumerReads : List Word
  deriving DecidableEq, Repr

/-- The outcome of a step or of a command. -/
abbrev Out := Host.Outcome State Fault Refusal

/-- A block of the given capacities right after reset (R46, R210): registers 0, IDLE, matrix all
(0, 0, 0), no byte of either buffer with a value. -/
def State.resetWith (caps : Capacities) : State where
  caps := caps
  cmd := 0#32
  pcmd := 0#32
  busy := false
  valid := false
  err := .ok
  fb16 := false
  ilen := 0#32
  iptr := 0#32
  olen := 0#32
  pixRow := 0#8
  pixCol := 0#8
  pixRgb := ⟨0#8, 0#8, 0#8⟩
  errpos := 0#32
  reccnt := 0#32
  toff := 0#16
  tlen := 0#16
  ibuf := []
  obuf := []
  matrix := Vector.replicate 256 ⟨0#8, 0#8, 0#8⟩
  awaiting := false
  host := []
  turns := []
  hostReads := []
  consumerReads := []

/-- The machine right after reset (R46), with the capacities Config leaves open (log entry 1). To run a
block of given capacities start from `State.resetWith`. -/
def State.reset : State := State.resetWith Config.capacities

end Sys2Proof.Machine
end

