-- ==== Sys2Proof/Machine/Ops.lean ====
section
/-!
DEFINITION. The named operations over the state: buffer bytes, the engine's reads of IBUF, the commit of
output to OBUF, the matrix store's two operations, issuing a command, and the two completions: `complete`
(60_exceptions.md R194) and `raise` (R195), the block's only "trap entry" (R200). There is no return from it:
the host issues the next command (R200).
-/

namespace Sys2Proof.Machine

/-! ## Buffers -/

/-- The canonical form: indices strictly rising. An unlisted index holds no value, so no listed entry can
equal what an unlisted index reads as. -/
abbrev Memory.wf (m : Memory) : Prop := m.Pairwise fun x y => x.1 < y.1

/-- The byte at an index, none where the buffer holds no value. -/
def Memory.read : Memory → Nat → Option Byte
  | [], _ => none
  | (b, v) :: t, a => if b = a then some v else Memory.read t a

/-- A byte written at an index; its written mark is set (R41). -/
def Memory.write : Memory → Nat → Byte → Memory
  | [], a, v => [(a, v)]
  | (b, w) :: t, a, v =>
    if a < b then (a, v) :: (b, w) :: t
    else if a = b then (a, v) :: t
    else (b, w) :: Memory.write t a v

/-- The entries below index `k`. -/
def Memory.below (m : Memory) (k : Nat) : Memory := m.filter fun c => c.1 < k

/-- The bytes of a string at consecutive indices from `a` on (R65). -/
def cellsFrom : Nat → List Byte → Memory
  | _, [] => []
  | a, c :: cs => (a, c) :: cellsFrom (a + 1) cs

/-- The `k` bytes from index `a` on, as the engine finds them. -/
def Memory.readFrom (m : Memory) : Nat → Nat → Cells
  | _, 0 => []
  | a, k + 1 => m.read a :: Memory.readFrom m (a + 1) k

/-- The string of the cells if every one has its written mark set, none if some mark is clear (R211). -/
def readAll : Cells → Option (List Byte)
  | [] => some []
  | none :: _ => none
  | some c :: cs => (readAll cs).map (c :: ·)

/-! ## The engine's reads -/

/-- IBUF[p:ILEN) as the engine finds it (R31, R85). -/
def State.inputFrom (s : State) (p : Nat) : Cells := s.ibuf.readFrom p (s.ilen.toNat - p)

/-- The operand `IBUF[0:ILEN)` of HEX2BIN, BIN2HEX, CKCOMP and CKVERIFY, read whole (R85): none if some byte of it
is unwritten (R211, log entry 6). -/
def State.readInput (s : State) : Option (List Byte) := readAll (s.inputFrom 0)

/-- The operand `IBUF[IPTR:ILEN)` of RECDEC and FRAMEAPPLY, read whole (R85): none if some byte of it is unwritten
(R211, log entry 5). -/
def State.readRest (s : State) : Option (List Byte) := readAll (s.inputFrom s.iptr.toNat)

/-! ## Output (R195, 20_memory.md R75) -/

/-- OBUF[start + k] <- out[k], OLEN <- start + len(out). Bytes at or beyond the new OLEN hold no value
(R75, log entry 4). -/
def State.commitOutput (s : State) (start : Nat) (out : List Byte) : State :=
  { s with
    obuf := s.obuf.below start ++ cellsFrom start out
    olen := BitVec.ofNat 32 (start + out.length) }

/-- OBUF byte `i`, which has a value only below OLEN (R42, R75). -/
def State.outputByte (s : State) (i : Nat) : Option Byte :=
  if i < s.olen.toNat then s.obuf.read i else none

/-- OBUF[0:OLEN) (R33), none if the state gives some byte of it no value. -/
def State.output (s : State) : Option (List Byte) := readAll (s.obuf.readFrom 0 s.olen.toNat)

/-! ## The matrix store (R40) -/

/-- The index of cell (r, c): 16 * r + c (R42). -/
def cellIndex (r c : Fin 16) : Fin 256 := ⟨16 * r.val + c.val, by omega⟩

/-- MatrixRead(r, c). -/
def matrixRead (m : Matrix) (r c : Fin 16) : Rgb := m[cellIndex r c]

/-- MatrixWrite(r, c, v): every other cell is unchanged. -/
def matrixWrite (m : Matrix) (r c : Fin 16) (v : Rgb) : Matrix := m.set (cellIndex r c) v

/-! ## Issue and completion -/

/-- A host write of `w` to CMD in IDLE: latch it and set BUSY (R21); R213's window opens. -/
def State.issue (s : State) (w : Word) : State :=
  { s with cmd := w, pcmd := w, busy := true, awaiting := true }

/-- `complete()` (R194): ERR = 0, ERRPOS = 0, VALID as the command's pseudocode set it, BUSY = 0. -/
def State.complete (s : State) (valid : Bool) : State :=
  { s with err := .ok, errpos := 0#32, valid := valid, busy := false }

/-- `raise E(pos)` (R195): ERR = code(E), VALID = 0, ERRPOS = pos, BUSY = 0; what was written before stands. -/
def State.raise (s : State) (e : Err) (pos : Nat) : State :=
  { s with err := .error e, errpos := BitVec.ofNat 32 pos, valid := false, busy := false }

/-- The completion of a word that names no command (R193). -/
def State.illegal (s : State) : State := s.raise .illegalCommand 0

/-- The end of a command whose only writes are its output: the error it raised with nothing written, or
`out` committed from index `start` on and a successful completion with VALID = 0 (R194, R195). -/
def State.finishOutput (s : State) (start : Nat) : Except EngineError (List Byte) → State
  | .error e => s.raise e.err e.pos
  | .ok out => (s.commitOutput start out).complete false

end Sys2Proof.Machine
end

