-- ==== Sys2Proof/Machine/Flags.lean ====
section
/-!
DEFINITION. The block's flags: STATUS.ERR's codes and the STATUS word (10_state.md R26 to R29, R43). Which
completion writes which flag is `State.complete` and `State.raise` (R191, R194, R195); no other flag exists.
-/

namespace Sys2Proof.Machine

/-- The ERR code of an error (R29, R190). -/
def Err.code : Err → BitVec 4
  | .invalidCharacter => 1#4
  | .invalidArgument => 2#4
  | .truncatedFrame => 3#4
  | .checksumMismatch => 4#4
  | .illegalCommand => 5#4

/-- The value of STATUS.ERR (R29). -/
def StatusErr.code : StatusErr → BitVec 4
  | .ok => 0#4
  | .error e => e.code

/-- STATUS as it reads: BUSY bit 0, VALID bit 1, ERR bits [7:4], reserved bits 0 (R23, R26). -/
def State.statusWord (s : State) : Word :=
  0#24 ++ s.err.code ++ 0#2 ++ BitVec.ofBool s.valid ++ BitVec.ofBool s.busy

end Sys2Proof.Machine
end

