-- ==== Sys2Proof/Machine/Bus.lean ====
section
/-!
DEFINITION. The host bus (20_memory.md): the register map (10_state.md R22), what each register reads and what a
write to it stores (R23, R25 to R38), the address map (R60, R61), widths and alignment (R62), the violations
(R63, R64, R75, R211, R213), byte order (R66), and one host access.
-/

namespace Sys2Proof.Machine

/-! ## Registers (R22) -/

/-- The eleven registers. -/
inductive Reg where
  | cmd | status | ctrl | ilen | iptr | olen | pixpos | pixrgb | errpos | reccnt | trail
  deriving DecidableEq, Repr

/-- A register's byte offset (R22). -/
def Reg.offset : Reg → Nat
  | .cmd => 0x000
  | .status => 0x004
  | .ctrl => 0x008
  | .ilen => 0x00C
  | .iptr => 0x010
  | .olen => 0x014
  | .pixpos => 0x018
  | .pixrgb => 0x01C
  | .errpos => 0x020
  | .reccnt => 0x024
  | .trail => 0x028

/-- Every register, in offset order. -/
def Reg.all : List Reg :=
  [.cmd, .status, .ctrl, .ilen, .iptr, .olen, .pixpos, .pixrgb, .errpos, .reccnt, .trail]

/-- The register an aligned address reaches. -/
def Reg.at (a : Nat) : Option Reg := Reg.all.find? fun r => r.offset = a

/-- A register's bus address. -/
def Reg.addr (r : Reg) : Addr := BitVec.ofNat 18 r.offset

/-- The read-only registers (R22, R63). -/
def Reg.readOnly : Reg → Bool
  | .status => true
  | .olen => true
  | .errpos => true
  | .reccnt => true
  | .trail => true
  | .cmd => false
  | .ctrl => false
  | .ilen => false
  | .iptr => false
  | .pixpos => false
  | .pixrgb => false

/-- The value a register reads as; a reserved bit reads 0 (R23, R25 to R38). -/
def State.readReg (s : State) : Reg → Word
  | .cmd => s.cmd
  | .status => s.statusWord
  | .ctrl => 0#31 ++ BitVec.ofBool s.fb16
  | .ilen => s.ilen
  | .iptr => s.iptr
  | .olen => s.olen
  | .pixpos => 0#16 ++ s.pixCol ++ s.pixRow
  | .pixrgb => 0#8 ++ s.pixRgb.blue ++ s.pixRgb.green ++ s.pixRgb.red
  | .errpos => s.errpos
  | .reccnt => s.reccnt
  | .trail => s.tlen ++ s.toff

/-- What a host write stores: reserved bits are ignored (R23), a write to CMD issues a command (R21), a
read-only register is not written (`busWrite32` faults before it comes here, R63). -/
def State.writeReg (s : State) (r : Reg) (w : Word) : State :=
  match r with
  | .cmd => s.issue w
  | .ctrl => { s with fb16 := w.getLsbD 0 }
  | .ilen => { s with ilen := w }
  | .iptr => { s with iptr := w }
  | .pixpos => { s with pixRow := w.extractLsb' 0 8, pixCol := w.extractLsb' 8 8 }
  | .pixrgb =>
    { s with pixRgb := ⟨w.extractLsb' 0 8, w.extractLsb' 8 8, w.extractLsb' 16 8⟩ }
  | .status => s
  | .olen => s
  | .errpos => s
  | .reccnt => s
  | .trail => s

/-! ## The address map (R60, R61) -/

/-- Where a byte address lies. -/
inductive Region where
  /-- a byte of a register's word, with its offset -/
  | reg (off : Nat)
  /-- IBUF byte i, i < IBUF_BYTES -/
  | ibuf (i : Nat)
  /-- OBUF byte i, i < OBUF_BYTES -/
  | obuf (i : Nat)
  /-- a byte of the matrix window, with its offset -/
  | matrix (off : Nat)
  | reserved
  deriving DecidableEq, Repr

/-- The region of a byte address (R60, R61). -/
def region (caps : Capacities) (a : Addr) : Region :=
  let n := a.toNat
  if n < 0x2C then .reg n
  else if n < 0x10000 then .reserved
  else if n < 0x20000 then
    if n - 0x10000 < caps.ibufBytes then .ibuf (n - 0x10000) else .reserved
  else if n < 0x30000 then
    if n - 0x20000 < caps.obufBytes then .obuf (n - 0x20000) else .reserved
  else if n < 0x30400 then .matrix (n - 0x30000)
  else .reserved

/-- Little-endian assembly of the bytes at i to i + 3 (R66), none if one of them has no value. -/
def word4 (byte : Nat → Option Byte) (i : Nat) : Option Word :=
  match byte i, byte (i + 1), byte (i + 2), byte (i + 3) with
  | some b0, some b1, some b2, some b3 => some (b3 ++ b2 ++ b1 ++ b0)
  | _, _, _, _ => none

/-- The four bytes of a word, little-endian (R66). -/
def bytes4 (w : Word) : List Byte :=
  [w.extractLsb' 0 8, w.extractLsb' 8 8, w.extractLsb' 16 8, w.extractLsb' 24 8]

/-- A read's value, or the violation that names why the location holds none. -/
def orViolation {α : Type} (f : Fault) : Option α → Except Fault α
  | some v => .ok v
  | none => .error f

/-- The matrix window's word for a cell: blue << 16 | green << 8 | red (R42). -/
def Rgb.word (v : Rgb) : Word := 0#8 ++ v.blue ++ v.green ++ v.red

/-- The word of the cell at index `k`, the window's word number `k` (R42, R60). -/
def State.matrixWord (s : State) (k : Nat) : Word := (s.matrix.toList.getD k ⟨0#8, 0#8, 0#8⟩).word

/-! ## Accesses (R62 to R64). The order in which several violations are named is the model's (DESIGN CHOICE, log
entry 7) -/

/-- The window of R213, in which the host may only read STATUS: BUSY = 1, and on until a read of STATUS returns
BUSY = 0 (R64, log entry 16). -/
def State.inBusyWindow (s : State) : Bool := s.busy || s.awaiting

/-- A 32-bit host read. The order in which its violations are named is the model's. DESIGN CHOICE, log entry 7: safe. -/
def busRead32 (s : State) (a : Addr) : Except Fault Word :=
  if s.inBusyWindow = true ∧ a ≠ Reg.status.addr then .error .hostWhileBusy
  else
    match region s.caps a with
    | .reserved => .error .reservedAddress
    | .reg n =>
      match Reg.at n with
      | none => .error .misaligned
      | some r => .ok (s.readReg r)
    | .ibuf i =>
      if i % 4 ≠ 0 then .error .misaligned
      else if s.caps.ibufBytes ≤ i + 3 then .error .reservedAddress
      else orViolation .hostReadUnwritten (word4 s.ibuf.read i)
    | .obuf i =>
      if i % 4 ≠ 0 then .error .misaligned
      else if s.caps.obufBytes ≤ i + 3 then .error .reservedAddress
      else orViolation .hostReadBeyondOlen (word4 s.outputByte i)
    | .matrix n => if n % 4 ≠ 0 then .error .misaligned else .ok (s.matrixWord (n / 4))

/-- An 8-bit host read: only the buffer windows take one (R62). The order in which its violations are named is the
model's. DESIGN CHOICE, log entry 7: safe. -/
def busRead8 (s : State) (a : Addr) : Except Fault Byte :=
  if s.inBusyWindow then .error .hostWhileBusy
  else
    match region s.caps a with
    | .reserved => .error .reservedAddress
    | .reg _ => .error .accessWidth
    | .ibuf i => orViolation .hostReadUnwritten (s.ibuf.read i)
    | .obuf i => orViolation .hostReadBeyondOlen (s.outputByte i)
    | .matrix _ => .error .accessWidth

/-- A host write of IBUF byte `i`: its mark is set (R41). -/
def State.writeInput (s : State) (i : Nat) (b : Byte) : State := { s with ibuf := s.ibuf.write i b }

/-- Host writes of consecutive IBUF bytes from `i` on (R66). -/
def State.writeInputs (s : State) : Nat → List Byte → State
  | _, [] => s
  | i, b :: bs => State.writeInputs (s.writeInput i b) (i + 1) bs

/-- A 32-bit host write. The order in which its violations are named is the model's: a write that begins at an OBUF or
matrix byte is named readOnlyWrite (R63), also where it is misaligned (R62) or runs past OBUF_BYTES (R61), while one
to IBUF that runs past IBUF_BYTES is named reservedAddress. DESIGN CHOICE, log entry 7: safe. -/
def busWrite32 (s : State) (a : Addr) (w : Word) : Except Fault State :=
  if s.inBusyWindow then .error .hostWhileBusy
  else
    match region s.caps a with
    | .reserved => .error .reservedAddress
    | .reg n =>
      match Reg.at n with
      | none => .error .misaligned
      | some r => if r.readOnly then .error .readOnlyWrite else .ok (s.writeReg r w)
    | .ibuf i =>
      if i % 4 ≠ 0 then .error .misaligned
      else if s.caps.ibufBytes ≤ i + 3 then .error .reservedAddress
      else .ok (s.writeInputs i (bytes4 w))
    | .obuf _ => .error .readOnlyWrite
    | .matrix _ => .error .readOnlyWrite

/-- An 8-bit host write: only the IBUF window takes one (R62, R63). The order in which its violations are named is the
model's: accessWidth at a register, readOnlyWrite at an OBUF or matrix byte. DESIGN CHOICE, log entry 7: safe. -/
def busWrite8 (s : State) (a : Addr) (b : Byte) : Except Fault State :=
  if s.inBusyWindow then .error .hostWhileBusy
  else
    match region s.caps a with
    | .reserved => .error .reservedAddress
    | .reg _ => .error .accessWidth
    | .ibuf i => .ok (s.writeInput i b)
    | .obuf _ => .error .readOnlyWrite
    | .matrix _ => .error .readOnlyWrite

/-- What a host read returned, kept for the host (log entry 2). -/
def State.returned (s : State) (w : Word) : State := { s with hostReads := w :: s.hostReads }

/-- The end of R213's window: a read of STATUS that returned BUSY = 0. -/
def State.polled (s : State) (a : Addr) : State :=
  { s with awaiting := if a = Reg.status.addr ∧ s.busy = false then false else s.awaiting }

/-- One host access: the state after it, or the violation it is (R64, R69). An access of a width the bus does not
have (R62) is named for its width whatever its address, a reserved one among them (R22, R199): the spec gives no order
of the names, this one is the model's. DESIGN CHOICE, log entry 7: safe. -/
def hostAccess (s : State) : Access → Except Fault State
  | .read8 a =>
    match busRead8 s a with
    | .error f => .error f
    | .ok b => .ok (s.returned (0#24 ++ b))
  | .read32 a =>
    match busRead32 s a with
    | .error f => .error f
    | .ok w => .ok ((s.returned w).polled a)
  | .write8 a b => busWrite8 s a b
  | .write32 a w => busWrite32 s a w
  | .otherWidth _ => if s.inBusyWindow then .error .hostWhileBusy else .error .accessWidth

end Sys2Proof.Machine
end

