-- ==== Sys2Proof/Machine/Operands.lean ====
section
/-!
DEFINITION. Characters and values: the character classes (00_scope.md R14), the shared nibble table
(40_hex_codec.md R100, R101), binary strings and their values (R101), the two-character record fields in both
bases (42_pixel_frame.md R151 to R153).
-/

namespace Sys2Proof.Machine

/-- The bytes of an ASCII text (R11). -/
def ascii (t : String) : List Byte := t.toList.map fun c => BitVec.ofNat 8 c.toNat

/-! ## Character classes (R14) -/

def isBin (c : Byte) : Bool := c = 0x30#8 ∨ c = 0x31#8

def isDec (c : Byte) : Bool := 0x30#8 ≤ c ∧ c ≤ 0x39#8

def isHex (c : Byte) : Bool :=
  (0x30#8 ≤ c ∧ c ≤ 0x39#8) ∨ (0x41#8 ≤ c ∧ c ≤ 0x46#8) ∨ (0x61#8 ≤ c ∧ c ≤ 0x66#8)

/-- `A`-`F` to `a`-`f`, every other character unchanged (R104). -/
def lowerChar (c : Byte) : Byte := if 0x41#8 ≤ c ∧ c ≤ 0x46#8 then c + 0x20#8 else c

/-! ## The nibble table (R100, R101) -/

/-- nib(c): the value of hex character `c`; meant only where `isHex c` (R101). -/
def nib (c : Byte) : Nat :=
  if c ≤ 0x39#8 then c.toNat - 0x30
  else if c ≤ 0x46#8 then c.toNat - 0x41 + 10
  else c.toNat - 0x61 + 10

/-- hexch(v): the lowercase character of value `v`, 0 ≤ v ≤ 15 (R101). -/
def hexch (v : Nat) : Byte := if v < 10 then BitVec.ofNat 8 (0x30 + v) else BitVec.ofNat 8 (0x57 + v)

/-! ## Binary strings (R101) -/

/-- The character of one bit. -/
def bitChar (b : Bool) : Byte := if b then 0x31#8 else 0x30#8

/-- bits_n(v): the `n` binary characters of `v`, most significant first. -/
def bits : Nat → Nat → List Byte
  | 0, _ => []
  | n + 1, v => bitChar (v.testBit n) :: bits n v

/-- The value of one binary character. -/
def bitVal (c : Byte) : Nat := if c = 0x31#8 then 1 else 0

/-- val(s): the first character has weight 2^(len(s) - 1). -/
def val : List Byte → Nat
  | [] => 0
  | c :: cs => bitVal c * 2 ^ cs.length + val cs

/-! ## Record fields (R151 to R153); `fb` is CTRL.FB16 -/

/-- enc2(v, fb): none is the spec's `fail`, a value that two decimal digits cannot hold (R152). -/
def enc2 (fb : Bool) (v : Nat) : Option (List Byte) :=
  if fb then some [hexch (v / 16), hexch (v % 16)]
  else if 99 < v then none
  else some [BitVec.ofNat 8 (0x30 + v / 10), BitVec.ofNat 8 (0x30 + v % 10)]

/-- The characters a field may hold (R153). -/
def fieldChar (fb : Bool) (c : Byte) : Bool := if fb then isHex c else isDec c

/-- The value of a field whose two characters are in its class (R153). -/
def fieldValue (fb : Bool) (x0 x1 : Byte) : Nat :=
  if fb then 16 * nib x0 + nib x1 else 10 * (x0.toNat - 0x30) + (x1.toNat - 0x30)

/-- dec2(x, fb): the error is the spec's `fail(k)` (R153). -/
def dec2 (fb : Bool) (x0 x1 : Byte) : Except Nat Nat :=
  if fieldChar fb x0 = false then .error 0
  else if fieldChar fb x1 = false then .error 1
  else .ok (fieldValue fb x0 x1)

end Sys2Proof.Machine
end

