-- ==== Sys2Proof/Machine/Codec.lean ====
section
/-!
DEFINITION. The hex/binary nibble codec (40_hex_codec.md): its two functions (R102, R103) and the commands
HEX2BIN (R106) and BIN2HEX (R107).
-/

namespace Sys2Proof.Machine

/-- The expansion of a hex string whose characters are all hex (R102's loop body). -/
def expandHex : List Byte → List Byte
  | [] => []
  | c :: cs => bits 4 (nib c) ++ expandHex cs

/-- hexToBinary(h) (R102): the error names the lowest invalid index. -/
def hexToBinary (h : List Byte) : Except EngineError (List Byte) :=
  match h.findIdx? fun c => !isHex c with
  | some i => .error ⟨.invalidCharacter, i⟩
  | none => .ok (expandHex h)

/-- One hex character per four binary characters (R103's second loop). -/
def packHex : List Byte → List Byte
  | a :: b :: c :: d :: t => hexch (val [a, b, c, d]) :: packHex t
  | _ => []

/-- binaryToHex(b) (R103): the length check comes before the character scan. -/
def binaryToHex (b : List Byte) : Except EngineError (List Byte) :=
  if b.length % 4 ≠ 0 then .error ⟨.invalidArgument, b.length⟩
  else
    match b.findIdx? fun c => !isBin c with
    | some i => .error ⟨.invalidCharacter, i⟩
    | none => .ok (packHex b)

/-- HEX2BIN (R106). BSZ is ignored. -/
def execHex2bin (_bsz : Nat) (s : State) : Out :=
  let n := s.ilen.toNat
  if s.caps.ibufBytes < n then .next (s.raise .invalidArgument 0)
  else if s.caps.obufBytes < 4 * n then .next (s.raise .invalidArgument 0)
  else
    match s.readInput with
    | none => .fault .engineReadUnwritten
    | some h => .next (s.finishOutput 0 (hexToBinary h))

/-- BIN2HEX (R107). BSZ is ignored. -/
def execBin2hex (_bsz : Nat) (s : State) : Out :=
  let n := s.ilen.toNat
  if s.caps.ibufBytes < n then .next (s.raise .invalidArgument 0)
  else if n % 4 ≠ 0 then .next (s.raise .invalidArgument n)
  else if s.caps.obufBytes < n / 4 then .next (s.raise .invalidArgument 0)
  else
    match s.readInput with
    | none => .fault .engineReadUnwritten
    | some b => .next (s.finishOutput 0 (binaryToHex b))

end Sys2Proof.Machine
end

