-- ==== Sys2Proof/Machine/Checksum.lean ====
section
/-!
DEFINITION. The one's-complement checksum engine (41_checksum.md): padding, blocking, addition with
end-around carry, accumulation, the checksum and its verification (R120 to R126), and the commands CKCOMP
(R130) and CKVERIFY (R131). Where 90_conflicts.md C1, C2, C5, C6 and C8 decide, their choice is followed.
-/

namespace Sys2Proof.Machine

/-- pad(d, b): the fewest `0` characters in front that make the length a multiple of b (R120). -/
def pad (d : List Byte) (b : Nat) : List Byte :=
  List.replicate ((b - d.length % b) % b) 0x30#8 ++ d

/-- blocks(d, b): the values of the b-character pieces of pad(d, b), in order (R121). -/
def blocks (d : List Byte) (b : Nat) : List Nat :=
  (List.range ((pad d b).length / b)).map fun i => val (((pad d b).drop (i * b)).take b)

/-- The loop of R122: while s >= 2^b, s <- (s mod 2^b) + 1, at most `fuel` times. -/
def foldCarry (b : Nat) : Nat → Nat → Nat
  | 0, s => s
  | fuel + 1, s => if 2 ^ b ≤ s then foldCarry b fuel (s % 2 ^ b + 1) else s

/-- ocAdd_b(a, x) (R122). Two rounds leave no carry whatever the sum (log entry 13). -/
def ocAdd (b a x : Nat) : Nat := foldCarry b 2 (a + x)

/-- ocSum(d, b): from the first block on, each later block added in order (R123). -/
def ocSum (d : List Byte) (b : Nat) : Nat :=
  match blocks d b with
  | [] => 0
  | b0 :: rest => rest.foldl (ocAdd b) b0

/-- ~_n v, the n-bit one's complement (R10). -/
def onesComplement (n v : Nat) : Nat := 2 ^ n - 1 - v

/-- The checks R125 and R126 share: b = 0, empty data, the first character that is not binary. -/
def checkBinary (d : List Byte) (b : Nat) : Except EngineError Unit :=
  if b = 0 then .error ⟨.invalidArgument, 0⟩
  else if d.length = 0 then .error ⟨.invalidArgument, 0⟩
  else
    match d.findIdx? fun c => !isBin c with
    | some i => .error ⟨.invalidCharacter, i⟩
    | none => .ok ()

/-- computeChecksum(d, b) (R125). -/
def computeChecksum (d : List Byte) (b : Nat) : Except EngineError (List Byte) :=
  match checkBinary d b with
  | .error e => .error e
  | .ok _ => .ok (bits b (onesComplement b (ocSum d b)))

/-- verifyChecksum(P, b) (R126, 90_conflicts.md C1). -/
def verifyChecksum (p : List Byte) (b : Nat) : Except EngineError Bool :=
  match checkBinary p b with
  | .error e => .error e
  | .ok _ => .ok (onesComplement b (ocSum p b) = 0)

/-- A checksum in the form XF asks for: binary characters or lowercase hex (R80, R130, R155). -/
def checksumForm (xf : Bool) (c : List Byte) : Except EngineError (List Byte) :=
  if xf then binaryToHex c else .ok c

/-- The checksum of `d` in the form XF asks for. -/
def formedChecksum (d : List Byte) (b : Nat) (xf : Bool) : Except EngineError (List Byte) :=
  match computeChecksum d b with
  | .error e => .error e
  | .ok c => checksumForm xf c

/-- The characters of a checksum field: b, or b/4 in hex form (R80, R130). -/
def checksumChars (xf : Bool) (b : Nat) : Nat := if xf then b / 4 else b

/-- T of R157, R169 and R172: the characters of a record's trailer, none without CK. -/
def trailerChars (ck xf : Bool) (b : Nat) : Nat := if ck then checksumChars xf b else 0

/-- CKCOMP (R130). -/
def execCkcomp (xf : Bool) (bsz : Nat) (s : State) : Out :=
  let n := s.ilen.toNat
  if s.caps.ibufBytes < n then .next (s.raise .invalidArgument 0)
  else if bsz = 0 then .next (s.raise .invalidArgument 0)
  else if n = 0 then .next (s.raise .invalidArgument 0)
  else if xf = true ∧ bsz % 4 ≠ 0 then .next (s.raise .invalidArgument 0)
  else if s.caps.obufBytes < checksumChars xf bsz then .next (s.raise .invalidArgument 0)
  else
    match s.readInput with
    | none => .fault .engineReadUnwritten
    | some d => .next (s.finishOutput 0 (formedChecksum d bsz xf))

/-- CKVERIFY (R131). -/
def execCkverify (bsz : Nat) (s : State) : Out :=
  let n := s.ilen.toNat
  if s.caps.ibufBytes < n then .next (s.raise .invalidArgument 0)
  else if bsz = 0 then .next (s.raise .invalidArgument 0)
  else if n = 0 then .next (s.raise .invalidArgument 0)
  else
    match s.readInput with
    | none => .fault .engineReadUnwritten
    | some p =>
      match verifyChecksum p bsz with
      | .error e => .next (s.raise e.err e.pos)
      | .ok false => .next (s.raise .checksumMismatch 0)
      | .ok true => .next (s.complete true)

end Sys2Proof.Machine
end

