-- ==== Sys2Proof/Machine/Pixel.lean ====
section
/-!
DEFINITION. The pixel frame packer/unpacker (42_pixel_frame.md): encoding (R152 to R157), decoding (R158 to
R161) and the commands PIXENC (R169), RECDEC (R170), FRAMEAPPLY (R171) and MATRIXENC (R172).
-/

namespace Sys2Proof.Machine

/-! ## Encoding -/

/-- The fields of R154's loop from field index `idx` on. -/
def encodeFields (fb : Bool) : Nat → List Nat → Except EngineError (List Byte)
  | _, [] => .ok []
  | idx, v :: vs =>
    match enc2 fb v with
    | none => .error ⟨.invalidArgument, idx⟩
    | some x =>
      match encodeFields fb (idx + 1) vs with
      | .error e => .error e
      | .ok xs => .ok (x ++ xs)

/-- encodePixel(p, fb) (R154): five fields and the separator. -/
def encodePixel (fb : Bool) (row col : Nat) (v : Rgb) : Except EngineError (List Byte) :=
  if 16 ≤ row then .error ⟨.invalidArgument, 0⟩
  else if 16 ≤ col then .error ⟨.invalidArgument, 1⟩
  else
    match encodeFields fb 0 [row, col, v.red.toNat, v.green.toNat, v.blue.toNat] with
    | .error e => .error e
    | .ok f => .ok (f ++ [Config.pixelSep])

/-- trailer(F, b, xf): the checksum of the binary expansion of the ten field characters (R155). -/
def trailer (f : List Byte) (b : Nat) (xf : Bool) : Except EngineError (List Byte) :=
  match hexToBinary f with
  | .error e => .error e
  | .ok d => formedChecksum d b xf

/-- encodeChecksum(r, b, xf) for a record r = F ++ ',' (R156). -/
def encodeChecksum (r : List Byte) (b : Nat) (xf : Bool) : Except EngineError (List Byte) :=
  match trailer (r.take 10) b xf with
  | .error e => .error e
  | .ok t => .ok (r.take 10 ++ t ++ [Config.pixelSep])

/-- A record with the trailer CK asks for (R157, R169). -/
def encodeRecord (fb ck xf : Bool) (b row col : Nat) (v : Rgb) : Except EngineError (List Byte) :=
  match encodePixel fb row col v with
  | .error e => .error e
  | .ok r => if ck then encodeChecksum r b xf else .ok r

/-- The records of the cells from index `i` on, row-major (R157): an error names the cell. -/
def encodeCells (fb ck xf : Bool) (b : Nat) : Nat → List Rgb → Except EngineError (List Byte)
  | _, [] => .ok []
  | i, v :: vs =>
    match encodeRecord fb ck xf b (i / 16) (i % 16) v with
    | .error _ => .error ⟨.invalidArgument, i⟩
    | .ok r =>
      match encodeCells fb ck xf b (i + 1) vs with
      | .error e => .error e
      | .ok rs => .ok (r ++ rs)

/-- encodeMatrix(M, fb, ck, b, xf) (R157). -/
def encodeMatrix (m : Matrix) (fb ck xf : Bool) (b : Nat) : Except EngineError (List Byte) :=
  match encodeCells fb ck xf b 0 m.toList with
  | .error e => .error e
  | .ok out => .ok (out ++ [Config.frameTerm])

/-! ## Decoding -/

/-- A decoded record (R158): the range checks make row and column indices of the matrix (R159). -/
structure Record where
  row : Fin 16
  col : Fin 16
  rgb : Rgb
  toff : Nat
  tlen : Nat
  next : Nat
  deriving DecidableEq, Repr

/-- The separator's offset (R158's scan): none where the terminator or the end of input comes first. -/
def separatorAt : List Byte → Option Nat
  | [] => none
  | c :: cs =>
    if c = Config.pixelSep then some 0
    else if c = Config.frameTerm then none
    else (separatorAt cs).map (· + 1)

/-- Field number `f` of a record's characters (R150, R153). -/
def recordField (fb : Bool) (r : List Byte) (f : Nat) : Nat :=
  fieldValue fb (r.getD (2 * f) 0#8) (r.getD (2 * f + 1) 0#8)

/-- decodeRecord(s, p, fb) (R158), where `rest` is s[p:]. -/
def decodeAt (fb : Bool) (p : Nat) (rest : List Byte) : Except EngineError Record :=
  match separatorAt rest with
  | none => .error ⟨.truncatedFrame, p⟩
  | some k =>
    if k < 10 then .error ⟨.truncatedFrame, p⟩
    else
      match (rest.take 10).findIdx? fun c => !fieldChar fb c with
      | some j => .error ⟨.invalidCharacter, p + j⟩
      | none =>
        if hr : recordField fb rest 0 < 16 then
          if hc : recordField fb rest 1 < 16 then
            .ok
              { row := ⟨recordField fb rest 0, hr⟩
                col := ⟨recordField fb rest 1, hc⟩
                rgb := ⟨BitVec.ofNat 8 (recordField fb rest 2), BitVec.ofNat 8 (recordField fb rest 3),
                  BitVec.ofNat 8 (recordField fb rest 4)⟩
                toff := p + 10
                tlen := k - 10
                next := p + k + 1 }
          else .error ⟨.invalidArgument, p + 2⟩
        else .error ⟨.invalidArgument, p⟩

/-- decodeRecord(s, p, fb) on the whole string (R158). -/
def decodeRecord (fb : Bool) (s : List Byte) (p : Nat) : Except EngineError Record :=
  decodeAt fb p (s.drop p)

/-- verifyRecord(F, Tr, b, xf, toff) (R160). -/
def verifyRecord (f tr : List Byte) (b : Nat) (xf : Bool) (toff : Nat) : Except EngineError Bool :=
  if tr.length ≠ checksumChars xf b then .error ⟨.invalidArgument, toff⟩
  else
    match tr.findIdx? fun c => if xf then !isHex c else !isBin c with
    | some i => .error ⟨.invalidCharacter, toff + i⟩
    | none =>
      match hexToBinary f with
      | .error e => .error e
      | .ok d =>
        match if xf then hexToBinary tr else .ok tr with
        | .error e => .error e
        | .ok c => verifyChecksum (d ++ c) b

/-- How a frame ends (R161): the cursor, the records applied and the matrix, with the error that ended it if
one did. -/
inductive FrameEnd where
  | done (next count : Nat) (m : Matrix)
  | failed (e : EngineError) (next count : Nat) (m : Matrix)
  deriving DecidableEq, Repr

/-- The loop of R161 from index `p` on, `rest` being s[p:]. Every round but the last takes at least one
character, so `fuel` above the number of characters left is never used up (Laws/Pixel.lean). -/
def frameLoop (fb : Bool) : Nat → Nat → List Byte → Nat → Matrix → FrameEnd
  | 0, p, _, cnt, m => .done p cnt m
  | fuel + 1, p, rest, cnt, m =>
    match rest with
    | [] => .done p cnt m
    | c :: cs =>
      if c = Config.frameTerm then .done (p + 1) cnt m
      else
        match decodeAt fb p (c :: cs) with
        | .error e => .failed e p cnt m
        | .ok r =>
          frameLoop fb fuel r.next ((c :: cs).drop (r.next - p)) (cnt + 1)
            (matrixWrite m r.row r.col r.rgb)

/-- applyFrame(s, p, fb, M) (R161), where `rest` is s[p:]. -/
def applyFrame (fb : Bool) (p : Nat) (rest : List Byte) (m : Matrix) : FrameEnd :=
  frameLoop fb (rest.length + 1) p rest 0 m

/-! ## The commands -/

/-- Where PIXENC's output starts: after OBUF[0:OLEN) with AP, else at 0 (R169). -/
def State.appendFrom (s : State) (ap : Bool) : Nat := if ap then s.olen.toNat else 0

/-- What TM adds to a record (R169). -/
def terminator (tm : Bool) : List Byte := if tm then [Config.frameTerm] else []

/-- PIXENC's output, or the error it raises (R169). -/
def pixencOutput (ck xf ap tm : Bool) (bsz : Nat) (s : State) : Except EngineError (List Byte) :=
  if ck = true ∧ bsz = 0 then .error ⟨.invalidArgument, 0⟩
  else if ck = true ∧ xf = true ∧ bsz % 4 ≠ 0 then .error ⟨.invalidArgument, 0⟩
  else if s.caps.obufBytes < s.appendFrom ap + (11 + trailerChars ck xf bsz + (terminator tm).length)
  then .error ⟨.invalidArgument, 0⟩
  else
    match encodeRecord s.fb16 ck xf bsz s.pixRow.toNat s.pixCol.toNat s.pixRgb with
    | .error e => .error e
    | .ok r => .ok (r ++ terminator tm)

/-- PIXENC (R169). -/
def execPixenc (ck xf ap tm : Bool) (bsz : Nat) (s : State) : Out :=
  .next (s.finishOutput (s.appendFrom ap) (pixencOutput ck xf ap tm bsz s))

/-- RECDEC's writes of PIXPOS, PIXRGB, TRAIL and IPTR (R170). -/
def State.surface (s : State) (r : Record) : State :=
  { s with
    pixRow := BitVec.ofNat 8 r.row.val
    pixCol := BitVec.ofNat 8 r.col.val
    pixRgb := r.rgb
    toff := BitVec.ofNat 16 r.toff
    tlen := BitVec.ofNat 16 r.tlen
    iptr := BitVec.ofNat 32 r.next }

/-- RECDEC (R170). -/
def execRecdec (xf vf : Bool) (bsz : Nat) (s : State) : Out :=
  let n := s.ilen.toNat
  let p := s.iptr.toNat
  if s.caps.ibufBytes < n then .next (s.raise .invalidArgument 0)
  else if n < p then .next (s.raise .invalidArgument p)
  else if vf = true ∧ bsz = 0 then .next (s.raise .invalidArgument p)
  else if vf = true ∧ xf = true ∧ bsz % 4 ≠ 0 then .next (s.raise .invalidArgument p)
  else
    match s.readRest with
    | none => .fault .engineReadUnwritten
    | some rest =>
      match decodeAt s.fb16 p rest with
      | .error e => .next (s.raise e.err e.pos)
      | .ok r =>
        if vf then
          match verifyRecord (rest.take 10) ((rest.drop 10).take r.tlen) bsz xf r.toff with
          | .error e => .next (s.raise e.err e.pos)
          | .ok false => .next ((s.surface r).raise .checksumMismatch p)
          | .ok true => .next ((s.surface r).complete true)
        else .next ((s.surface r).complete false)

/-- FRAMEAPPLY's writes of the matrix store, RECCNT and IPTR (R171). -/
def State.applied (s : State) (next count : Nat) (m : Matrix) : State :=
  { s with matrix := m, reccnt := BitVec.ofNat 32 count, iptr := BitVec.ofNat 32 next }

/-- FRAMEAPPLY (R171). BSZ is ignored. -/
def execFrameapply (_bsz : Nat) (s : State) : Out :=
  let n := s.ilen.toNat
  let p := s.iptr.toNat
  if s.caps.ibufBytes < n then .next (s.raise .invalidArgument 0)
  else if n < p then .next (s.raise .invalidArgument p)
  else
    match s.readRest with
    | none => .fault .engineReadUnwritten
    | some rest =>
      match applyFrame s.fb16 p rest s.matrix with
      | .done next count m => .next ((s.applied next count m).complete false)
      | .failed e next count m => .next ((s.applied next count m).raise e.err e.pos)

/-- MATRIXENC's output, or the error it raises (R172). -/
def matrixencOutput (ck xf : Bool) (bsz : Nat) (s : State) : Except EngineError (List Byte) :=
  if ck = true ∧ bsz = 0 then .error ⟨.invalidArgument, 0⟩
  else if ck = true ∧ xf = true ∧ bsz % 4 ≠ 0 then .error ⟨.invalidArgument, 0⟩
  else if s.caps.obufBytes < 256 * (11 + trailerChars ck xf bsz) + 1 then .error ⟨.invalidArgument, 0⟩
  else encodeMatrix s.matrix s.fb16 ck xf bsz

/-- MATRIXENC (R172). -/
def execMatrixenc (ck xf : Bool) (bsz : Nat) (s : State) : Out :=
  .next (s.finishOutput 0 (matrixencOutput ck xf bsz s))

end Sys2Proof.Machine
end

