-- ==== Sys2Proof/Machine/Dispatch.lean ====
section
/-!
DEFINITION. `exec`: one arm per command (30_encoding.md R84), each one call of its meaning.
-/

namespace Sys2Proof.Machine

def exec (i : Instr) (s : State) : Host.Outcome State Fault Refusal :=
  match i with
  | .hex2bin bsz => Sys2Proof.Machine.execHex2bin bsz s
  | .bin2hex bsz => Sys2Proof.Machine.execBin2hex bsz s
  | .ckcomp xf bsz => Sys2Proof.Machine.execCkcomp xf bsz s
  | .ckverify bsz => Sys2Proof.Machine.execCkverify bsz s
  | .pixenc ck xf ap tm bsz => Sys2Proof.Machine.execPixenc ck xf ap tm bsz s
  | .recdec xf vf bsz => Sys2Proof.Machine.execRecdec xf vf bsz s
  | .frameapply bsz => Sys2Proof.Machine.execFrameapply bsz s
  | .matrixenc ck xf bsz => Sys2Proof.Machine.execMatrixenc ck xf bsz s

end Sys2Proof.Machine
end

