-- ==== Sys2Proof/Machine/Engine.lean ====
section
/-!
DEFINITION. The engine step (10_state.md R21, 30_encoding.md R82): decode the word latched in PCMD and execute
it to completion as one step; a word that names no command completes with IllegalCommand (R193).
-/

namespace Sys2Proof.Machine

/-- The engine's step when a command is pending (R21, R82). -/
def engineStep (s : State) : Out :=
  match decode s.pcmd with
  | .ok i => exec i s
  | .error _ => .next s.illegal

/-- The engine's turn: in IDLE the engine has no step (R21), the turn passes (log entry 9). -/
def engineTurn (s : State) : Out := if s.busy then engineStep s else .next s

end Sys2Proof.Machine
end

