-- ==== Sys2Proof/Machine/Agents.lean ====
section
/-!
DEFINITION. One element of the total order of host accesses, consumer reads, engine steps and resets
(20_memory.md R72, 10_state.md R20, 70_reset_and_hazards.md R210). Which agent moves is data of the state: the
turns already scheduled, and with none of them left the engine whenever BUSY = 1, else the host (log entry 2).
-/

namespace Sys2Proof.Machine

/-- The host's access as a step: a violation is a fault of the run (R64, R199). -/
def accessStep (s : State) (x : Access) : Out :=
  match hostAccess s x with
  | .ok t => .next t
  | .error f => .fault f

/-- The host's turn: its next statement. POLL reads STATUS and stays while the BUSY bit it read is 1 (R90).
A host program that has ended does nothing. -/
def hostTurn (s : State) : Out :=
  match s.host with
  | [] => .next s
  | .access x :: rest => accessStep { s with host := rest } x
  | .poll :: rest =>
    accessStep { s with host := if s.busy then .poll :: rest else rest } (.read32 Reg.status.addr)

/-- The consumer's read of cell (r, c): a violation while BUSY = 1 (R42, R214). -/
def consumerTurn (s : State) (r c : Fin 16) : Out :=
  if s.busy then .fault .consumerWhileBusy
  else .next { s with consumerReads := (matrixRead s.matrix r c).word :: s.consumerReads }

/-- The reset event (R46, R210): every piece of the block's state takes its reset value, a pending command has
no effect. The host program, the schedule and what was read are not the block's (log entry 10). -/
def resetTurn (s : State) : State :=
  { State.resetWith s.caps with
    host := s.host
    turns := s.turns
    hostReads := s.hostReads
    consumerReads := s.consumerReads }

/-- The step of the agent whose turn it is. -/
def turnStep (s : State) : Turn → Out
  | .host => hostTurn s
  | .engine => engineTurn s
  | .consumer r c => consumerTurn s r c
  | .reset => .next (resetTurn s)

/-- One step of the block with its host and consumer. -/
def agentStep (s : State) : Out :=
  match s.turns with
  | t :: ts => turnStep { s with turns := ts } t
  | [] => if s.busy then engineStep s else hostTurn s

end Sys2Proof.Machine
end

