-- ==== Sys2Proof/Machine/Step.lean ====
section
/-!
DEFINITION. `step`: one element of the block's total order (Machine/Agents.lean), and `withFetchWord`, the block's
counterpart of placing an instruction: the host's write of a command word to CMD with the engine next to move (log entry 8).
-/

namespace Sys2Proof.Machine

def step (s : State) : Host.Outcome State Fault Refusal := agentStep s

/-- The state in which the word `w` of `nbits` bits is pending (R21) and the engine moves next, so that
the very next step executes it. -/
def State.withFetchWord (s : State) (nbits w : Nat) : State :=
  { s.issue (BitVec.ofNat 32 (w % 2 ^ nbits)) with turns := .engine :: s.turns }

end Sys2Proof.Machine
end

