-- ==== Sys2Proof/Machine/HostProgram.lean ====
section
/-!
DEFINITION. The spec's notation for what a host does: the assembler syntax (30_encoding.md R89) as a function from
text to a command word, and the statements and pseudo-instructions of a host program (R90, R91) as lists of
`HostOp`.
-/

namespace Sys2Proof.Machine

/-! ## Assembler (R89) -/

/-- The word bit of a named flag (R80). -/
def flagBit (name : List Char) : Option Word :=
  if name = "CK".toList then some 0x00000100#32
  else if name = "XF".toList then some 0x00000200#32
  else if name = "AP".toList then some 0x00000400#32
  else if name = "TM".toList then some 0x00000800#32
  else if name = "VF".toList then some 0x00001000#32
  else none

/-- The flags of a FLAG{,FLAG} list, joined. -/
def flagWord : List (List Char) → Option Word
  | [] => some 0#32
  | f :: fs =>
    match flagBit f, flagWord fs with
    | some b, some w => some (b ||| w)
    | _, _ => none

/-- A decimal number, none if a character is no digit. -/
def decimal : Nat → List Char → Option Nat
  | n, [] => some n
  | n, c :: cs =>
    if '0' ≤ c ∧ c ≤ '9' then decimal (10 * n + (c.toNat - 0x30)) cs else none

/-- N of `bsz=N`: at least one digit, and a value the 16-bit field holds (log entry 14). -/
def bszToken (t : List Char) : Option Nat :=
  match t with
  | 'b' :: 's' :: 'z' :: '=' :: d :: ds =>
    match decimal 0 (d :: ds) with
    | some n => if n < 65536 then some n else none
    | none => none
  | _ => none

/-- The OP of a mnemonic (R84). -/
def mnemonicOp (m : List Char) : Option Byte :=
  (opcodeMap.find? fun r => r.mnemonic.toList = m).map (·.op)

/-- zext_32(N) << 16 | flags | OP (R89). -/
def assembled (op : Byte) (flags : Word) (n : Nat) : Word :=
  (BitVec.ofNat 32 n <<< 16) ||| flags ||| op.setWidth 32

/-- `MNEMONIC [FLAG{,FLAG}] [bsz=N]` to its word; an omitted `bsz=` means BSZ = 0 (R89). Which flags the row
permits is the engine's to check, not the assembler's. -/
def assemble (line : String) : Option Word :=
  match line.toList.splitOn ' ' with
  | [m] => (mnemonicOp m).map fun op => assembled op 0#32 0
  | [m, x] =>
    match mnemonicOp m, bszToken x, flagWord (x.splitOn ',') with
    | some op, some n, _ => some (assembled op 0#32 n)
    | some op, none, some f => some (assembled op f 0)
    | _, _, _ => none
  | [m, x, y] =>
    match mnemonicOp m, flagWord (x.splitOn ','), bszToken y with
    | some op, some f, some n => some (assembled op f n)
    | _, _, _ => none
  | _ => none

/-! ## Host program notation (R90) -/

/-- `W REG, v` -/
def hostW (r : Reg) (v : Word) : HostOp := .access (.write32 r.addr v)

/-- `R REG` -/
def hostR (r : Reg) : HostOp := .access (.read32 r.addr)

/-- `WB a, b`: IBUF byte a is at 0x10000 + a (R60). -/
def hostWB (a : Nat) (b : Byte) : HostOp := .access (.write8 (BitVec.ofNat 18 (0x10000 + a)) b)

/-- `WS a, "text"` for the characters of the text. -/
def hostWS : Nat → List Byte → List HostOp
  | _, [] => []
  | a, c :: cs => hostWB a c :: hostWS (a + 1) cs

/-- `RB a`: OBUF byte a is at 0x20000 + a (R60). -/
def hostRB (a : Nat) : HostOp := .access (.read8 (BitVec.ofNat 18 (0x20000 + a)))

/-- `RM r, c`: cell (r, c) is at 0x30000 + 4 * (16 * r + c) (R42). -/
def hostRM (r c : Fin 16) : HostOp :=
  .access (.read32 (BitVec.ofNat 18 (0x30000 + 4 * (16 * r.val + c.val))))

/-! ## Pseudo-instructions (R91) -/

/-- `DO cmd`: write the word to CMD, then POLL. -/
def hostDO (w : Word) : List HostOp := [hostW .cmd w, .poll]

/-- `LOAD "text"` -/
def hostLOAD (text : List Byte) : List HostOp :=
  hostWS 0 text ++ [hostW .ilen (BitVec.ofNat 32 text.length), hostW .iptr 0#32]

/-- The `RB i`, `WB i` pairs of MOVEOUT from index `i` on, `out` being what the reads return. -/
def hostCopy : Nat → List Byte → List HostOp
  | _, [] => []
  | i, c :: cs => hostRB i :: hostWB i c :: hostCopy (i + 1) cs

/-- `MOVEOUT`, where OBUF[0:OLEN) is `out`: what the host writes is what its own reads return, so the
expansion is a function of the output it copies. -/
def hostMOVEOUT (out : List Byte) : List HostOp :=
  hostCopy 0 out ++ [hostW .ilen (BitVec.ofNat 32 out.length), hostW .iptr 0#32]

end Sys2Proof.Machine
end

