-- ==== Sys2Proof/Safety.lean ====
section
/-!
DEFINITION. What claims about runs are stated in: the invariant of every state a run reaches, the end of a
run and what it leaves to observe (70_reset_and_hazards.md R218), the launch premises (R219), the operands
a command needs written (R212), and a run without a host-protocol violation (R64).
-/

namespace Sys2Proof.Machine

/-- IBUF in canonical form, inside its capacity (R41). -/
abbrev State.InputOk (s : State) : Prop := s.ibuf.wf ∧ ∀ c ∈ s.ibuf, c.1 < s.caps.ibufBytes

/-- OBUF in canonical form, with a value exactly at the indices below OLEN, and OLEN inside the capacity
(R33, R42, R75). -/
abbrev State.OutputOk (s : State) : Prop :=
  s.obuf.map (·.1) = List.range s.olen.toNat ∧ s.olen.toNat ≤ s.caps.obufBytes

/-- STATUS and ERRPOS as completions leave them: VALID only with ERR = 0 (R28), ERRPOS = 0 with ERR = 0 (R36),
CMD reads back PCMD while BUSY = 1 (R44), and R213's window is open then. -/
abbrev State.StatusOk (s : State) : Prop :=
  (s.valid = true → s.err = .ok) ∧ (s.err = .ok → s.errpos = 0#32) ∧
    (s.busy = true → s.cmd = s.pcmd ∧ s.awaiting = true)

/-- The invariant: it holds after reset, and every step keeps it. -/
structure State.Inv (s : State) : Prop where
  input : s.InputOk
  output : s.OutputOk
  status : s.StatusOk

/-- A run has ended: the host program has no statement left and BUSY = 0 (R218). -/
abbrev State.Ended (s : State) : Prop := s.host = [] ∧ s.busy = false

/-- What a run leaves to observe: the registers, OBUF[0:OLEN) and the matrix store (R218). -/
structure Observation where
  cmd : Word
  status : Word
  ctrl : Word
  ilen : Word
  iptr : Word
  olen : Word
  pixpos : Word
  pixrgb : Word
  errpos : Word
  reccnt : Word
  trail : Word
  output : Option (List Byte)
  matrix : Matrix
  deriving DecidableEq, Repr

/-- The observable results of a state (R218). -/
def State.observe (s : State) : Observation where
  cmd := s.readReg .cmd
  status := s.readReg .status
  ctrl := s.readReg .ctrl
  ilen := s.readReg .ilen
  iptr := s.readReg .iptr
  olen := s.readReg .olen
  pixpos := s.readReg .pixpos
  pixrgb := s.readReg .pixrgb
  errpos := s.readReg .errpos
  reccnt := s.readReg .reccnt
  trail := s.readReg .trail
  output := s.output
  matrix := s.matrix

/-- A state a claim may start from (R219): BUSY = 0, and the state is one the invariant admits. A state in
which a fault was recorded does not exist: a fault ends the run. -/
structure State.Launch (s : State) : Prop where
  idle : s.busy = false
  inv : s.Inv

/-- Every byte of IBUF[p:ILEN) is written (R85, R212, R220). -/
def State.InputWritten (s : State) (p : Nat) : Prop :=
  ∀ i, p ≤ i → i < s.ilen.toNat → (s.ibuf.read i).isSome = true

/-- The operands R85 lists for a command are written (R212). -/
def State.OperandsReady (s : State) : Instr → Prop
  | .hex2bin _ => s.InputWritten 0
  | .bin2hex _ => s.InputWritten 0
  | .ckcomp _ _ => s.InputWritten 0
  | .ckverify _ => s.InputWritten 0
  | .pixenc _ _ _ _ _ => True
  | .recdec _ _ _ => s.InputWritten s.iptr.toNat
  | .frameapply _ => s.InputWritten s.iptr.toNat
  | .matrixenc _ _ _ => True

/-- A run of `n` steps without a host-protocol violation (R64), from `s` to `t`. -/
def RunsTo (n : Nat) (s t : State) : Prop := core.run n s = .next t

end Sys2Proof.Machine
end

