-- ==== Sys2Proof/Certificates/Slice0/Obligations.lean ====
section
/-!
DEFINITION. The statements for the provers. Each docstring names the rule of spec/ it formalises; where a clause
rests on a choice of the model's own, it names the log entry.
-/

namespace Sys2Proof.Machine

/-! ## Words the statements share -/

/-- IBUF holds the text `t` from index `p` on, every byte of it written. -/
abbrev State.Holds (s : State) (p : Nat) (t : List Byte) : Prop :=
  s.ibuf.readFrom p t.length = t.map some

/-- IBUF[0:ILEN) is the string `h`, and ILEN is legal (R31). -/
abbrev State.InputIs (s : State) (h : List Byte) : Prop :=
  s.ilen.toNat = h.length ∧ h.length ≤ s.caps.ibufBytes ∧ s.Holds 0 h

/-- IBUF[IPTR:ILEN) is the string `t`, and ILEN and IPTR are legal (R31, R32). -/
abbrev State.RestIs (s : State) (t : List Byte) : Prop :=
  s.iptr.toNat + t.length = s.ilen.toNat ∧ s.ilen.toNat ≤ s.caps.ibufBytes ∧
    s.Holds s.iptr.toNat t

/-- After an output command: OBUF[0:OLEN) is `out`, STATUS and ERRPOS are a success's with VALID = 0, and
nothing else differs from `s`. -/
abbrev OutputDone (s t : State) (out : List Byte) : Prop :=
  t.output = some out ∧ t.olen = BitVec.ofNat 32 out.length ∧
    t = { s with
      obuf := t.obuf, olen := t.olen
      err := .ok, errpos := 0#32, valid := false, busy := false }

/-- Four binary characters per hex character, most significant first (R100, R102). -/
abbrev nibbles (h : List Byte) : List Byte := h.flatMap fun c => bits 4 (nib c)

/-- One lowercase hex character per four binary characters of `b` (R103). -/
abbrev IsHexOf (b out : List Byte) : Prop :=
  out.length = b.length / 4 ∧
    ∀ k < b.length / 4, out[k]? = some (hexch (val ((b.drop (4 * k)).take 4)))

/-- The b-bit complement of the oc-sum of `d`, in binary or in hex form (R125, R130). -/
abbrev IsChecksum (xf : Bool) (b : Nat) (d out : List Byte) : Prop :=
  (xf = false → out = bits b (2 ^ b - 1 - ocSum d b)) ∧
    (xf = true → IsHexOf (bits b (2 ^ b - 1 - ocSum d b)) out)

/-- A legal block size for a command that uses it, in the form XF asks for. -/
abbrev BlockSizeOk (used xf : Bool) (b : Nat) : Prop :=
  used = true → b ≠ 0 ∧ (xf = true → b % 4 = 0)

/-- The two characters of a field (R152). -/
abbrev fieldText (fb : Bool) (v : Nat) : List Byte :=
  if fb then [hexch (v / 16), hexch (v % 16)]
  else [BitVec.ofNat 8 (0x30 + v / 10), BitVec.ofNat 8 (0x30 + v % 10)]

/-- The ten field characters of a pixel (R150, R154). -/
abbrev pixelText (fb : Bool) (row col : Nat) (v : Rgb) : List Byte :=
  fieldText fb row ++ fieldText fb col ++ fieldText fb v.red.toNat ++ fieldText fb v.green.toNat ++
    fieldText fb v.blue.toNat

/-- The channels two decimal digits can hold when the base is decimal (R151, R152). -/
abbrev ChannelsFit (fb : Bool) (v : Rgb) : Prop :=
  fb = false → v.red.toNat ≤ 99 ∧ v.green.toNat ≤ 99 ∧ v.blue.toNat ≤ 99

/-- A record on the wire with the pixel it spells (R150). -/
structure WireRecord where
  row : Fin 16
  col : Fin 16
  rgb : Rgb
  fields : List Byte
  trail : List Byte
  deriving DecidableEq, Repr

/-- Fields, trailer, separator (R150). -/
abbrev WireRecord.text (r : WireRecord) : List Byte := r.fields ++ r.trail ++ [Config.pixelSep]

/-- No separator and no terminator among the characters (R162). -/
abbrev NoDelimiter (t : List Byte) : Prop := ∀ c ∈ t, c ≠ Config.pixelSep ∧ c ≠ Config.frameTerm

/-- Ten characters of the base's class whose values are the pixel's, and a trailer without delimiters
(R150, R151, R153, R162). -/
abbrev WireRecord.Spells (r : WireRecord) (fb : Bool) : Prop :=
  (r.fields.length = 10 ∧ (∀ c ∈ r.fields, fieldChar fb c = true) ∧ NoDelimiter r.trail) ∧
    recordField fb r.fields 0 = r.row.val ∧ recordField fb r.fields 1 = r.col.val ∧
    recordField fb r.fields 2 = r.rgb.red.toNat ∧ recordField fb r.fields 3 = r.rgb.green.toNat ∧
    recordField fb r.fields 4 = r.rgb.blue.toNat

/-- IBUF[IPTR:ILEN) is a frame, `text` in all, and `rest` behind it: the records' texts, ended by the terminator
(`fin`) or by the end of input (R150, R161); the records are decodable, ILEN and IPTR are legal. -/
abbrev State.FrameIs (s : State) (rs : List WireRecord) (fin : Bool) (text rest : List Byte) : Prop :=
  (∀ r ∈ rs, r.Spells s.fb16) ∧
    text = rs.flatMap WireRecord.text ++ (if fin then [Config.frameTerm] else []) ∧
    s.RestIs (text ++ rest) ∧ (fin = false → rest = [])

/-- The matrix after the records' pixels are written in order (R161). -/
abbrev writeRecords (m : Matrix) (rs : List WireRecord) : Matrix :=
  rs.foldl (fun m r => matrixWrite m r.row r.col r.rgb) m

end Sys2Proof.Machine

open Sys2Proof Sys2Proof.Machine

/-! ## Command words -/

/-- R92: the table of encoding examples, as assembled (R89) and as decoded (R82). -/
def Obligations.SpecExampleWordsDecode : Prop :=
  (assemble "HEX2BIN" = some 0x00000001#32 ∧ decode 0x00000001#32 = .ok (.hex2bin 0)) ∧
  (assemble "BIN2HEX" = some 0x00000002#32 ∧ decode 0x00000002#32 = .ok (.bin2hex 0)) ∧
  (assemble "CKCOMP bsz=32" = some 0x00200003#32 ∧ decode 0x00200003#32 = .ok (.ckcomp false 32)) ∧
  (assemble "CKCOMP XF bsz=8" = some 0x00080203#32 ∧ decode 0x00080203#32 = .ok (.ckcomp true 8)) ∧
  (assemble "CKVERIFY bsz=32" = some 0x00200004#32 ∧ decode 0x00200004#32 = .ok (.ckverify 32)) ∧
  (assemble "PIXENC" = some 0x00000005#32 ∧
    decode 0x00000005#32 = .ok (.pixenc false false false false 0)) ∧
  (assemble "PIXENC CK,XF bsz=8" = some 0x00080305#32 ∧
    decode 0x00080305#32 = .ok (.pixenc true true false false 8)) ∧
  (assemble "PIXENC AP,TM" = some 0x00000C05#32 ∧
    decode 0x00000C05#32 = .ok (.pixenc false false true true 0)) ∧
  (assemble "RECDEC" = some 0x00000006#32 ∧ decode 0x00000006#32 = .ok (.recdec false false 0)) ∧
  (assemble "RECDEC XF,VF bsz=8" = some 0x00081206#32 ∧
    decode 0x00081206#32 = .ok (.recdec true true 8)) ∧
  (assemble "FRAMEAPPLY" = some 0x00000007#32 ∧ decode 0x00000007#32 = .ok (.frameapply 0)) ∧
  (assemble "MATRIXENC" = some 0x00000008#32 ∧ decode 0x00000008#32 = .ok (.matrixenc false false 0)) ∧
  (assemble "MATRIXENC CK,XF bsz=8" = some 0x00080308#32 ∧
    decode 0x00080308#32 = .ok (.matrixenc true true 8)) ∧
  decode 0x00002003#32 = .error .unpermittedFlag ∧ decode 0x00000109#32 = .error .unknownOpcode ∧
  decode 0x00000101#32 = .error .unpermittedFlag

/-- R80 to R84: no bit of a command word is dropped. -/
def Obligations.DecodeOfEncodeIsInstr : Prop :=
  ∀ i : Instr, i.WellFormed → decode (encode i) = .ok i

/-- R80 to R84: each legal word has one meaning, a well-formed command whose word it is. -/
def Obligations.EncodeOfDecodeIsWord : Prop :=
  ∀ (w : Word) (i : Instr), decode w = .ok i → i.WellFormed ∧ encode i = w

/-- R83: a word decodes exactly when it selects a row of the map, and it selects at most one. -/
def Obligations.WordDecodesIffRowSelects : Prop :=
  (∀ w : Word, (∃ i, decode w = .ok i) ↔ ∃ r ∈ opcodeMap, r.Selects w) ∧
  (∀ w : Word, ∀ r ∈ opcodeMap, ∀ r' ∈ opcodeMap, r.Selects w → r'.Selects w → r = r') ∧
  (∀ r ∈ opcodeMap, r.pattern = r.op.setWidth 32 ∧
    r.mask = 0x0000FFFF#32 &&& ~~~((r.permitted.setWidth 32) <<< 8))

/-- R193: the engine's step on a word that names no command. -/
def Obligations.IllegalCommandWritesOnlyStatus : Prop :=
  ∀ (s : State) (e : IllegalWord), decode s.pcmd = .error e →
    engineStep s = .next
      { s with err := .error .illegalCommand, valid := false, errpos := 0#32, busy := false } ∧
    (StatusErr.error .illegalCommand).code = 5#4

/-! ## Steps, issue, completion -/

/-- R20, R21: a pending command is executed by the engine's turn as one step, a word that names no command among
them (R193); with no turn scheduled the engine is next (the order of turns is the model's own, log entry 2). In IDLE
the engine has no step: its turn passes (log entry 9). -/
def Obligations.EngineStepRunsDecodedCommand : Prop :=
  (∀ (s : State) (i : Instr), s.busy = true → decode s.pcmd = .ok i →
    (s.turns = [] → step s = exec i s) ∧
    ∀ ts, s.turns = .engine :: ts → step s = exec i { s with turns := ts }) ∧
  (∀ (s : State) (e : IllegalWord), s.busy = true → decode s.pcmd = .error e →
    (s.turns = [] → step s = .next s.illegal) ∧
    ∀ ts, s.turns = .engine :: ts → step s = .next { s.illegal with turns := ts }) ∧
  ∀ (s : State) (ts : List Turn), s.busy = false → s.turns = .engine :: ts →
    step s = .next { s with turns := ts }

/-- R21, R25, R69: a host write to CMD in IDLE latches the word, sets BUSY and reads back; R213's window opens
(log entry 16). -/
def Obligations.CmdWriteIssuesCommand : Prop :=
  ∀ (s : State) (w : Word), s.busy = false → s.awaiting = false →
    busWrite32 s Reg.cmd.addr w =
      .ok { s with cmd := w, pcmd := w, busy := true, awaiting := true } ∧
    (s.issue w).readReg .cmd = w ∧ (s.issue w).readReg .status = s.statusWord ||| 1#32

/-- R91: `DO cmd` from IDLE with no turn scheduled is three steps, the write of CMD, the command, and a POLL
that reads STATUS with BUSY = 0, and so is DO of a word that names no command, whose second step is the completion of
R193 (the engine moving first when BUSY = 1 is the model's own, log entry 2). -/
def Obligations.DoRunsCommandThenPolls : Prop :=
  (∀ (s t : State) (w : Word) (i : Instr) (rest : List HostOp),
    s.busy = false → s.awaiting = false → s.turns = [] → s.host = hostDO w ++ rest →
    decode w = .ok i → exec i { s.issue w with host := .poll :: rest } = .next t →
    RunsTo 3 s
      { t with host := rest, awaiting := false, hostReads := t.statusWord :: t.hostReads }) ∧
  ∀ (s : State) (w : Word) (e : IllegalWord) (rest : List HostOp),
    s.busy = false → s.awaiting = false → s.turns = [] → s.host = hostDO w ++ rest →
    decode w = .error e →
    RunsTo 3 s
      { (s.issue w).illegal with
        host := rest, awaiting := false
        hostReads := (s.issue w).illegal.statusWord :: s.hostReads }

/-- R191, R21, R36: a command whose operands are written (R212) always ends; no command ends otherwise than by a
completion, which clears BUSY and leaves ERRPOS = 0 if it is a success, or the violation of R211. -/
def Obligations.EveryCommandCompletes : Prop :=
  ∀ (i : Instr) (s : State),
    (s.OperandsReady i → ∃ t, exec i s = .next t) ∧
    (∀ t, exec i s = .next t → t.busy = false ∧ (t.err = .ok → t.errpos = 0#32)) ∧
    (∀ f, exec i s = .fault f → f = .engineReadUnwritten ∧ ¬ s.OperandsReady i) ∧
    ∀ r, exec i s ≠ .refused r

/-- R28: what every completion leaves in VALID, and its reset value. -/
def Obligations.ValidMeansVerified : Prop :=
  (∀ (i : Instr) (s t : State), exec i s = .next t →
    (t.valid = true ↔
      t.err = .ok ∧ ((∃ b, i = .ckverify b) ∨ ∃ xf b, i = .recdec xf true b))) ∧
  (∀ s : State, s.illegal.valid = false) ∧ ∀ caps, (State.resetWith caps).valid = false

/-- R195: a command that reports an error leaves OBUF and OLEN as they were. -/
def Obligations.ErrorCommitsNoOutput : Prop :=
  ∀ (i : Instr) (s t : State) (e : Err), exec i s = .next t → t.err = .error e →
    t.olen = s.olen ∧ t.obuf = s.obuf ∧ t.valid = false

/-- R198: the errors each command can raise. -/
def Obligations.CommandRaisesOnlyItsErrors : Prop :=
  ∀ (i : Instr) (s t : State) (e : Err), exec i s = .next t → t.err = .error e →
    match i with
    | .hex2bin _ => e = .invalidCharacter ∨ e = .invalidArgument
    | .bin2hex _ => e = .invalidCharacter ∨ e = .invalidArgument
    | .ckcomp _ _ => e = .invalidCharacter ∨ e = .invalidArgument
    | .ckverify _ => e = .invalidCharacter ∨ e = .invalidArgument ∨ e = .checksumMismatch
    | .pixenc _ _ _ _ _ => e = .invalidArgument
    | .recdec _ vf _ =>
      e = .invalidCharacter ∨ e = .invalidArgument ∨ e = .truncatedFrame ∨
        (vf = true ∧ e = .checksumMismatch)
    | .frameapply _ => e = .invalidCharacter ∨ e = .invalidArgument ∨ e = .truncatedFrame
    | .matrixenc _ _ _ => e = .invalidArgument

/-- R31, R37, R38, R40, R61, R85: what a command leaves unchanged, whatever it is and however it ends. -/
def Obligations.CommandFrame : Prop :=
  ∀ (i : Instr) (s t : State), exec i s = .next t →
    (t.caps = s.caps ∧ t.cmd = s.cmd ∧ t.pcmd = s.pcmd ∧ t.fb16 = s.fb16 ∧ t.ilen = s.ilen ∧
      t.ibuf = s.ibuf) ∧
    (t.awaiting = s.awaiting ∧ t.host = s.host ∧ t.turns = s.turns ∧ t.hostReads = s.hostReads ∧
      t.consumerReads = s.consumerReads) ∧
    ((∀ b, i ≠ .frameapply b) → t.matrix = s.matrix ∧ t.reccnt = s.reccnt) ∧
    ((∀ xf vf b, i ≠ .recdec xf vf b) →
      t.pixRow = s.pixRow ∧ t.pixCol = s.pixCol ∧ t.pixRgb = s.pixRgb ∧ t.toff = s.toff ∧
        t.tlen = s.tlen) ∧
    ((∀ xf vf b, i ≠ .recdec xf vf b) → (∀ b, i ≠ .frameapply b) → t.iptr = s.iptr) ∧
    (((∃ b, i = .ckverify b) ∨ (∃ xf vf b, i = .recdec xf vf b) ∨ ∃ b, i = .frameapply b) →
      t.olen = s.olen ∧ ∀ a, t.obuf.read a = s.obuf.read a)

/-! ## The invariant -/

/-- R46, R33, R28, R36, R44: the state after reset, of any capacities, meets the invariant. -/
def Obligations.ResetMeetsInvariant : Prop :=
  State.reset.Inv ∧ ∀ caps, (State.resetWith caps).Inv

/-- R28, R33, R36, R41, R42, R44, R75: every step of any agent keeps the invariant. -/
def Obligations.StepKeepsInvariant : Prop :=
  ∀ s t : State, s.Inv → step s = .next t → t.Inv

/-- R46: the value of every register, buffer byte and cell after reset, and the modes. -/
def Obligations.ResetValues : Prop :=
  ∀ caps : Capacities,
    (∀ r, (State.resetWith caps).readReg r = 0#32) ∧ (State.resetWith caps).pcmd = 0#32 ∧
    (State.resetWith caps).busy = false ∧ (State.resetWith caps).valid = false ∧
    (State.resetWith caps).err = .ok ∧ (State.resetWith caps).fb16 = false ∧
    (∀ r c, matrixRead (State.resetWith caps).matrix r c = ⟨0#8, 0#8, 0#8⟩) ∧
    (∀ i, (State.resetWith caps).ibuf.read i = none) ∧
    ∀ i, (State.resetWith caps).outputByte i = none

/-- R210: the reset event in any state, BUSY = 1 among them (what the host still has to do and has read is
kept: log entry 10). -/
def Obligations.ResetEventResetsBlock : Prop :=
  ∀ (s : State) (ts : List Turn), s.turns = .reset :: ts →
    step s = .next
      { State.resetWith s.caps with
        host := s.host, turns := ts, hostReads := s.hostReads, consumerReads := s.consumerReads }

/-! ## The codec -/

/-- R102: hexToBinary, on hex strings and at the lowest character that is not hex; R100: the expansion of every
hex character, written out from the rule's table. -/
def Obligations.HexToBinaryFollowsTable : Prop :=
  hexToBinary (ascii "0123456789") = .ok (ascii "0000000100100011010001010110011110001001") ∧
  hexToBinary (ascii "abcdef") = .ok (ascii "101010111100110111101111") ∧
  hexToBinary (ascii "ABCDEF") = .ok (ascii "101010111100110111101111") ∧
  (∀ h : List Byte, (∀ c ∈ h, isHex c = true) →
    hexToBinary h = .ok (nibbles h) ∧ (nibbles h).length = 4 * h.length) ∧
  (∀ (h : List Byte) (i : Nat) (c : Byte), h[i]? = some c → isHex c = false →
    (∀ c' ∈ h.take i, isHex c' = true) → hexToBinary h = .error ⟨.invalidCharacter, i⟩) ∧
  hexToBinary [] = .ok []

/-- R104: the two functions are inverse to each other up to letter case. -/
def Obligations.HexCodecRoundTrip : Prop :=
  (∀ h : List Byte, (∀ c ∈ h, isHex c = true) →
    ∃ b, hexToBinary h = .ok b ∧ binaryToHex b = .ok (h.map lowerChar)) ∧
  ∀ b : List Byte, (∀ c ∈ b, isBin c = true) → b.length % 4 = 0 →
    ∃ h, binaryToHex b = .ok h ∧ hexToBinary h = .ok b

/-- R105: input case does not matter, the ten digits and the letters of either case are accepted with their values
of R100, and no command puts an uppercase hex digit into OBUF. -/
def Obligations.CaseIsIgnoredAndNeverEmitted : Prop :=
  (∀ h : List Byte, hexToBinary h = hexToBinary (h.map lowerChar)) ∧
  (∀ v < 10, hexToBinary [BitVec.ofNat 8 (0x30 + v)] = .ok (bits 4 v)) ∧
  (∀ v < 6, hexToBinary [BitVec.ofNat 8 (0x41 + v)] = .ok (bits 4 (10 + v)) ∧
    hexToBinary [BitVec.ofNat 8 (0x61 + v)] = .ok (bits 4 (10 + v))) ∧
  ∀ (i : Instr) (s t : State), exec i s = .next t →
    ∀ c ∈ t.obuf, 0x41#8 ≤ c.2 ∧ c.2 ≤ 0x46#8 → c ∈ s.obuf

/-- R108: the three codec laws. -/
def Obligations.CodecLaws : Prop :=
  (∀ h o : List Byte, hexToBinary h = .ok o → o.length = 4 * h.length) ∧
  (∀ h g o o' : List Byte, hexToBinary h = .ok o → hexToBinary g = .ok o' →
    hexToBinary (h ++ g) = .ok (o ++ o')) ∧
  ∀ h o : List Byte, hexToBinary h = .ok o →
    val o = ∑ i ∈ Finset.range h.length, nib (h.getD i 0#8) * 16 ^ (h.length - 1 - i)

/-- R106: HEX2BIN on a hex string. -/
def Obligations.Hex2binConvertsInput : Prop :=
  ∀ (b : Nat) (s : State) (h : List Byte), s.InputIs h → 4 * h.length ≤ s.caps.obufBytes →
    (∀ c ∈ h, isHex c = true) →
    ∃ t, exec (.hex2bin b) s = .next t ∧ OutputDone s t (nibbles h)

/-- R107: BIN2HEX on a binary string of whole nibbles. -/
def Obligations.Bin2hexConvertsInput : Prop :=
  ∀ (b : Nat) (s : State) (d : List Byte), s.InputIs d → d.length % 4 = 0 →
    d.length / 4 ≤ s.caps.obufBytes → (∀ c ∈ d, isBin c = true) →
    ∃ t out, exec (.bin2hex b) s = .next t ∧ IsHexOf d out ∧ OutputDone s t out

/-- The error tables of R106 and R107 (BIN2HEX's length is checked before capacity and characters). -/
def Obligations.CodecCommandErrors : Prop :=
  (∀ (b : Nat) (s : State),
    (s.caps.ibufBytes < s.ilen.toNat → exec (.hex2bin b) s = .next (s.raise .invalidArgument 0)) ∧
    (s.ilen.toNat ≤ s.caps.ibufBytes → s.caps.obufBytes < 4 * s.ilen.toNat →
      exec (.hex2bin b) s = .next (s.raise .invalidArgument 0)) ∧
    ∀ (h : List Byte) (i : Nat) (c : Byte), s.InputIs h → 4 * h.length ≤ s.caps.obufBytes →
      h[i]? = some c → isHex c = false → (∀ c' ∈ h.take i, isHex c' = true) →
      exec (.hex2bin b) s = .next (s.raise .invalidCharacter i)) ∧
  ∀ (b : Nat) (s : State),
    (s.caps.ibufBytes < s.ilen.toNat → exec (.bin2hex b) s = .next (s.raise .invalidArgument 0)) ∧
    (s.ilen.toNat ≤ s.caps.ibufBytes → s.ilen.toNat % 4 ≠ 0 →
      exec (.bin2hex b) s = .next (s.raise .invalidArgument s.ilen.toNat)) ∧
    (s.ilen.toNat ≤ s.caps.ibufBytes → s.ilen.toNat % 4 = 0 → s.caps.obufBytes < s.ilen.toNat / 4 →
      exec (.bin2hex b) s = .next (s.raise .invalidArgument 0)) ∧
    ∀ (d : List Byte) (i : Nat) (c : Byte), s.InputIs d → d.length % 4 = 0 →
      d.length / 4 ≤ s.caps.obufBytes → d[i]? = some c → isBin c = false →
      (∀ c' ∈ d.take i, isBin c' = true) →
      exec (.bin2hex b) s = .next (s.raise .invalidCharacter i)

/-! ## The checksum engine -/

/-- R120: front padding by the fewest zeros. -/
def Obligations.PadIsFewestFrontZeros : Prop :=
  ∀ (d : List Byte) (b : Nat), 0 < b →
    ∃ p, p < b ∧ pad d b = List.replicate p 0x30#8 ++ d ∧ (d.length + p) % b = 0 ∧
      (d.length % b = 0 → p = 0) ∧ ∀ q, (d.length + q) % b = 0 → p ≤ q

/-- R122: end-around carry folds once. -/
def Obligations.OcAddFoldsCarryOnce : Prop :=
  ∀ b a x : Nat, a < 2 ^ b → x < 2 ^ b →
    ocAdd b a x < 2 ^ b ∧
      ocAdd b a x = if a + x < 2 ^ b then a + x else a + x - 2 ^ b + 1

/-- R124: the closed form of the oc-sum and what follows from it, and the rule's example. -/
def Obligations.OcSumClosedForm : Prop :=
  ocSum (bits 8 0x0F ++ bits 8 0xF0) 8 = 0xFF ∧
  ∀ (d : List Byte) (b : Nat), 0 < b → d ≠ [] →
    ((∀ x ∈ blocks d b, x = 0) → ocSum d b = 0) ∧
    ((∃ x ∈ blocks d b, x ≠ 0) →
      ocSum d b = ((blocks d b).sum - 1) % (2 ^ b - 1) + 1 ∧ 1 ≤ ocSum d b ∧ ocSum d b ≤ 2 ^ b - 1) ∧
    ocSum d b % (2 ^ b - 1) = (blocks d b).sum % (2 ^ b - 1) ∧
    ∀ acc x, 1 ≤ acc → acc < 2 ^ b → x < 2 ^ b → 1 ≤ ocAdd b acc x

/-- R127: data with its own checksum verifies. -/
def Obligations.ChecksummedPayloadVerifies : Prop :=
  ∀ (d : List Byte) (b : Nat), d ≠ [] → (∀ c ∈ d, isBin c = true) → 1 ≤ b →
    ∃ c, computeChecksum d b = .ok c ∧ verifyChecksum (d ++ c) b = .ok true

/-- R128: a flipped character of a valid payload is detected for b ≥ 2, and for b = 1 is not when a `1` is left
(the rule's example among them). -/
def Obligations.SingleFlipDetection : Prop :=
  (∀ (p : List Byte) (b i : Nat) (f : Bool), verifyChecksum p b = .ok true → p[i]? = some (bitChar f) →
    (2 ≤ b → verifyChecksum (p.set i (bitChar !f)) b = .ok false) ∧
    (b = 1 → 0x31#8 ∈ p.set i (bitChar !f) →
      verifyChecksum (p.set i (bitChar !f)) b = .ok true)) ∧
  (∀ p : List Byte, 0x31#8 ∈ p → ocSum p 1 = 1) ∧
  verifyChecksum (ascii "10") 1 = .ok true ∧ verifyChecksum (ascii "11") 1 = .ok true

/-- R129: the order of the blocks of pad(d, b) does not matter. -/
def Obligations.ChecksumIgnoresBlockOrder : Prop :=
  ∀ (d : List Byte) (b : Nat) (ws vs : List (List Byte)), 1 ≤ b → d ≠ [] →
    (∀ c ∈ d, isBin c = true) → (∀ w ∈ ws, w.length = b) → ws.flatten = pad d b → ws.Perm vs →
    ocSum vs.flatten b = ocSum d b ∧ computeChecksum vs.flatten b = computeChecksum d b

/-- R130: CKCOMP on a binary string, in both forms. -/
def Obligations.CkcompWritesChecksum : Prop :=
  ∀ (xf : Bool) (b : Nat) (s : State) (d : List Byte), s.InputIs d → d ≠ [] →
    BlockSizeOk true xf b → (if xf then b / 4 else b) ≤ s.caps.obufBytes →
    (∀ c ∈ d, isBin c = true) →
    ∃ t out, exec (.ckcomp xf b) s = .next t ∧ IsChecksum xf b d out ∧ OutputDone s t out

/-- R131: CKVERIFY of a payload that verifies, and of one that does not. -/
def Obligations.CkverifyReportsValidity : Prop :=
  ∀ (b : Nat) (s : State) (p : List Byte), s.InputIs p → p ≠ [] → b ≠ 0 →
    (∀ c ∈ p, isBin c = true) →
    (ocSum p b = 2 ^ b - 1 → exec (.ckverify b) s = .next
      { s with valid := true, err := .ok, errpos := 0#32, busy := false }) ∧
    (ocSum p b ≠ 2 ^ b - 1 → exec (.ckverify b) s = .next
      { s with valid := false, err := .error .checksumMismatch, errpos := 0#32, busy := false })

/-- The error tables of R130 and R131 but for ChecksumMismatch, in the order of their pseudocode. -/
def Obligations.ChecksumCommandErrors : Prop :=
  (∀ (xf : Bool) (b : Nat) (s : State),
    (s.caps.ibufBytes < s.ilen.toNat ∨ b = 0 ∨ s.ilen.toNat = 0 ∨ (xf = true ∧ b % 4 ≠ 0) ∨
        s.caps.obufBytes < (if xf then b / 4 else b) →
      exec (.ckcomp xf b) s = .next (s.raise .invalidArgument 0)) ∧
    ∀ (d : List Byte) (i : Nat) (c : Byte), s.InputIs d → BlockSizeOk true xf b →
      (if xf then b / 4 else b) ≤ s.caps.obufBytes → d[i]? = some c → isBin c = false →
      (∀ c' ∈ d.take i, isBin c' = true) →
      exec (.ckcomp xf b) s = .next (s.raise .invalidCharacter i)) ∧
  ∀ (b : Nat) (s : State),
    (s.caps.ibufBytes < s.ilen.toNat ∨ b = 0 ∨ s.ilen.toNat = 0 →
      exec (.ckverify b) s = .next (s.raise .invalidArgument 0)) ∧
    ∀ (d : List Byte) (i : Nat) (c : Byte), s.InputIs d → b ≠ 0 → d[i]? = some c →
      isBin c = false → (∀ c' ∈ d.take i, isBin c' = true) →
      exec (.ckverify b) s = .next (s.raise .invalidCharacter i)

/-! ## The frame codec -/

/-- R163: the pixel round trip, without and with a trailer. -/
def Obligations.PixelRoundTrip : Prop :=
  ∀ (fb : Bool) (row col : Fin 16) (v : Rgb), ChannelsFit fb v →
    ∃ r, encodePixel fb row col v = .ok r ∧
      decodeRecord fb r 0 = .ok ⟨row, col, v, 10, 0, 11⟩ ∧
      ∀ (b : Nat) (xf : Bool), BlockSizeOk true xf b →
        ∃ r', encodeChecksum r b xf = .ok r' ∧
          decodeRecord fb r' 0 =
            .ok ⟨row, col, v, 10, if xf then b / 4 else b, 11 + if xf then b / 4 else b⟩

/-- R160 (its last sentence): the parts of an encoded record verify. -/
def Obligations.EncodedRecordVerifies : Prop :=
  ∀ (fb xf : Bool) (b : Nat) (row col : Fin 16) (v : Rgb) (r r' : List Byte),
    encodePixel fb row col v = .ok r → encodeChecksum r b xf = .ok r' →
    verifyRecord (r'.take 10) ((r'.drop 10).take (if xf then b / 4 else b)) b xf 10 = .ok true

/-- R169: PIXENC of a pixel the layout can hold, every combination of its flags. -/
def Obligations.PixencWritesRecord : Prop :=
  ∀ (ck xf ap tm : Bool) (b : Nat) (s : State), s.OutputOk → s.pixRow.toNat < 16 →
    s.pixCol.toNat < 16 → ChannelsFit s.fb16 s.pixRgb → BlockSizeOk ck xf b →
    (if ap then s.olen.toNat else 0) + 11 + (if ck then (if xf then b / 4 else b) else 0) +
      (if tm then 1 else 0) ≤ s.caps.obufBytes →
    ∃ t prior tr, exec (.pixenc ck xf ap tm b) s = .next t ∧
      (ap = false → prior = []) ∧ (ap = true → s.output = some prior) ∧ (ck = false → tr = []) ∧
      (ck = true →
        IsChecksum xf b (nibbles (pixelText s.fb16 s.pixRow.toNat s.pixCol.toNat s.pixRgb)) tr) ∧
      OutputDone s t
        (prior ++ pixelText s.fb16 s.pixRow.toNat s.pixCol.toNat s.pixRgb ++ tr ++
          [Config.pixelSep] ++ if tm then [Config.frameTerm] else [])

/-- R169's error table, in the order of its pseudocode. -/
def Obligations.PixencErrors : Prop :=
  ∀ (ck xf ap tm : Bool) (b : Nat) (s : State),
    (¬ BlockSizeOk ck xf b ∨ s.caps.obufBytes <
        (if ap then s.olen.toNat else 0) + 11 + (if ck then (if xf then b / 4 else b) else 0) +
          (if tm then 1 else 0) →
      exec (.pixenc ck xf ap tm b) s = .next (s.raise .invalidArgument 0)) ∧
    (BlockSizeOk ck xf b →
      (if ap then s.olen.toNat else 0) + 11 + (if ck then (if xf then b / 4 else b) else 0) +
        (if tm then 1 else 0) ≤ s.caps.obufBytes →
      (16 ≤ s.pixRow.toNat →
        exec (.pixenc ck xf ap tm b) s = .next (s.raise .invalidArgument 0)) ∧
      (s.pixRow.toNat < 16 → 16 ≤ s.pixCol.toNat →
        exec (.pixenc ck xf ap tm b) s = .next (s.raise .invalidArgument 1)) ∧
      (s.pixRow.toNat < 16 → s.pixCol.toNat < 16 → s.fb16 = false →
        (99 < s.pixRgb.red.toNat →
          exec (.pixenc ck xf ap tm b) s = .next (s.raise .invalidArgument 2)) ∧
        (s.pixRgb.red.toNat ≤ 99 → 99 < s.pixRgb.green.toNat →
          exec (.pixenc ck xf ap tm b) s = .next (s.raise .invalidArgument 3)) ∧
        (s.pixRgb.red.toNat ≤ 99 → s.pixRgb.green.toNat ≤ 99 → 99 < s.pixRgb.blue.toNat →
          exec (.pixenc ck xf ap tm b) s = .next (s.raise .invalidArgument 4))))

/-- R170: RECDEC without VF of a record at IPTR, whatever its trailer. -/
def Obligations.RecdecSurfacesRecord : Prop :=
  ∀ (xf : Bool) (b : Nat) (s : State) (r : WireRecord) (rest : List Byte), r.Spells s.fb16 →
    s.RestIs (r.text ++ rest) →
    exec (.recdec xf false b) s = .next
      { s with
        pixRow := BitVec.ofNat 8 r.row.val, pixCol := BitVec.ofNat 8 r.col.val, pixRgb := r.rgb
        toff := BitVec.ofNat 16 (s.iptr.toNat + 10), tlen := BitVec.ofNat 16 r.trail.length
        iptr := BitVec.ofNat 32 (s.iptr.toNat + r.text.length)
        err := .ok, errpos := 0#32, valid := false, busy := false }

/-- R170, R160: RECDEC with VF of a record with a well-formed trailer: VALID = 1 when the ten characters'
expansion followed by the trailer verifies, else ChecksumMismatch with the values surfaced all the same. -/
def Obligations.RecdecVerifiesRecord : Prop :=
  ∀ (xf : Bool) (b : Nat) (s : State) (r : WireRecord) (rest d : List Byte), r.Spells s.fb16 →
    s.RestIs (r.text ++ rest) → BlockSizeOk true xf b →
    r.trail.length = (if xf then b / 4 else b) →
    (∀ c ∈ r.trail, (if xf then isHex c else isBin c) = true) →
    d = nibbles r.fields ++ (if xf then nibbles r.trail else r.trail) →
    (ocSum d b = 2 ^ b - 1 → exec (.recdec xf true b) s = .next
      { s with
        pixRow := BitVec.ofNat 8 r.row.val, pixCol := BitVec.ofNat 8 r.col.val, pixRgb := r.rgb
        toff := BitVec.ofNat 16 (s.iptr.toNat + 10), tlen := BitVec.ofNat 16 r.trail.length
        iptr := BitVec.ofNat 32 (s.iptr.toNat + r.text.length)
        err := .ok, errpos := 0#32, valid := true, busy := false }) ∧
    (ocSum d b ≠ 2 ^ b - 1 → exec (.recdec xf true b) s = .next
      { s with
        pixRow := BitVec.ofNat 8 r.row.val, pixCol := BitVec.ofNat 8 r.col.val, pixRgb := r.rgb
        toff := BitVec.ofNat 16 (s.iptr.toNat + 10), tlen := BitVec.ofNat 16 r.trail.length
        iptr := BitVec.ofNat 32 (s.iptr.toNat + r.text.length)
        err := .error .checksumMismatch, errpos := s.iptr, valid := false, busy := false })

/-- R170's argument errors. -/
def Obligations.RecdecArgumentErrors : Prop :=
  ∀ (xf vf : Bool) (b : Nat) (s : State),
    (s.caps.ibufBytes < s.ilen.toNat →
      exec (.recdec xf vf b) s = .next (s.raise .invalidArgument 0)) ∧
    (s.ilen.toNat ≤ s.caps.ibufBytes →
      s.ilen.toNat < s.iptr.toNat ∨ ¬ BlockSizeOk vf xf b →
      exec (.recdec xf vf b) s = .next (s.raise .invalidArgument s.iptr.toNat))

/-- R158, R170: the errors of the record at IPTR, the first that applies, with PIXPOS, PIXRGB, TRAIL and IPTR
unchanged. -/
def Obligations.RecdecRecordErrors : Prop :=
  ∀ (xf vf : Bool) (b : Nat) (s : State) (rest : List Byte), s.RestIs rest → BlockSizeOk vf xf b →
    ((∀ k : Nat, rest[k]? = some Config.pixelSep → Config.frameTerm ∈ rest.take k) →
      exec (.recdec xf vf b) s = .next (s.raise .truncatedFrame s.iptr.toNat)) ∧
    ∀ a z : List Byte, rest = a ++ Config.pixelSep :: z → NoDelimiter a →
      (a.length < 10 →
        exec (.recdec xf vf b) s = .next (s.raise .truncatedFrame s.iptr.toNat)) ∧
      (∀ (j : Nat) (c : Byte), 10 ≤ a.length → j < 10 → a[j]? = some c →
        fieldChar s.fb16 c = false → (∀ c' ∈ a.take j, fieldChar s.fb16 c' = true) →
        exec (.recdec xf vf b) s = .next (s.raise .invalidCharacter (s.iptr.toNat + j))) ∧
      (10 ≤ a.length → (∀ c ∈ a.take 10, fieldChar s.fb16 c = true) →
        (16 ≤ recordField s.fb16 a 0 →
          exec (.recdec xf vf b) s = .next (s.raise .invalidArgument s.iptr.toNat)) ∧
        (recordField s.fb16 a 0 < 16 → 16 ≤ recordField s.fb16 a 1 →
          exec (.recdec xf vf b) s = .next (s.raise .invalidArgument (s.iptr.toNat + 2))))

/-- R160, R170: the errors of the trailer VF asks to verify. -/
def Obligations.RecdecTrailerErrors : Prop :=
  ∀ (xf : Bool) (b : Nat) (s : State) (r : WireRecord) (rest : List Byte), r.Spells s.fb16 →
    s.RestIs (r.text ++ rest) → BlockSizeOk true xf b →
    (r.trail.length ≠ (if xf then b / 4 else b) →
      exec (.recdec xf true b) s = .next (s.raise .invalidArgument (s.iptr.toNat + 10))) ∧
    ∀ (j : Nat) (c : Byte), r.trail.length = (if xf then b / 4 else b) → r.trail[j]? = some c →
      (if xf then isHex c else isBin c) = false →
      (∀ c' ∈ r.trail.take j, (if xf then isHex c' else isBin c') = true) →
      exec (.recdec xf true b) s = .next (s.raise .invalidCharacter (s.iptr.toNat + 10 + j))

/-- R161, R171: FRAMEAPPLY of a frame of decodable records, ended by the terminator (`fin`) or by the end of
input. -/
def Obligations.FrameapplyAppliesFrame : Prop :=
  ∀ (b : Nat) (s : State) (rs : List WireRecord) (fin : Bool) (text rest : List Byte),
    s.FrameIs rs fin text rest →
    exec (.frameapply b) s = .next
      { s with
        matrix := writeRecords s.matrix rs
        reccnt := BitVec.ofNat 32 rs.length
        iptr := BitVec.ofNat 32 (s.iptr.toNat + text.length)
        err := .ok, errpos := 0#32, valid := false, busy := false }

/-- R161, R171, R195: FRAMEAPPLY stops at the first record it cannot decode; the earlier ones stay applied. The
argument errors leave everything else unchanged. -/
def Obligations.FrameapplyStopsAtBadRecord : Prop :=
  ∀ (b : Nat) (s : State),
    (s.caps.ibufBytes < s.ilen.toNat →
      exec (.frameapply b) s = .next (s.raise .invalidArgument 0)) ∧
    (s.ilen.toNat ≤ s.caps.ibufBytes → s.ilen.toNat < s.iptr.toNat →
      exec (.frameapply b) s = .next (s.raise .invalidArgument s.iptr.toNat)) ∧
    ∀ (rs : List WireRecord) (bad : List Byte) (e : EngineError) (q : Nat),
      (∀ r ∈ rs, r.Spells s.fb16) → s.RestIs (rs.flatMap WireRecord.text ++ bad) → bad ≠ [] →
      bad.head? ≠ some Config.frameTerm → q = s.iptr.toNat + (rs.flatMap WireRecord.text).length →
      decodeAt s.fb16 q bad = .error e →
      exec (.frameapply b) s = .next
        { s with
          matrix := writeRecords s.matrix rs
          reccnt := BitVec.ofNat 32 rs.length
          iptr := BitVec.ofNat 32 q
          err := .error e.err, errpos := BitVec.ofNat 32 e.pos, valid := false, busy := false }

/-- R164: of a frame's records for one cell the last one stays; a cell no record names is unchanged. -/
def Obligations.LastRecordOfCellWins : Prop :=
  ∀ (b : Nat) (s : State) (rs : List WireRecord) (fin : Bool) (text rest : List Byte),
    s.FrameIs rs fin text rest →
    ∃ t, exec (.frameapply b) s = .next t ∧ ∀ row col : Fin 16,
      ((∀ r ∈ rs, ¬ (r.row = row ∧ r.col = col)) →
        matrixRead t.matrix row col = matrixRead s.matrix row col) ∧
      ∀ (pre post : List WireRecord) (w : WireRecord), rs = pre ++ w :: post → w.row = row →
        w.col = col → (∀ r ∈ post, ¬ (r.row = row ∧ r.col = col)) →
        matrixRead t.matrix row col = w.rgb

/-- R157, R172: MATRIXENC of a matrix the layout can hold: 256 records in row-major order and the
terminator. -/
def Obligations.MatrixencWritesFrame : Prop :=
  ∀ (ck xf : Bool) (b : Nat) (s : State),
    (∀ r c, ChannelsFit s.fb16 (matrixRead s.matrix r c)) → BlockSizeOk ck xf b →
    256 * (11 + (if ck then (if xf then b / 4 else b) else 0)) + 1 ≤ s.caps.obufBytes →
    ∃ (t : State) (recs : List (List Byte)), exec (.matrixenc ck xf b) s = .next t ∧ recs.length = 256 ∧
      (∀ r c : Fin 16, ∃ tr,
        recs[16 * r.val + c.val]? =
          some (pixelText s.fb16 r.val c.val (matrixRead s.matrix r c) ++ tr ++ [Config.pixelSep]) ∧
        (ck = false → tr = []) ∧
        (ck = true →
          IsChecksum xf b (nibbles (pixelText s.fb16 r.val c.val (matrixRead s.matrix r c))) tr)) ∧
      OutputDone s t (recs.flatten ++ [Config.frameTerm])

/-- R172's error table: arguments and capacity, then the first cell in row-major order that cannot be
encoded. -/
def Obligations.MatrixencErrors : Prop :=
  ∀ (ck xf : Bool) (b : Nat) (s : State),
    (¬ BlockSizeOk ck xf b ∨
        s.caps.obufBytes < 256 * (11 + (if ck then (if xf then b / 4 else b) else 0)) + 1 →
      exec (.matrixenc ck xf b) s = .next (s.raise .invalidArgument 0)) ∧
    ∀ r c : Fin 16, BlockSizeOk ck xf b →
      256 * (11 + (if ck then (if xf then b / 4 else b) else 0)) + 1 ≤ s.caps.obufBytes →
      ¬ ChannelsFit s.fb16 (matrixRead s.matrix r c) →
      (∀ r' c' : Fin 16, 16 * r'.val + c'.val < 16 * r.val + c.val →
        ChannelsFit s.fb16 (matrixRead s.matrix r' c')) →
      exec (.matrixenc ck xf b) s = .next (s.raise .invalidArgument (16 * r.val + c.val))

/-- R86: the combinations of flags that have no effect. -/
def Obligations.XfAloneHasNoEffect : Prop :=
  ∀ (b : Nat) (s : State),
    (∀ ap tm, exec (.pixenc false true ap tm b) s = exec (.pixenc false false ap tm b) s) ∧
    exec (.matrixenc false true b) s = exec (.matrixenc false false b) s ∧
    exec (.recdec true false b) s = exec (.recdec false false b) s

/-! ## The host bus -/

/-- R213: in the window from a CMD write until STATUS is read with BUSY = 0, every host access but a 32-bit read
of STATUS is a violation; that read returns STATUS and ends the window when BUSY is 0. That the window lasts until
that read is log entry 16 (DEDUCED); that an access which breaks another rule too is named for the window is log
entry 7 (DESIGN CHOICE). -/
def Obligations.BusyWindowAllowsOnlyStatus : Prop :=
  ∀ (s : State) (x : Access), s.busy = true ∨ s.awaiting = true →
    (x ≠ .read32 Reg.status.addr → hostAccess s x = .error .hostWhileBusy) ∧
    hostAccess s (.read32 Reg.status.addr) = .ok
      { s with
        hostReads := s.readReg .status :: s.hostReads
        awaiting := if s.busy then s.awaiting else false } ∧
    (s.readReg .status).getLsbD 0 = s.busy

/-- R63: a host write to a read-only register, to the OBUF window or to the matrix window is a violation. That it
is named as R213's violation first, and as this one also where it is misaligned, narrow or runs past OBUF_BYTES, is
log entry 7 (DESIGN CHOICE); that R213's window lasts until STATUS is read is log entry 16 (DEDUCED). -/
def Obligations.ReadOnlyWriteFaults : Prop :=
  ∀ (s : State) (w : Word) (v : Byte) (x : Access),
    (∃ r ∈ [Reg.status, .olen, .errpos, .reccnt, .trail], x = .write32 r.addr w) ∨
      (∃ i < s.caps.obufBytes, x = .write32 (BitVec.ofNat 18 (0x20000 + i)) w ∨
        x = .write8 (BitVec.ofNat 18 (0x20000 + i)) v) ∨
      (∃ i < 0x400, x = .write32 (BitVec.ofNat 18 (0x30000 + i)) w ∨
        x = .write8 (BitVec.ofNat 18 (0x30000 + i)) v) →
    hostAccess s x =
      .error (if s.busy = true ∨ s.awaiting = true then .hostWhileBusy else .readOnlyWrite)

/-- R62: the accesses of a width or alignment no region takes. Which violation is named, at a reserved address
among them, is log entry 7 (DESIGN CHOICE). -/
def Obligations.WidthAndAlignmentFault : Prop :=
  ∀ (s : State) (v : Byte) (w : Word), s.busy = false → s.awaiting = false →
    (∀ a, hostAccess s (.otherWidth a) = .error .accessWidth) ∧
    (∀ i < 0x2C, hostAccess s (.read8 (BitVec.ofNat 18 i)) = .error .accessWidth ∧
      hostAccess s (.write8 (BitVec.ofNat 18 i) v) = .error .accessWidth) ∧
    (∀ i < 0x2C, i % 4 ≠ 0 → hostAccess s (.read32 (BitVec.ofNat 18 i)) = .error .misaligned ∧
      hostAccess s (.write32 (BitVec.ofNat 18 i) w) = .error .misaligned) ∧
    (∀ i < s.caps.ibufBytes, i % 4 ≠ 0 →
      hostAccess s (.read32 (BitVec.ofNat 18 (0x10000 + i))) = .error .misaligned ∧
      hostAccess s (.write32 (BitVec.ofNat 18 (0x10000 + i)) w) = .error .misaligned) ∧
    (∀ i < s.caps.obufBytes, i % 4 ≠ 0 →
      hostAccess s (.read32 (BitVec.ofNat 18 (0x20000 + i))) = .error .misaligned) ∧
    ∀ i < 0x400, hostAccess s (.read8 (BitVec.ofNat 18 (0x30000 + i))) = .error .accessWidth ∧
      (i % 4 ≠ 0 → hostAccess s (.read32 (BitVec.ofNat 18 (0x30000 + i))) = .error .misaligned)

/-- R22, R60, R61: the addresses outside the registers, the buffers' bytes and the matrix window; and the aligned
32-bit accesses that begin on a buffer's last bytes and run past its capacity, named so by log entry 7 (DESIGN
CHOICE), as is that a misaligned access to such an address is named for the address. -/
def Obligations.ReservedAddressFaults : Prop :=
  (∀ (s : State) (n : Nat) (v : Byte) (w : Word), s.busy = false → s.awaiting = false →
    (0x2C ≤ n ∧ n < 0x10000) ∨ (0x10000 + s.caps.ibufBytes ≤ n ∧ n < 0x20000) ∨
      (0x20000 + s.caps.obufBytes ≤ n ∧ n < 0x30000) ∨ (0x30400 ≤ n ∧ n < 0x40000) →
    hostAccess s (.read8 (BitVec.ofNat 18 n)) = .error .reservedAddress ∧
    hostAccess s (.read32 (BitVec.ofNat 18 n)) = .error .reservedAddress ∧
    hostAccess s (.write8 (BitVec.ofNat 18 n) v) = .error .reservedAddress ∧
    hostAccess s (.write32 (BitVec.ofNat 18 n) w) = .error .reservedAddress) ∧
  ∀ (s : State) (i : Nat) (w : Word), s.busy = false → s.awaiting = false → i % 4 = 0 →
    (i < s.caps.ibufBytes → s.caps.ibufBytes ≤ i + 3 →
      hostAccess s (.read32 (BitVec.ofNat 18 (0x10000 + i))) = .error .reservedAddress ∧
      hostAccess s (.write32 (BitVec.ofNat 18 (0x10000 + i)) w) = .error .reservedAddress) ∧
    (i < s.caps.obufBytes → s.caps.obufBytes ≤ i + 3 →
      hostAccess s (.read32 (BitVec.ofNat 18 (0x20000 + i))) = .error .reservedAddress)

/-- R66: a 32-bit write to the IBUF window is its four little-endian bytes, and a 32-bit read assembles them
again; no other byte changes. -/
def Obligations.InputWordIsLittleEndian : Prop :=
  ∀ (s : State) (i : Nat) (w : Word), s.busy = false → s.awaiting = false → i % 4 = 0 →
    i + 3 < s.caps.ibufBytes →
    ∃ t, hostAccess s (.write32 (BitVec.ofNat 18 (0x10000 + i)) w) = .ok t ∧
      t = { s with ibuf := t.ibuf } ∧
      t.ibuf.read i = some (w.extractLsb' 0 8) ∧ t.ibuf.read (i + 1) = some (w.extractLsb' 8 8) ∧
      t.ibuf.read (i + 2) = some (w.extractLsb' 16 8) ∧
      t.ibuf.read (i + 3) = some (w.extractLsb' 24 8) ∧
      (∀ a, a < i ∨ i + 3 < a → t.ibuf.read a = s.ibuf.read a) ∧
      busRead32 t (BitVec.ofNat 18 (0x10000 + i)) = .ok w

/-- R41, R62: an 8-bit write of an IBUF byte sets that byte and its mark, and reads back. -/
def Obligations.InputByteWriteReadsBack : Prop :=
  ∀ (s : State) (i : Nat) (v : Byte), s.busy = false → s.awaiting = false → i < s.caps.ibufBytes →
    ∃ t, hostAccess s (.write8 (BitVec.ofNat 18 (0x10000 + i)) v) = .ok t ∧
      t = { s with ibuf := t.ibuf } ∧ t.ibuf.read i = some v ∧
      (∀ a ≠ i, t.ibuf.read a = s.ibuf.read a) ∧
      busRead8 t (BitVec.ofNat 18 (0x10000 + i)) = .ok v

/-- R23, R25, R30 to R38: what a write of each operand register stores, by field, read back with reserved bits 0;
where each field of a register stands in the word a read returns; R26, R29: the STATUS word, in any state, with the
six codes of ERR. -/
def Obligations.RegisterReadback : Prop :=
  (∀ (s : State) (w : Word), s.busy = false → s.awaiting = false →
    ∀ rm ∈ [(Reg.ctrl, 0x00000001#32), (.ilen, 0xFFFFFFFF#32), (.iptr, 0xFFFFFFFF#32),
        (.pixpos, 0x0000FFFF#32), (.pixrgb, 0x00FFFFFF#32)],
      ∃ t, hostAccess s (.write32 rm.1.addr w) = .ok t ∧ busRead32 t rm.1.addr = .ok (w &&& rm.2) ∧
        ∀ r ≠ rm.1, t.readReg r = s.readReg r) ∧
  (∀ (s : State) (w : Word), s.busy = false → s.awaiting = false →
    hostAccess s (.write32 0x008#18 w) = .ok { s with fb16 := w.getLsbD 0 } ∧
    hostAccess s (.write32 0x00C#18 w) = .ok { s with ilen := w } ∧
    hostAccess s (.write32 0x010#18 w) = .ok { s with iptr := w } ∧
    hostAccess s (.write32 0x018#18 w) =
      .ok { s with pixRow := w.extractLsb' 0 8, pixCol := w.extractLsb' 8 8 } ∧
    hostAccess s (.write32 0x01C#18 w) =
      .ok { s with pixRgb := ⟨w.extractLsb' 0 8, w.extractLsb' 8 8, w.extractLsb' 16 8⟩ }) ∧
  (∀ s : State, s.busy = false → s.awaiting = false →
    busRead32 s 0x000#18 = .ok s.cmd ∧
    busRead32 s 0x008#18 = .ok (if s.fb16 then 1#32 else 0#32) ∧
    busRead32 s 0x00C#18 = .ok s.ilen ∧ busRead32 s 0x010#18 = .ok s.iptr ∧
    busRead32 s 0x014#18 = .ok s.olen ∧
    busRead32 s 0x018#18 = .ok (s.pixCol.setWidth 32 <<< 8 ||| s.pixRow.setWidth 32) ∧
    busRead32 s 0x01C#18 = .ok (s.pixRgb.blue.setWidth 32 <<< 16 |||
      s.pixRgb.green.setWidth 32 <<< 8 ||| s.pixRgb.red.setWidth 32) ∧
    busRead32 s 0x020#18 = .ok s.errpos ∧ busRead32 s 0x024#18 = .ok s.reccnt ∧
    busRead32 s 0x028#18 = .ok (s.tlen.setWidth 32 <<< 16 ||| s.toff.setWidth 32)) ∧
  ∀ (s : State) (code : Nat),
    (s.err, code) ∈ [(StatusErr.ok, 0), (.error .invalidCharacter, 1), (.error .invalidArgument, 2),
      (.error .truncatedFrame, 3), (.error .checksumMismatch, 4), (.error .illegalCommand, 5)] →
    busRead32 s 0x004#18 = .ok
      (BitVec.ofNat 32 (16 * code + (if s.valid then 2 else 0) + if s.busy then 1 else 0))

/-- R42, R64, R68, R214: the matrix window's word of a cell, read by the host and by the consumer, and the
consumer's read while BUSY = 1, a violation. -/
def Obligations.MatrixWindowReadsCell : Prop :=
  ∀ (s : State) (r c : Fin 16) (v : Rgb) (w : Word) (ts : List Turn), matrixRead s.matrix r c = v →
    w = v.blue.setWidth 32 <<< 16 ||| v.green.setWidth 32 <<< 8 ||| v.red.setWidth 32 →
    (s.busy = false → s.awaiting = false →
      hostAccess s (.read32 (BitVec.ofNat 18 (0x30000 + 4 * (16 * r.val + c.val)))) =
        .ok { s with hostReads := w :: s.hostReads }) ∧
    (s.turns = .consumer r c :: ts → s.busy = false →
      step s = .next { s with turns := ts, consumerReads := w :: s.consumerReads }) ∧
    (s.turns = .consumer r c :: ts → s.busy = true → step s = .fault .consumerWhileBusy)

/-- R69: no read has a side effect on the block; every allowed read is idempotent. -/
def Obligations.ReadsHaveNoSideEffect : Prop :=
  ∀ (s t : State) (a : Addr),
    (hostAccess s (.read8 a) = .ok t →
      t = { s with hostReads := t.hostReads } ∧ busRead8 t a = busRead8 s a) ∧
    (hostAccess s (.read32 a) = .ok t →
      t = { s with hostReads := t.hostReads, awaiting := t.awaiting } ∧
        busRead32 t a = busRead32 s a)

/-- R211: the reads of bytes that hold no value: a host read, of either width, of a byte of IBUF nothing has
written or of OBUF at index OLEN or beyond, and a command's read of an unwritten byte. HEX2BIN, BIN2HEX, CKCOMP and
CKVERIFY read all of IBUF[0:ILEN), RECDEC and FRAMEAPPLY all of IBUF[IPTR:ILEN) (R85); that a byte the pseudocode
would not come to is read too is log entries 5 and 6 (DEDUCED, safe). -/
def Obligations.ReadOfNoValueFaults : Prop :=
  (∀ (s : State) (i : Nat), s.busy = false → s.awaiting = false →
    (i < s.caps.ibufBytes → s.ibuf.read i = none →
      hostAccess s (.read8 (BitVec.ofNat 18 (0x10000 + i))) = .error .hostReadUnwritten) ∧
    (i < s.caps.obufBytes → s.olen.toNat ≤ i →
      hostAccess s (.read8 (BitVec.ofNat 18 (0x20000 + i))) = .error .hostReadBeyondOlen) ∧
    (∀ k < 4, i % 4 = 0 → i + 3 < s.caps.ibufBytes → s.ibuf.read (i + k) = none →
      hostAccess s (.read32 (BitVec.ofNat 18 (0x10000 + i))) = .error .hostReadUnwritten) ∧
    (i % 4 = 0 → i + 3 < s.caps.obufBytes → s.olen.toNat ≤ i + 3 →
      hostAccess s (.read32 (BitVec.ofNat 18 (0x20000 + i))) = .error .hostReadBeyondOlen)) ∧
  (∀ (s : State) (i b : Nat), i < s.ilen.toNat → s.ilen.toNat ≤ s.caps.ibufBytes →
    s.ibuf.read i = none →
    (4 * s.ilen.toNat ≤ s.caps.obufBytes → exec (.hex2bin b) s = .fault .engineReadUnwritten) ∧
    (s.ilen.toNat % 4 = 0 → s.ilen.toNat / 4 ≤ s.caps.obufBytes →
      exec (.bin2hex b) s = .fault .engineReadUnwritten) ∧
    (∀ xf, BlockSizeOk true xf b → (if xf then b / 4 else b) ≤ s.caps.obufBytes →
      exec (.ckcomp xf b) s = .fault .engineReadUnwritten) ∧
    (b ≠ 0 → exec (.ckverify b) s = .fault .engineReadUnwritten)) ∧
  ∀ (s : State) (b i : Nat), s.iptr.toNat ≤ i → i < s.ilen.toNat →
    s.ilen.toNat ≤ s.caps.ibufBytes → s.ibuf.read i = none →
    (∀ xf vf, BlockSizeOk vf xf b → exec (.recdec xf vf b) s = .fault .engineReadUnwritten) ∧
    exec (.frameapply b) s = .fault .engineReadUnwritten

/-- R33, R42, R61: the host reads OBUF[0:OLEN) byte by byte, and little-endian words of it (R66). -/
def Obligations.OutputReadsBack : Prop :=
  ∀ (s : State) (out : List Byte), s.busy = false → s.awaiting = false → s.OutputOk →
    s.output = some out →
    (∀ i v, out[i]? = some v → busRead8 s (BitVec.ofNat 18 (0x20000 + i)) = .ok v) ∧
    ∀ (i : Nat) (b0 b1 b2 b3 : Byte), i % 4 = 0 → (out.drop i).take 4 = [b0, b1, b2, b3] →
      busRead32 s (BitVec.ofNat 18 (0x20000 + i)) =
        .ok (b0.setWidth 32 ||| b1.setWidth 32 <<< 8 ||| b2.setWidth 32 <<< 16 |||
          b3.setWidth 32 <<< 24)

/-- R90, R64, R199: the host's turn runs its next statement: an access that is allowed has its effect, one that is a
violation ends the run as a fault; a POLL that reads BUSY = 1 stays, one that reads BUSY = 0 is done. That the host
moves when its turn is scheduled, or with none scheduled while BUSY = 0, is the model's (log entry 2, DESIGN CHOICE);
that a violation ends the run, where R64 and R199 say that a fault is recorded, is log entry 18 (DEDUCED); the window a
POLL closes is log entry 16's (DEDUCED). -/
def Obligations.HostTurnRunsStatement : Prop :=
  ∀ (s : State) (ts : List Turn) (rest : List HostOp),
    s.turns = .host :: ts ∨ (s.turns = [] ∧ ts = [] ∧ s.busy = false) →
    (∀ x : Access, s.host = .access x :: rest →
      (∀ t, hostAccess s x = .ok t → step s = .next { t with host := rest, turns := ts }) ∧
      ∀ f, hostAccess s x = .error f → ∀ n, core.run (n + 1) s = .fault f) ∧
    (s.host = .poll :: rest →
      (s.busy = true → step s = .next { s with turns := ts, hostReads := s.statusWord :: s.hostReads }) ∧
      (s.busy = false → step s = .next
        { s with
          turns := ts, host := rest, awaiting := false, hostReads := s.statusWord :: s.hostReads }))
end

