-- ==== Sys2Proof/Laws/State.lean ====
section
/-!
SUPPORT. One lemma per field of `State` and per update of it, so that no later proof unfolds a record update.
-/

namespace Sys2Proof.Machine

/-! ## issue: CMD is written (R21) -/

section

variable (s : State) (w : Word)

@[simp] theorem State.issue_caps : (s.issue w).caps = s.caps := rfl
@[simp] theorem State.issue_cmd : (s.issue w).cmd = w := rfl
@[simp] theorem State.issue_pcmd : (s.issue w).pcmd = w := rfl
@[simp] theorem State.issue_busy : (s.issue w).busy = true := rfl
@[simp] theorem State.issue_valid : (s.issue w).valid = s.valid := rfl
@[simp] theorem State.issue_err : (s.issue w).err = s.err := rfl
@[simp] theorem State.issue_fb16 : (s.issue w).fb16 = s.fb16 := rfl
@[simp] theorem State.issue_ilen : (s.issue w).ilen = s.ilen := rfl
@[simp] theorem State.issue_iptr : (s.issue w).iptr = s.iptr := rfl
@[simp] theorem State.issue_olen : (s.issue w).olen = s.olen := rfl
@[simp] theorem State.issue_pixRow : (s.issue w).pixRow = s.pixRow := rfl
@[simp] theorem State.issue_pixCol : (s.issue w).pixCol = s.pixCol := rfl
@[simp] theorem State.issue_pixRgb : (s.issue w).pixRgb = s.pixRgb := rfl
@[simp] theorem State.issue_errpos : (s.issue w).errpos = s.errpos := rfl
@[simp] theorem State.issue_reccnt : (s.issue w).reccnt = s.reccnt := rfl
@[simp] theorem State.issue_toff : (s.issue w).toff = s.toff := rfl
@[simp] theorem State.issue_tlen : (s.issue w).tlen = s.tlen := rfl
@[simp] theorem State.issue_ibuf : (s.issue w).ibuf = s.ibuf := rfl
@[simp] theorem State.issue_obuf : (s.issue w).obuf = s.obuf := rfl
@[simp] theorem State.issue_matrix : (s.issue w).matrix = s.matrix := rfl
@[simp] theorem State.issue_awaiting : (s.issue w).awaiting = true := rfl
@[simp] theorem State.issue_host : (s.issue w).host = s.host := rfl
@[simp] theorem State.issue_turns : (s.issue w).turns = s.turns := rfl
@[simp] theorem State.issue_hostReads : (s.issue w).hostReads = s.hostReads := rfl
@[simp] theorem State.issue_consumerReads : (s.issue w).consumerReads = s.consumerReads := rfl

end

/-! ## complete: a command completes (R194) -/

section

variable (s : State) (v : Bool)

@[simp] theorem State.complete_caps : (s.complete v).caps = s.caps := rfl
@[simp] theorem State.complete_cmd : (s.complete v).cmd = s.cmd := rfl
@[simp] theorem State.complete_pcmd : (s.complete v).pcmd = s.pcmd := rfl
@[simp] theorem State.complete_busy : (s.complete v).busy = false := rfl
@[simp] theorem State.complete_valid : (s.complete v).valid = v := rfl
@[simp] theorem State.complete_err : (s.complete v).err = .ok := rfl
@[simp] theorem State.complete_fb16 : (s.complete v).fb16 = s.fb16 := rfl
@[simp] theorem State.complete_ilen : (s.complete v).ilen = s.ilen := rfl
@[simp] theorem State.complete_iptr : (s.complete v).iptr = s.iptr := rfl
@[simp] theorem State.complete_olen : (s.complete v).olen = s.olen := rfl
@[simp] theorem State.complete_pixRow : (s.complete v).pixRow = s.pixRow := rfl
@[simp] theorem State.complete_pixCol : (s.complete v).pixCol = s.pixCol := rfl
@[simp] theorem State.complete_pixRgb : (s.complete v).pixRgb = s.pixRgb := rfl
@[simp] theorem State.complete_errpos : (s.complete v).errpos = 0#32 := rfl
@[simp] theorem State.complete_reccnt : (s.complete v).reccnt = s.reccnt := rfl
@[simp] theorem State.complete_toff : (s.complete v).toff = s.toff := rfl
@[simp] theorem State.complete_tlen : (s.complete v).tlen = s.tlen := rfl
@[simp] theorem State.complete_ibuf : (s.complete v).ibuf = s.ibuf := rfl
@[simp] theorem State.complete_obuf : (s.complete v).obuf = s.obuf := rfl
@[simp] theorem State.complete_matrix : (s.complete v).matrix = s.matrix := rfl
@[simp] theorem State.complete_awaiting : (s.complete v).awaiting = s.awaiting := rfl
@[simp] theorem State.complete_host : (s.complete v).host = s.host := rfl
@[simp] theorem State.complete_turns : (s.complete v).turns = s.turns := rfl
@[simp] theorem State.complete_hostReads : (s.complete v).hostReads = s.hostReads := rfl
@[simp] theorem State.complete_consumerReads : (s.complete v).consumerReads = s.consumerReads := rfl

end

/-! ## raise: a command raises an error (R195) -/

section

variable (s : State) (e : Err) (p : Nat)

@[simp] theorem State.raise_caps : (s.raise e p).caps = s.caps := rfl
@[simp] theorem State.raise_cmd : (s.raise e p).cmd = s.cmd := rfl
@[simp] theorem State.raise_pcmd : (s.raise e p).pcmd = s.pcmd := rfl
@[simp] theorem State.raise_busy : (s.raise e p).busy = false := rfl
@[simp] theorem State.raise_valid : (s.raise e p).valid = false := rfl
@[simp] theorem State.raise_err : (s.raise e p).err = .error e := rfl
@[simp] theorem State.raise_fb16 : (s.raise e p).fb16 = s.fb16 := rfl
@[simp] theorem State.raise_ilen : (s.raise e p).ilen = s.ilen := rfl
@[simp] theorem State.raise_iptr : (s.raise e p).iptr = s.iptr := rfl
@[simp] theorem State.raise_olen : (s.raise e p).olen = s.olen := rfl
@[simp] theorem State.raise_pixRow : (s.raise e p).pixRow = s.pixRow := rfl
@[simp] theorem State.raise_pixCol : (s.raise e p).pixCol = s.pixCol := rfl
@[simp] theorem State.raise_pixRgb : (s.raise e p).pixRgb = s.pixRgb := rfl
@[simp] theorem State.raise_errpos : (s.raise e p).errpos = BitVec.ofNat 32 p := rfl
@[simp] theorem State.raise_reccnt : (s.raise e p).reccnt = s.reccnt := rfl
@[simp] theorem State.raise_toff : (s.raise e p).toff = s.toff := rfl
@[simp] theorem State.raise_tlen : (s.raise e p).tlen = s.tlen := rfl
@[simp] theorem State.raise_ibuf : (s.raise e p).ibuf = s.ibuf := rfl
@[simp] theorem State.raise_obuf : (s.raise e p).obuf = s.obuf := rfl
@[simp] theorem State.raise_matrix : (s.raise e p).matrix = s.matrix := rfl
@[simp] theorem State.raise_awaiting : (s.raise e p).awaiting = s.awaiting := rfl
@[simp] theorem State.raise_host : (s.raise e p).host = s.host := rfl
@[simp] theorem State.raise_turns : (s.raise e p).turns = s.turns := rfl
@[simp] theorem State.raise_hostReads : (s.raise e p).hostReads = s.hostReads := rfl
@[simp] theorem State.raise_consumerReads : (s.raise e p).consumerReads = s.consumerReads := rfl

end

/-! ## commitOutput: output is committed (R195, R75) -/

section

variable (s : State) (a : Nat) (out : List Byte)

@[simp] theorem State.commitOutput_caps : (s.commitOutput a out).caps = s.caps := rfl
@[simp] theorem State.commitOutput_cmd : (s.commitOutput a out).cmd = s.cmd := rfl
@[simp] theorem State.commitOutput_pcmd : (s.commitOutput a out).pcmd = s.pcmd := rfl
@[simp] theorem State.commitOutput_busy : (s.commitOutput a out).busy = s.busy := rfl
@[simp] theorem State.commitOutput_valid : (s.commitOutput a out).valid = s.valid := rfl
@[simp] theorem State.commitOutput_err : (s.commitOutput a out).err = s.err := rfl
@[simp] theorem State.commitOutput_fb16 : (s.commitOutput a out).fb16 = s.fb16 := rfl
@[simp] theorem State.commitOutput_ilen : (s.commitOutput a out).ilen = s.ilen := rfl
@[simp] theorem State.commitOutput_iptr : (s.commitOutput a out).iptr = s.iptr := rfl
@[simp] theorem State.commitOutput_olen : (s.commitOutput a out).olen = BitVec.ofNat 32 (a + out.length) := rfl
@[simp] theorem State.commitOutput_pixRow : (s.commitOutput a out).pixRow = s.pixRow := rfl
@[simp] theorem State.commitOutput_pixCol : (s.commitOutput a out).pixCol = s.pixCol := rfl
@[simp] theorem State.commitOutput_pixRgb : (s.commitOutput a out).pixRgb = s.pixRgb := rfl
@[simp] theorem State.commitOutput_errpos : (s.commitOutput a out).errpos = s.errpos := rfl
@[simp] theorem State.commitOutput_reccnt : (s.commitOutput a out).reccnt = s.reccnt := rfl
@[simp] theorem State.commitOutput_toff : (s.commitOutput a out).toff = s.toff := rfl
@[simp] theorem State.commitOutput_tlen : (s.commitOutput a out).tlen = s.tlen := rfl
@[simp] theorem State.commitOutput_ibuf : (s.commitOutput a out).ibuf = s.ibuf := rfl
@[simp] theorem State.commitOutput_obuf : (s.commitOutput a out).obuf = s.obuf.below a ++ cellsFrom a out := rfl
@[simp] theorem State.commitOutput_matrix : (s.commitOutput a out).matrix = s.matrix := rfl
@[simp] theorem State.commitOutput_awaiting : (s.commitOutput a out).awaiting = s.awaiting := rfl
@[simp] theorem State.commitOutput_host : (s.commitOutput a out).host = s.host := rfl
@[simp] theorem State.commitOutput_turns : (s.commitOutput a out).turns = s.turns := rfl
@[simp] theorem State.commitOutput_hostReads : (s.commitOutput a out).hostReads = s.hostReads := rfl
@[simp] theorem State.commitOutput_consumerReads : (s.commitOutput a out).consumerReads = s.consumerReads := rfl

end

/-! ## surface: a record is surfaced (R170) -/

section

variable (s : State) (r : Record)

@[simp] theorem State.surface_caps : (s.surface r).caps = s.caps := rfl
@[simp] theorem State.surface_cmd : (s.surface r).cmd = s.cmd := rfl
@[simp] theorem State.surface_pcmd : (s.surface r).pcmd = s.pcmd := rfl
@[simp] theorem State.surface_busy : (s.surface r).busy = s.busy := rfl
@[simp] theorem State.surface_valid : (s.surface r).valid = s.valid := rfl
@[simp] theorem State.surface_err : (s.surface r).err = s.err := rfl
@[simp] theorem State.surface_fb16 : (s.surface r).fb16 = s.fb16 := rfl
@[simp] theorem State.surface_ilen : (s.surface r).ilen = s.ilen := rfl
@[simp] theorem State.surface_iptr : (s.surface r).iptr = BitVec.ofNat 32 r.next := rfl
@[simp] theorem State.surface_olen : (s.surface r).olen = s.olen := rfl
@[simp] theorem State.surface_pixRow : (s.surface r).pixRow = BitVec.ofNat 8 r.row.val := rfl
@[simp] theorem State.surface_pixCol : (s.surface r).pixCol = BitVec.ofNat 8 r.col.val := rfl
@[simp] theorem State.surface_pixRgb : (s.surface r).pixRgb = r.rgb := rfl
@[simp] theorem State.surface_errpos : (s.surface r).errpos = s.errpos := rfl
@[simp] theorem State.surface_reccnt : (s.surface r).reccnt = s.reccnt := rfl
@[simp] theorem State.surface_toff : (s.surface r).toff = BitVec.ofNat 16 r.toff := rfl
@[simp] theorem State.surface_tlen : (s.surface r).tlen = BitVec.ofNat 16 r.tlen := rfl
@[simp] theorem State.surface_ibuf : (s.surface r).ibuf = s.ibuf := rfl
@[simp] theorem State.surface_obuf : (s.surface r).obuf = s.obuf := rfl
@[simp] theorem State.surface_matrix : (s.surface r).matrix = s.matrix := rfl
@[simp] theorem State.surface_awaiting : (s.surface r).awaiting = s.awaiting := rfl
@[simp] theorem State.surface_host : (s.surface r).host = s.host := rfl
@[simp] theorem State.surface_turns : (s.surface r).turns = s.turns := rfl
@[simp] theorem State.surface_hostReads : (s.surface r).hostReads = s.hostReads := rfl
@[simp] theorem State.surface_consumerReads : (s.surface r).consumerReads = s.consumerReads := rfl

end

/-! ## applied: a frame is applied (R171) -/

section

variable (s : State) (p n : Nat) (m : Matrix)

@[simp] theorem State.applied_caps : (s.applied p n m).caps = s.caps := rfl
@[simp] theorem State.applied_cmd : (s.applied p n m).cmd = s.cmd := rfl
@[simp] theorem State.applied_pcmd : (s.applied p n m).pcmd = s.pcmd := rfl
@[simp] theorem State.applied_busy : (s.applied p n m).busy = s.busy := rfl
@[simp] theorem State.applied_valid : (s.applied p n m).valid = s.valid := rfl
@[simp] theorem State.applied_err : (s.applied p n m).err = s.err := rfl
@[simp] theorem State.applied_fb16 : (s.applied p n m).fb16 = s.fb16 := rfl
@[simp] theorem State.applied_ilen : (s.applied p n m).ilen = s.ilen := rfl
@[simp] theorem State.applied_iptr : (s.applied p n m).iptr = BitVec.ofNat 32 p := rfl
@[simp] theorem State.applied_olen : (s.applied p n m).olen = s.olen := rfl
@[simp] theorem State.applied_pixRow : (s.applied p n m).pixRow = s.pixRow := rfl
@[simp] theorem State.applied_pixCol : (s.applied p n m).pixCol = s.pixCol := rfl
@[simp] theorem State.applied_pixRgb : (s.applied p n m).pixRgb = s.pixRgb := rfl
@[simp] theorem State.applied_errpos : (s.applied p n m).errpos = s.errpos := rfl
@[simp] theorem State.applied_reccnt : (s.applied p n m).reccnt = BitVec.ofNat 32 n := rfl
@[simp] theorem State.applied_toff : (s.applied p n m).toff = s.toff := rfl
@[simp] theorem State.applied_tlen : (s.applied p n m).tlen = s.tlen := rfl
@[simp] theorem State.applied_ibuf : (s.applied p n m).ibuf = s.ibuf := rfl
@[simp] theorem State.applied_obuf : (s.applied p n m).obuf = s.obuf := rfl
@[simp] theorem State.applied_matrix : (s.applied p n m).matrix = m := rfl
@[simp] theorem State.applied_awaiting : (s.applied p n m).awaiting = s.awaiting := rfl
@[simp] theorem State.applied_host : (s.applied p n m).host = s.host := rfl
@[simp] theorem State.applied_turns : (s.applied p n m).turns = s.turns := rfl
@[simp] theorem State.applied_hostReads : (s.applied p n m).hostReads = s.hostReads := rfl
@[simp] theorem State.applied_consumerReads : (s.applied p n m).consumerReads = s.consumerReads := rfl

end

/-! ## writeInput: the host writes an IBUF byte (R41) -/

section

variable (s : State) (i : Nat) (b : Byte)

@[simp] theorem State.writeInput_caps : (s.writeInput i b).caps = s.caps := rfl
@[simp] theorem State.writeInput_cmd : (s.writeInput i b).cmd = s.cmd := rfl
@[simp] theorem State.writeInput_pcmd : (s.writeInput i b).pcmd = s.pcmd := rfl
@[simp] theorem State.writeInput_busy : (s.writeInput i b).busy = s.busy := rfl
@[simp] theorem State.writeInput_valid : (s.writeInput i b).valid = s.valid := rfl
@[simp] theorem State.writeInput_err : (s.writeInput i b).err = s.err := rfl
@[simp] theorem State.writeInput_fb16 : (s.writeInput i b).fb16 = s.fb16 := rfl
@[simp] theorem State.writeInput_ilen : (s.writeInput i b).ilen = s.ilen := rfl
@[simp] theorem State.writeInput_iptr : (s.writeInput i b).iptr = s.iptr := rfl
@[simp] theorem State.writeInput_olen : (s.writeInput i b).olen = s.olen := rfl
@[simp] theorem State.writeInput_pixRow : (s.writeInput i b).pixRow = s.pixRow := rfl
@[simp] theorem State.writeInput_pixCol : (s.writeInput i b).pixCol = s.pixCol := rfl
@[simp] theorem State.writeInput_pixRgb : (s.writeInput i b).pixRgb = s.pixRgb := rfl
@[simp] theorem State.writeInput_errpos : (s.writeInput i b).errpos = s.errpos := rfl
@[simp] theorem State.writeInput_reccnt : (s.writeInput i b).reccnt = s.reccnt := rfl
@[simp] theorem State.writeInput_toff : (s.writeInput i b).toff = s.toff := rfl
@[simp] theorem State.writeInput_tlen : (s.writeInput i b).tlen = s.tlen := rfl
@[simp] theorem State.writeInput_ibuf : (s.writeInput i b).ibuf = s.ibuf.write i b := rfl
@[simp] theorem State.writeInput_obuf : (s.writeInput i b).obuf = s.obuf := rfl
@[simp] theorem State.writeInput_matrix : (s.writeInput i b).matrix = s.matrix := rfl
@[simp] theorem State.writeInput_awaiting : (s.writeInput i b).awaiting = s.awaiting := rfl
@[simp] theorem State.writeInput_host : (s.writeInput i b).host = s.host := rfl
@[simp] theorem State.writeInput_turns : (s.writeInput i b).turns = s.turns := rfl
@[simp] theorem State.writeInput_hostReads : (s.writeInput i b).hostReads = s.hostReads := rfl
@[simp] theorem State.writeInput_consumerReads : (s.writeInput i b).consumerReads = s.consumerReads := rfl

end

/-! ## polled: a read may end the busy window (R213) -/

section

variable (s : State) (a : Addr)

@[simp] theorem State.polled_caps : (s.polled a).caps = s.caps := rfl
@[simp] theorem State.polled_cmd : (s.polled a).cmd = s.cmd := rfl
@[simp] theorem State.polled_pcmd : (s.polled a).pcmd = s.pcmd := rfl
@[simp] theorem State.polled_busy : (s.polled a).busy = s.busy := rfl
@[simp] theorem State.polled_valid : (s.polled a).valid = s.valid := rfl
@[simp] theorem State.polled_err : (s.polled a).err = s.err := rfl
@[simp] theorem State.polled_fb16 : (s.polled a).fb16 = s.fb16 := rfl
@[simp] theorem State.polled_ilen : (s.polled a).ilen = s.ilen := rfl
@[simp] theorem State.polled_iptr : (s.polled a).iptr = s.iptr := rfl
@[simp] theorem State.polled_olen : (s.polled a).olen = s.olen := rfl
@[simp] theorem State.polled_pixRow : (s.polled a).pixRow = s.pixRow := rfl
@[simp] theorem State.polled_pixCol : (s.polled a).pixCol = s.pixCol := rfl
@[simp] theorem State.polled_pixRgb : (s.polled a).pixRgb = s.pixRgb := rfl
@[simp] theorem State.polled_errpos : (s.polled a).errpos = s.errpos := rfl
@[simp] theorem State.polled_reccnt : (s.polled a).reccnt = s.reccnt := rfl
@[simp] theorem State.polled_toff : (s.polled a).toff = s.toff := rfl
@[simp] theorem State.polled_tlen : (s.polled a).tlen = s.tlen := rfl
@[simp] theorem State.polled_ibuf : (s.polled a).ibuf = s.ibuf := rfl
@[simp] theorem State.polled_obuf : (s.polled a).obuf = s.obuf := rfl
@[simp] theorem State.polled_matrix : (s.polled a).matrix = s.matrix := rfl
@[simp] theorem State.polled_awaiting : (s.polled a).awaiting = if a = Reg.status.addr ∧ s.busy = false then false else s.awaiting := rfl
@[simp] theorem State.polled_host : (s.polled a).host = s.host := rfl
@[simp] theorem State.polled_turns : (s.polled a).turns = s.turns := rfl
@[simp] theorem State.polled_hostReads : (s.polled a).hostReads = s.hostReads := rfl
@[simp] theorem State.polled_consumerReads : (s.polled a).consumerReads = s.consumerReads := rfl

end

/-! ## returned: a host read returns -/

section

variable (s : State) (w : Word)

@[simp] theorem State.returned_caps : (s.returned w).caps = s.caps := rfl
@[simp] theorem State.returned_cmd : (s.returned w).cmd = s.cmd := rfl
@[simp] theorem State.returned_pcmd : (s.returned w).pcmd = s.pcmd := rfl
@[simp] theorem State.returned_busy : (s.returned w).busy = s.busy := rfl
@[simp] theorem State.returned_valid : (s.returned w).valid = s.valid := rfl
@[simp] theorem State.returned_err : (s.returned w).err = s.err := rfl
@[simp] theorem State.returned_fb16 : (s.returned w).fb16 = s.fb16 := rfl
@[simp] theorem State.returned_ilen : (s.returned w).ilen = s.ilen := rfl
@[simp] theorem State.returned_iptr : (s.returned w).iptr = s.iptr := rfl
@[simp] theorem State.returned_olen : (s.returned w).olen = s.olen := rfl
@[simp] theorem State.returned_pixRow : (s.returned w).pixRow = s.pixRow := rfl
@[simp] theorem State.returned_pixCol : (s.returned w).pixCol = s.pixCol := rfl
@[simp] theorem State.returned_pixRgb : (s.returned w).pixRgb = s.pixRgb := rfl
@[simp] theorem State.returned_errpos : (s.returned w).errpos = s.errpos := rfl
@[simp] theorem State.returned_reccnt : (s.returned w).reccnt = s.reccnt := rfl
@[simp] theorem State.returned_toff : (s.returned w).toff = s.toff := rfl
@[simp] theorem State.returned_tlen : (s.returned w).tlen = s.tlen := rfl
@[simp] theorem State.returned_ibuf : (s.returned w).ibuf = s.ibuf := rfl
@[simp] theorem State.returned_obuf : (s.returned w).obuf = s.obuf := rfl
@[simp] theorem State.returned_matrix : (s.returned w).matrix = s.matrix := rfl
@[simp] theorem State.returned_awaiting : (s.returned w).awaiting = s.awaiting := rfl
@[simp] theorem State.returned_host : (s.returned w).host = s.host := rfl
@[simp] theorem State.returned_turns : (s.returned w).turns = s.turns := rfl
@[simp] theorem State.returned_hostReads : (s.returned w).hostReads = w :: s.hostReads := rfl
@[simp] theorem State.returned_consumerReads : (s.returned w).consumerReads = s.consumerReads := rfl

end

/-! ## finishOutput: the fields no output command writes -/

section

variable (s : State) (a : Nat) (r : Except EngineError (List Byte))

@[simp] theorem State.finishOutput_caps : (s.finishOutput a r).caps = s.caps := by
  cases r <;> rfl
@[simp] theorem State.finishOutput_cmd : (s.finishOutput a r).cmd = s.cmd := by
  cases r <;> rfl
@[simp] theorem State.finishOutput_pcmd : (s.finishOutput a r).pcmd = s.pcmd := by
  cases r <;> rfl
@[simp] theorem State.finishOutput_busy : (s.finishOutput a r).busy = false := by
  cases r <;> rfl
@[simp] theorem State.finishOutput_valid : (s.finishOutput a r).valid = false := by
  cases r <;> rfl
@[simp] theorem State.finishOutput_fb16 : (s.finishOutput a r).fb16 = s.fb16 := by
  cases r <;> rfl
@[simp] theorem State.finishOutput_ilen : (s.finishOutput a r).ilen = s.ilen := by
  cases r <;> rfl
@[simp] theorem State.finishOutput_iptr : (s.finishOutput a r).iptr = s.iptr := by
  cases r <;> rfl
@[simp] theorem State.finishOutput_pixRow : (s.finishOutput a r).pixRow = s.pixRow := by
  cases r <;> rfl
@[simp] theorem State.finishOutput_pixCol : (s.finishOutput a r).pixCol = s.pixCol := by
  cases r <;> rfl
@[simp] theorem State.finishOutput_pixRgb : (s.finishOutput a r).pixRgb = s.pixRgb := by
  cases r <;> rfl
@[simp] theorem State.finishOutput_reccnt : (s.finishOutput a r).reccnt = s.reccnt := by
  cases r <;> rfl
@[simp] theorem State.finishOutput_toff : (s.finishOutput a r).toff = s.toff := by
  cases r <;> rfl
@[simp] theorem State.finishOutput_tlen : (s.finishOutput a r).tlen = s.tlen := by
  cases r <;> rfl
@[simp] theorem State.finishOutput_ibuf : (s.finishOutput a r).ibuf = s.ibuf := by
  cases r <;> rfl
@[simp] theorem State.finishOutput_matrix : (s.finishOutput a r).matrix = s.matrix := by
  cases r <;> rfl
@[simp] theorem State.finishOutput_awaiting : (s.finishOutput a r).awaiting = s.awaiting := by
  cases r <;> rfl
@[simp] theorem State.finishOutput_host : (s.finishOutput a r).host = s.host := by
  cases r <;> rfl
@[simp] theorem State.finishOutput_turns : (s.finishOutput a r).turns = s.turns := by
  cases r <;> rfl
@[simp] theorem State.finishOutput_hostReads : (s.finishOutput a r).hostReads = s.hostReads := by
  cases r <;> rfl
@[simp] theorem State.finishOutput_consumerReads : (s.finishOutput a r).consumerReads = s.consumerReads := by
  cases r <;> rfl

@[simp] theorem State.finishOutput_error (e : EngineError) :
    s.finishOutput a (.error e) = s.raise e.err e.pos := rfl
@[simp] theorem State.finishOutput_ok (out : List Byte) :
    s.finishOutput a (.ok out) = (s.commitOutput a out).complete false := rfl

end

end Sys2Proof.Machine
end

