-- ==== Sys2Proof/Laws/Memory.lean ====
section
/-!
SUPPORT. What the buffer operations do: read after write, the canonical form each of them keeps, and the output a
commit leaves (10_state.md R41, R42; 20_memory.md R75).
-/

namespace Sys2Proof.Machine

/-! ## Reading -/

@[simp] theorem Memory.read_nil (a : Nat) : Memory.read [] a = none := rfl

theorem Memory.read_cons (b : Nat) (v : Byte) (t : Memory) (a : Nat) :
    Memory.read ((b, v) :: t) a = if b = a then some v else Memory.read t a := rfl

/-- A byte read is a listed byte. -/
theorem Memory.mem_of_read {m : Memory} {a : Nat} {v : Byte} (h : Memory.read m a = some v) :
    (a, v) ∈ m := by
  induction m with
  | nil => simp at h
  | cons c t ih =>
    obtain ⟨b, w⟩ := c
    rw [Memory.read_cons] at h
    split at h
    · simp_all
    · exact List.mem_cons_of_mem _ (ih h)

/-- An index with no listed byte reads as none. -/
theorem Memory.read_eq_none {m : Memory} {a : Nat} (h : ∀ c ∈ m, c.1 ≠ a) :
    Memory.read m a = none := by
  induction m with
  | nil => rfl
  | cons c t ih =>
    obtain ⟨b, w⟩ := c
    rw [Memory.read_cons, if_neg (h (b, w) (by simp))]
    exact ih fun c hc => h c (by simp [hc])

theorem Memory.read_append (m n : Memory) (a : Nat) :
    Memory.read (m ++ n) a = (Memory.read m a).or (Memory.read n a) := by
  induction m with
  | nil => simp
  | cons c t ih =>
    obtain ⟨b, w⟩ := c
    simp only [List.cons_append, Memory.read_cons, ih]
    split <;> simp

/-! ## Writing (R41) -/

theorem Memory.read_write_same (m : Memory) (a : Nat) (v : Byte) :
    (m.write a v).read a = some v := by
  induction m with
  | nil => simp [Memory.write, Memory.read_cons]
  | cons c t ih =>
    obtain ⟨b, w⟩ := c
    simp only [Memory.write]
    split
    · simp [Memory.read_cons]
    · split
      · simp [Memory.read_cons]
      · rw [Memory.read_cons, if_neg (by omega)]
        exact ih

theorem Memory.read_write_other (m : Memory) {a b : Nat} (v : Byte) (h : b ≠ a) :
    (m.write a v).read b = m.read b := by
  induction m with
  | nil => simp [Memory.write, Memory.read_cons, h.symm]
  | cons c t ih =>
    obtain ⟨x, w⟩ := c
    simp only [Memory.write]
    split
    · rw [Memory.read_cons, if_neg (Ne.symm h)]
    · split
      · next hx => subst hx; rw [Memory.read_cons, Memory.read_cons, if_neg (Ne.symm h), if_neg (Ne.symm h)]
      · rw [Memory.read_cons, Memory.read_cons, ih]

/-- Every index a write leaves listed was listed or is the one written. -/
theorem Memory.mem_write {m : Memory} {a : Nat} {v : Byte} {c : Host.Cell} (h : c ∈ m.write a v) :
    c = (a, v) ∨ c ∈ m := by
  induction m with
  | nil => simpa [Memory.write] using h
  | cons x t ih =>
    obtain ⟨b, w⟩ := x
    simp only [Memory.write] at h
    split at h
    · simpa using h
    · split at h
      · rcases List.mem_cons.mp h with h | h <;> simp [h]
      · rcases List.mem_cons.mp h with h | h
        · simp [h]
        · rcases ih h with h | h <;> simp [h]

/-- A write keeps the canonical form. -/
theorem Memory.write_wf {m : Memory} (a : Nat) (v : Byte) (h : m.wf) : (m.write a v).wf := by
  induction m with
  | nil => simp [Memory.write]
  | cons c t ih =>
    obtain ⟨b, w⟩ := c
    obtain ⟨hb, ht⟩ := List.pairwise_cons.mp h
    simp only [Memory.write]
    split
    · next hlt =>
      refine List.pairwise_cons.mpr ⟨fun x hx => ?_, h⟩
      rcases List.mem_cons.mp hx with rfl | hx
      · exact hlt
      · exact lt_trans hlt (hb x hx)
    · split
      · next hab => subst hab; exact List.pairwise_cons.mpr ⟨hb, ht⟩
      · refine List.pairwise_cons.mpr ⟨fun x hx => ?_, ih ht⟩
        rcases Memory.mem_write hx with rfl | hx
        · show b < a
          omega
        · exact hb x hx

/-! ## Output (R75, R195) -/

/-- Dropping the entries from an index on keeps the canonical form. -/
theorem Memory.below_wf {m : Memory} (k : Nat) (h : m.wf) : (m.below k).wf :=
  List.Pairwise.filter _ h

theorem Memory.mem_below {m : Memory} {k : Nat} {c : Host.Cell} :
    c ∈ m.below k ↔ c ∈ m ∧ c.1 < k := by
  simp [Memory.below]

theorem Memory.read_below (m : Memory) (k a : Nat) :
    (m.below k).read a = if a < k then m.read a else none := by
  induction m with
  | nil => simp [Memory.below]
  | cons c t ih =>
    obtain ⟨b, w⟩ := c
    simp only [Memory.below, List.filter_cons] at ih ⊢
    by_cases hb : b < k
    · simp only [hb, decide_true, if_true, Memory.read_cons, ih]
      by_cases hba : b = a
      · subst hba; simp [hb]
      · simp [hba]
    · simp only [hb, decide_false, Bool.false_eq_true, if_false, ih, Memory.read_cons]
      by_cases hba : b = a
      · subst hba; simp [hb]
      · simp [hba]

@[simp] theorem cellsFrom_indices (a : Nat) (l : List Byte) :
    (cellsFrom a l).map (·.1) = List.range' a l.length := by
  induction l generalizing a with
  | nil => rfl
  | cons c cs ih => simp [cellsFrom, ih, List.range'_succ]

/-- Consecutive cells are canonical. -/
theorem cellsFrom_wf (a : Nat) (l : List Byte) : Memory.wf (cellsFrom a l) := by
  have h : ((cellsFrom a l).map (·.1)).Pairwise (· < ·) := by
    rw [cellsFrom_indices]; exact List.pairwise_lt_range'
  exact List.pairwise_map.mp h

theorem read_cellsFrom (a : Nat) (l : List Byte) (i : Nat) :
    Memory.read (cellsFrom a l) i = if a ≤ i then l[i - a]? else none := by
  induction l generalizing a with
  | nil => simp [cellsFrom]
  | cons c cs ih =>
    rw [cellsFrom, Memory.read_cons, ih]
    by_cases h : a = i
    · subst h; simp
    · by_cases h' : a ≤ i
      · have : i - a = (i - (a + 1)) + 1 := by omega
        simp [h, h', show a + 1 ≤ i by omega, this]
      · simp [h, h', show ¬ a + 1 ≤ i by omega]

/-- What a commit leaves at each OBUF index: the bytes before its start, then the output, then nothing. -/
theorem State.commitOutput_read (s : State) (start : Nat) (out : List Byte) (i : Nat) :
    (s.commitOutput start out).obuf.read i =
      if i < start then s.obuf.read i else out[i - start]? := by
  rw [State.commitOutput_obuf, Memory.read_append, Memory.read_below, read_cellsFrom]
  by_cases h : i < start
  · simp [h, show ¬ start ≤ i by omega]
  · simp [h, show start ≤ i by omega]

/-- A commit keeps OBUF canonical. -/
theorem State.commitOutput_wf (s : State) (start : Nat) (out : List Byte) (h : s.obuf.wf) :
    (s.commitOutput start out).obuf.wf := by
  rw [State.commitOutput_obuf]
  refine List.pairwise_append.mpr ⟨Memory.below_wf _ h, cellsFrom_wf _ _, fun x hx y hy => ?_⟩
  have hy' : y.1 ∈ (cellsFrom start out).map (·.1) := List.mem_map_of_mem hy
  rw [cellsFrom_indices, List.mem_range'_1] at hy'
  exact lt_of_lt_of_le (Memory.mem_below.mp hx).2 hy'.1

/-- Host writes of consecutive IBUF bytes keep IBUF canonical. -/
theorem State.writeInputs_wf (s : State) (i : Nat) (bs : List Byte) (h : s.ibuf.wf) :
    (s.writeInputs i bs).ibuf.wf := by
  induction bs generalizing s i with
  | nil => exact h
  | cons b bs ih => exact ih _ _ (Memory.write_wf _ _ h)

/-- The canonical form holds after reset. -/
theorem State.resetWith_wf (caps : Capacities) :
    (State.resetWith caps).ibuf.wf ∧ (State.resetWith caps).obuf.wf :=
  ⟨List.Pairwise.nil, List.Pairwise.nil⟩

/-! ## The engine's reads -/

@[simp] theorem Memory.readFrom_length (m : Memory) (a k : Nat) : (m.readFrom a k).length = k := by
  induction k generalizing a with
  | zero => rfl
  | succ k ih => simp [Memory.readFrom, ih]

theorem Memory.readFrom_getElem? (m : Memory) (a k i : Nat) :
    (m.readFrom a k)[i]? = if i < k then some (m.read (a + i)) else none := by
  induction k generalizing a i with
  | zero => simp [Memory.readFrom]
  | succ k ih =>
    cases i with
    | zero => simp [Memory.readFrom]
    | succ i => simp [Memory.readFrom, ih, Nat.add_assoc, Nat.add_comm 1 i]

theorem readAll_eq_some {l : Cells} {t : List Byte} : readAll l = some t ↔ l = t.map some := by
  induction l generalizing t with
  | nil => cases t <;> simp [readAll]
  | cons c cs ih =>
    cases c with
    | none => cases t <;> simp [readAll]
    | some c =>
      cases t with
      | nil => simp [readAll]
      | cons d ds => simp [readAll, ih, and_comm]

/-- A read of whole cells fails only at a byte whose mark is clear (R211). -/
theorem readAll_eq_none {l : Cells} : readAll l = none ↔ none ∈ l := by
  induction l with
  | nil => simp [readAll]
  | cons c cs ih => cases c <;> simp [readAll, ih]

/-- A read of the bytes from `p` to below `n` fails exactly if one of them holds no value (R211). -/
theorem readAll_readFrom_eq_none (m : Memory) (p n : Nat) :
    readAll (m.readFrom p (n - p)) = none ↔ ∃ i, p ≤ i ∧ i < n ∧ m.read i = none := by
  rw [readAll_eq_none, List.mem_iff_getElem?]
  constructor
  · rintro ⟨k, hk⟩
    rw [Memory.readFrom_getElem?] at hk
    split at hk
    · exact ⟨p + k, by omega, by omega, Option.some.inj hk⟩
    · simp at hk
  · rintro ⟨i, hp, hn, hi⟩
    exact ⟨i - p, by rw [Memory.readFrom_getElem?, if_pos (by omega), show p + (i - p) = i by omega, hi]⟩

end Sys2Proof.Machine
end

