-- ==== Sys2Proof/Laws/Bus.lean ====
section
/-!
SUPPORT. What one host access and one turn can do, said once (20_memory.md R62 to R66, R69; 10_state.md R21).
-/

namespace Sys2Proof.Machine

/-! ## Addresses (R60) -/

theorem Reg.at_offset (r : Reg) : Reg.at r.offset = some r := by cases r <;> rfl

theorem Reg.offset_of_at {n : Nat} {r : Reg} (h : Reg.at n = some r) : r.offset = n := by
  simpa using List.find?_some h

@[simp] theorem region_reg (caps : Capacities) (r : Reg) : region caps r.addr = .reg r.offset := by
  cases r <;> rfl

theorem region_ibuf (caps : Capacities) {i : Nat} (h : i < caps.ibufBytes) :
    region caps (BitVec.ofNat 18 (0x10000 + i)) = .ibuf i := by
  have := caps.ibufBytes_range
  have hn : (BitVec.ofNat 18 (0x10000 + i)).toNat = 0x10000 + i := by
    rw [BitVec.toNat_ofNat]; exact Nat.mod_eq_of_lt (by omega)
  unfold region
  simp only [hn]
  rw [if_neg (by omega), if_neg (by omega), if_pos (by omega), if_pos (by omega), Nat.add_sub_cancel_left]

theorem region_obuf (caps : Capacities) {i : Nat} (h : i < caps.obufBytes) :
    region caps (BitVec.ofNat 18 (0x20000 + i)) = .obuf i := by
  have := caps.obufBytes_range
  have hn : (BitVec.ofNat 18 (0x20000 + i)).toNat = 0x20000 + i := by
    rw [BitVec.toNat_ofNat]; exact Nat.mod_eq_of_lt (by omega)
  unfold region
  simp only [hn]
  rw [if_neg (by omega), if_neg (by omega), if_neg (by omega), if_pos (by omega), if_pos (by omega),
    Nat.add_sub_cancel_left]

theorem region_matrix (caps : Capacities) {n : Nat} (h : n < 0x400) :
    region caps (BitVec.ofNat 18 (0x30000 + n)) = .matrix n := by
  have hn : (BitVec.ofNat 18 (0x30000 + n)).toNat = 0x30000 + n := by
    rw [BitVec.toNat_ofNat]; exact Nat.mod_eq_of_lt (by omega)
  unfold region
  simp only [hn]
  rw [if_neg (by omega), if_neg (by omega), if_neg (by omega), if_neg (by omega), if_pos (by omega),
    Nat.add_sub_cancel_left]

/-! ## One access -/

/-- Consecutive IBUF writes change IBUF alone. -/
theorem State.writeInputs_eq (s : State) (i : Nat) (bs : List Byte) :
    s.writeInputs i bs = { s with ibuf := (s.writeInputs i bs).ibuf } := by
  induction bs generalizing s i with
  | nil => rfl
  | cons b bs ih => exact ih _ _

/-- What an allowed 32-bit write does: it stores to a register of the host's (a write to CMD issues a
command), or it writes four IBUF bytes (R61, R66). -/
theorem busWrite32_cases {s t : State} {a : Addr} {w : Word} (h : busWrite32 s a w = .ok t) :
    s.inBusyWindow = false ∧
      ((∃ r : Reg, r.readOnly = false ∧ region s.caps a = .reg r.offset ∧ t = s.writeReg r w) ∨
        ∃ i, region s.caps a = .ibuf i ∧ i % 4 = 0 ∧ i + 3 < s.caps.ibufBytes ∧
          t = s.writeInputs i (bytes4 w)) := by
  unfold busWrite32 at h
  split at h
  · simp at h
  · next hb =>
    refine ⟨by simpa using hb, ?_⟩
    split at h
    · simp at h
    · next n hn =>
      split at h
      · simp at h
      · next r hr =>
        split at h
        · simp at h
        · next hro =>
          exact .inl ⟨r, by simpa using hro, by rw [hn, Reg.offset_of_at hr], (Except.ok.inj h).symm⟩
    · next i hi =>
      split at h
      · simp at h
      · split at h
        · simp at h
        · exact .inr ⟨i, hi, by omega, by omega, (Except.ok.inj h).symm⟩
    · simp at h
    · simp at h

/-- What an allowed 8-bit write does: it writes one IBUF byte (R61). -/
theorem busWrite8_cases {s t : State} {a : Addr} {b : Byte} (h : busWrite8 s a b = .ok t) :
    s.inBusyWindow = false ∧ ∃ i, region s.caps a = .ibuf i ∧ t = s.writeInput i b := by
  unfold busWrite8 at h
  split at h
  · simp at h
  · next hb =>
    refine ⟨by simpa using hb, ?_⟩
    split at h
    · simp at h
    · simp at h
    · next i hi => exact ⟨i, hi, (Except.ok.inj h).symm⟩
    · simp at h
    · simp at h

/-- An IBUF address lies inside the capacity (R61). -/
theorem lt_of_region_ibuf {caps : Capacities} {a : Addr} {i : Nat} (h : region caps a = .ibuf i) :
    i < caps.ibufBytes := by
  unfold region at h
  simp only at h
  split at h
  · simp at h
  · split at h
    · simp at h
    · split at h
      · split at h
        · next hlt => exact Region.ibuf.inj h ▸ hlt
        · simp at h
      · split at h
        · split at h <;> simp at h
        · split at h <;> simp at h

/-- What one allowed host access does (R69): a read keeps what it returned, a write stores. -/
theorem hostAccess_cases {s t : State} {x : Access} (h : hostAccess s x = .ok t) :
    (∃ w, t = s.returned w) ∨ (∃ a w, t = (s.returned w).polled a) ∨ (∃ a b, x = .write8 a b ∧ busWrite8 s a b = .ok t) ∨
      ∃ a w, x = .write32 a w ∧ busWrite32 s a w = .ok t := by
  cases x with
  | read8 a =>
    simp only [hostAccess] at h
    split at h
    · simp at h
    · exact .inl ⟨_, (Except.ok.inj h).symm⟩
  | read32 a =>
    simp only [hostAccess] at h
    split at h
    · simp at h
    · exact .inr (.inl ⟨a, _, (Except.ok.inj h).symm⟩)
  | write8 a b => exact .inr (.inr (.inl ⟨a, b, rfl, h⟩))
  | write32 a w => exact .inr (.inr (.inr ⟨a, w, rfl, h⟩))
  | otherWidth a => simp only [hostAccess] at h; split at h <;> simp at h

/-- An access neither reads nor writes the host program and the schedule. -/
theorem hostAccess_schedule (s : State) (ops : List HostOp) (ts : List Turn) (x : Access) :
    hostAccess { s with host := ops, turns := ts } x =
      (hostAccess s x).map fun t => { t with host := ops, turns := ts } := by
  have hw : { s with host := ops, turns := ts }.inBusyWindow = s.inBusyWindow := rfl
  cases x with
  | read8 a =>
    have h : busRead8 { s with host := ops, turns := ts } a = busRead8 s a := rfl
    simp only [hostAccess, h]
    cases busRead8 s a <;> rfl
  | read32 a =>
    have h : busRead32 { s with host := ops, turns := ts } a = busRead32 s a := rfl
    simp only [hostAccess, h]
    cases busRead32 s a <;> rfl
  | write8 a b =>
    simp only [hostAccess, busWrite8, hw]
    cases s.inBusyWindow <;> [(cases region s.caps a <;> rfl); rfl]
  | write32 a w =>
    simp only [hostAccess, busWrite32, hw]
    cases s.inBusyWindow with
    | true => rfl
    | false =>
      cases region s.caps a with
      | reg n =>
        simp only
        cases Reg.at n with
        | none => rfl
        | some r => cases r <;> rfl
      | ibuf i =>
        simp only
        by_cases h4 : i % 4 ≠ 0 <;> by_cases hc : s.caps.ibufBytes ≤ i + 3 <;> simp [h4, hc, bytes4] <;> rfl
      | reserved => rfl
      | obuf i => rfl
      | matrix n => rfl
  | otherWidth a =>
    simp only [hostAccess, hw]
    cases s.inBusyWindow <;> rfl
/-! ## One turn -/

theorem accessStep_cases {s t : State} {x : Access} (h : accessStep s x = .next t) :
    hostAccess s x = .ok t := by
  unfold accessStep at h
  split at h
  · next t' ht => rw [ht, Host.Outcome.next.inj h]
  · simp at h

/-- What the host's turn does: nothing left to do, or one access, POLL's among them (R90). -/
theorem hostTurn_cases {s t : State} (h : hostTurn s = .next t) :
    (s.host = [] ∧ t = s) ∨
      (∃ x rest, s.host = .access x :: rest ∧ hostAccess { s with host := rest } x = .ok t) ∨
      ∃ rest, s.host = .poll :: rest ∧
        hostAccess { s with host := if s.busy then .poll :: rest else rest }
          (.read32 Reg.status.addr) = .ok t := by
  unfold hostTurn at h
  split at h
  · next hh => exact .inl ⟨hh, (Host.Outcome.next.inj h).symm⟩
  · next x rest hh => exact .inr (.inl ⟨x, rest, hh, accessStep_cases h⟩)
  · next rest hh => exact .inr (.inr ⟨rest, hh, accessStep_cases h⟩)

/-- What the engine's step does: a decoded command runs, another word completes with IllegalCommand. -/
theorem engineStep_cases {s t : State} (h : engineStep s = .next t) :
    (∃ i, decode s.pcmd = .ok i ∧ exec i s = .next t) ∨
      (∃ e, decode s.pcmd = .error e) ∧ t = s.illegal := by
  unfold engineStep at h
  split at h
  · next i hi => exact .inl ⟨i, hi, h⟩
  · next e he => exact .inr ⟨⟨e, he⟩, (Host.Outcome.next.inj h).symm⟩

/-- Everything one step can do (R20, R72): the turn it takes and what that turn does. -/
theorem step_cases {s t : State} (h : step s = .next t) :
    ∃ s₀, s₀ = { s with turns := s.turns.tail } ∧
      ((s₀.busy = true ∧ engineStep s₀ = .next t) ∨ hostTurn s₀ = .next t ∨ t = s₀ ∨
        (s₀.busy = false ∧ ∃ w, t = { s₀ with consumerReads := w :: s₀.consumerReads }) ∨
        t = resetTurn s₀) := by
  refine ⟨_, rfl, ?_⟩
  obtain ⟨turns, hturns⟩ : ∃ l, s.turns = l := ⟨_, rfl⟩
  unfold step agentStep at h
  rw [hturns] at h ⊢
  cases turns with
  | nil =>
    have hs : { s with turns := [].tail } = s := by rw [List.tail_nil, ← hturns]
    rw [hs]
    simp only at h
    split at h
    · next hb => exact .inl ⟨hb, h⟩
    · exact .inr (.inl h)
  | cons u us =>
    simp only [List.tail_cons]
    cases u with
    | host => exact .inr (.inl h)
    | engine =>
      simp only [turnStep, engineTurn] at h
      split at h
      · next hb => exact .inl ⟨hb, h⟩
      · exact .inr (.inr (.inl (Host.Outcome.next.inj h).symm))
    | consumer r c =>
      simp only [turnStep, consumerTurn] at h
      split at h
      · simp at h
      · next hb => exact .inr (.inr (.inr (.inl ⟨by simpa using hb, _, (Host.Outcome.next.inj h).symm⟩)))
    | reset => exact .inr (.inr (.inr (.inr (Host.Outcome.next.inj h).symm)))

end Sys2Proof.Machine
end

