-- ==== Sys2Proof/Laws/Codec.lean ====
section
/-!
SUPPORT. What the characters, the nibble table and the codec's functions do (00_scope.md R14, 40_hex_codec.md R100
to R103): classes, lengths, values, and when each function returns a value.
-/

namespace Sys2Proof.Machine

/-! ## Characters (R14, R100) -/

@[simp] theorem isBin_bitChar (b : Bool) : isBin (bitChar b) = true := by cases b <;> rfl

@[simp] theorem bitVal_bitChar (b : Bool) : bitVal (bitChar b) = b.toNat := by cases b <;> rfl

theorem bitVal_le_one (c : Byte) : bitVal c ≤ 1 := by unfold bitVal; split <;> simp

/-- A binary character is the character of a bit. -/
theorem isBin_iff {c : Byte} : isBin c = true ↔ ∃ b, c = bitChar b := by
  constructor
  · intro h
    rcases (by simpa [isBin] using h : c = 0x30#8 ∨ c = 0x31#8) with rfl | rfl
    · exact ⟨false, rfl⟩
    · exact ⟨true, rfl⟩
  · rintro ⟨b, rfl⟩; simp

/-- Every decimal digit is a hex digit. -/
theorem isHex_of_isDec {c : Byte} (h : isDec c = true) : isHex c = true := by
  simp only [isDec, isHex, decide_eq_true_eq] at h ⊢
  exact .inl h

/-- A field character is a hex character in both bases (R155). -/
theorem isHex_of_fieldChar {fb : Bool} {c : Byte} (h : fieldChar fb c = true) : isHex c = true := by
  cases fb
  · exact isHex_of_isDec h
  · exact h

theorem nib_lt (c : Byte) (h : isHex c = true) : nib c < 16 := by
  revert c; decide

theorem isHex_hexch (v : Nat) (h : v < 16) : isHex (hexch v) = true := by
  interval_cases v <;> rfl

theorem nib_hexch (v : Nat) (h : v < 16) : nib (hexch v) = v := by
  interval_cases v <;> rfl

/-! ## Binary strings (R101) -/

@[simp] theorem bits_length (n v : Nat) : (bits n v).length = n := by
  induction n with
  | zero => rfl
  | succ n ih => simp [bits, ih]

theorem isBin_of_mem_bits {n v : Nat} {c : Byte} (h : c ∈ bits n v) : isBin c = true := by
  induction n with
  | zero => simp [bits] at h
  | succ n ih =>
    rcases List.mem_cons.mp h with rfl | h
    · simp
    · exact ih h

/-- The value of the n-character string of v is v reduced to n bits. -/
theorem val_bits (n v : Nat) : val (bits n v) = v % 2 ^ n := by
  induction n with
  | zero => simp [bits, val, Nat.mod_one]
  | succ n ih =>
    rw [bits, val, bits_length, bitVal_bitChar, ih, pow_succ, Nat.mod_mul, Nat.testBit_eq_decide_div_mod_eq]
    rcases Nat.mod_two_eq_zero_or_one (v / 2 ^ n) with h | h <;> simp [h, Nat.add_comm]

theorem val_append (a b : List Byte) : val (a ++ b) = val a * 2 ^ b.length + val b := by
  induction a with
  | nil => simp [val]
  | cons c cs ih => simp only [List.cons_append, val, ih, List.length_append, pow_add]; ring

theorem val_lt (l : List Byte) : val l < 2 ^ l.length := by
  induction l with
  | nil => simp [val]
  | cons c cs ih =>
    have := bitVal_le_one c
    have : bitVal c * 2 ^ cs.length ≤ 1 * 2 ^ cs.length := Nat.mul_le_mul_right _ this
    simp only [val, List.length_cons, pow_succ]
    omega

/-! ## The first character outside a class -/

theorem findIdx?_bad_none {p : Byte → Bool} {l : List Byte} :
    (l.findIdx? fun c => !p c) = none ↔ ∀ c ∈ l, p c = true := by
  simp [List.findIdx?_eq_none_iff]

/-! ## hexToBinary (R102) -/

@[simp] theorem expandHex_length (h : List Byte) : (expandHex h).length = 4 * h.length := by
  induction h with
  | nil => rfl
  | cons c cs ih => simp [expandHex, ih]; omega

theorem isBin_of_mem_expandHex {h : List Byte} {c : Byte} (hc : c ∈ expandHex h) :
    isBin c = true := by
  induction h with
  | nil => simp [expandHex] at hc
  | cons x xs ih =>
    rcases List.mem_append.mp hc with hc | hc
    · exact isBin_of_mem_bits hc
    · exact ih hc

theorem expandHex_eq_flatMap (h : List Byte) : expandHex h = h.flatMap fun c => bits 4 (nib c) := by
  induction h with
  | nil => rfl
  | cons c cs ih => simp [expandHex, ih]

/-- hexToBinary returns a value exactly on hex strings. -/
theorem hexToBinary_eq_ok {h out : List Byte} :
    hexToBinary h = .ok out ↔ (∀ c ∈ h, isHex c = true) ∧ out = expandHex h := by
  unfold hexToBinary
  split
  · next i hi =>
    have : ¬ ∀ c ∈ h, isHex c = true := fun hall => by
      rw [findIdx?_bad_none.mpr hall] at hi; simp at hi
    simp [this]
  · next hi =>
    exact ⟨fun h' => ⟨findIdx?_bad_none.mp hi, (Except.ok.inj h').symm⟩, fun h' => by rw [h'.2]⟩

/-! ## binaryToHex (R103) -/

theorem packHex_length (b : List Byte) : (packHex b).length = b.length / 4 := by
  induction b using packHex.induct with
  | case1 a b c d t ih => simp only [packHex, List.length_cons, ih]; omega
  | case2 l h =>
    match l, h with
    | [], _ => rfl
    | [_], _ => simp [packHex]
    | [_, _], _ => simp [packHex]
    | [_, _, _], _ => simp [packHex]
    | _ :: _ :: _ :: _ :: _, h => exact absurd rfl (h _ _ _ _ _)

/-- Every character binaryToHex emits is hexch of a nibble (R101). -/
theorem mem_packHex {b : List Byte} {c : Byte} (h : c ∈ packHex b) : ∃ v < 16, c = hexch v := by
  induction b using packHex.induct with
  | case1 x y z w t ih =>
    rcases List.mem_cons.mp h with rfl | h
    · exact ⟨_, val_lt [x, y, z, w], rfl⟩
    · exact ih h
  | case2 l hl =>
    match l, hl with
    | [], _ => simp [packHex] at h
    | [_], _ => simp [packHex] at h
    | [_, _], _ => simp [packHex] at h
    | [_, _, _], _ => simp [packHex] at h
    | _ :: _ :: _ :: _ :: _, hl => exact absurd rfl (hl _ _ _ _ _)

/-- binaryToHex returns a value exactly on binary strings of whole nibbles. -/
theorem binaryToHex_eq_ok {b out : List Byte} :
    binaryToHex b = .ok out ↔
      b.length % 4 = 0 ∧ (∀ c ∈ b, isBin c = true) ∧ out = packHex b := by
  unfold binaryToHex
  split
  · next h => simp [h]
  · next h =>
    split
    · next i hi =>
      have : ¬ ∀ c ∈ b, isBin c = true := fun hall => by
        rw [findIdx?_bad_none.mpr hall] at hi; simp at hi
      simp [this]
    · next hi =>
      exact ⟨fun h' => ⟨not_not.mp h, findIdx?_bad_none.mp hi, (Except.ok.inj h').symm⟩,
        fun h' => by rw [h'.2.2]⟩

end Sys2Proof.Machine
end

