-- ==== Sys2Proof/Laws/Checksum.lean ====
section
/-!
SUPPORT. What the checksum functions do (41_checksum.md R120 to R126): lengths, bounds, and when each returns a
value.
-/

namespace Sys2Proof.Machine

/-! ## Padding and blocks (R120, R121) -/

/-- The padded length is a multiple of the block size. -/
theorem pad_length_mod (d : List Byte) {b : Nat} (hb : 0 < b) : (pad d b).length % b = 0 := by
  have hlt := Nat.mod_lt d.length hb
  have hmod := Nat.div_add_mod d.length b
  simp only [pad, List.length_append, List.length_replicate]
  rcases Nat.eq_zero_or_pos (d.length % b) with h0 | h0
  · simp [h0]
  · rw [Nat.mod_eq_of_lt (show b - d.length % b < b by omega)]
    have : b - d.length % b + d.length = b * (d.length / b + 1) := by
      rw [Nat.mul_add]; omega
    rw [this]; simp

@[simp] theorem blocks_length (d : List Byte) (b : Nat) :
    (blocks d b).length = (pad d b).length / b := by simp [blocks]

/-- Every block is a b-bit value (R121). -/
theorem block_lt {d : List Byte} {b x : Nat} (h : x ∈ blocks d b) : x < 2 ^ b := by
  simp only [blocks, List.mem_map, List.mem_range] at h
  obtain ⟨i, _, rfl⟩ := h
  refine lt_of_lt_of_le (val_lt _) (Nat.pow_le_pow_right (by omega) ?_)
  simp

/-! ## computeChecksum and verifyChecksum (R125, R126) -/

theorem checkBinary_eq_ok {d : List Byte} {b : Nat} :
    checkBinary d b = .ok () ↔ b ≠ 0 ∧ d ≠ [] ∧ ∀ c ∈ d, isBin c = true := by
  unfold checkBinary
  split
  · next h => simp [h]
  · next h =>
    split
    · next h' => simp [List.length_eq_zero_iff.mp h']
    · next h' =>
      split
      · next i hi =>
        have : ¬ ∀ c ∈ d, isBin c = true := fun hall => by
          rw [findIdx?_bad_none.mpr hall] at hi; simp at hi
        simp [this]
      · next hi =>
        exact ⟨fun _ => ⟨h, fun hd => h' (by rw [hd]; rfl), findIdx?_bad_none.mp hi⟩, fun _ => rfl⟩

theorem computeChecksum_eq_ok {d c : List Byte} {b : Nat} :
    computeChecksum d b = .ok c ↔
      (b ≠ 0 ∧ d ≠ [] ∧ ∀ c ∈ d, isBin c = true) ∧ c = bits b (onesComplement b (ocSum d b)) := by
  rw [← checkBinary_eq_ok]
  unfold computeChecksum
  cases checkBinary d b with
  | error e => simp
  | ok u => simp [eq_comm]

theorem verifyChecksum_eq_ok {d : List Byte} {b : Nat} {r : Bool} :
    verifyChecksum d b = .ok r ↔
      (b ≠ 0 ∧ d ≠ [] ∧ ∀ c ∈ d, isBin c = true) ∧
        r = decide (onesComplement b (ocSum d b) = 0) := by
  rw [← checkBinary_eq_ok]
  unfold verifyChecksum
  cases checkBinary d b with
  | error e => simp
  | ok u => simp [eq_comm]

/-- A checksum in either form has as many characters as its field (R80, R130). -/
theorem formedChecksum_length {d c : List Byte} {b : Nat} {xf : Bool}
    (h : formedChecksum d b xf = .ok c) : c.length = checksumChars xf b := by
  unfold formedChecksum at h
  split at h
  · simp at h
  · next c' hc =>
    have hlen : c'.length = b := by rw [(computeChecksum_eq_ok.mp hc).2, bits_length]
    cases xf
    · simp only [checksumForm, Bool.false_eq_true, if_false, Except.ok.injEq] at h
      simp [checksumChars, ← h, hlen]
    · simp only [checksumForm, if_true] at h
      simp [checksumChars, (binaryToHex_eq_ok.mp h).2.2, packHex_length, hlen]

/-- A checksum of a legal block size exists in the form asked for whenever the data is a nonempty binary
string (R155: "cannot raise here"). -/
theorem formedChecksum_ok {d : List Byte} {b : Nat} {xf : Bool} (hb : b ≠ 0)
    (hx : xf = true → b % 4 = 0) (hd : d ≠ []) (hbin : ∀ c ∈ d, isBin c = true) :
    ∃ c, formedChecksum d b xf = .ok c := by
  have hc : computeChecksum d b = .ok (bits b (onesComplement b (ocSum d b))) :=
    computeChecksum_eq_ok.mpr ⟨⟨hb, hd, hbin⟩, rfl⟩
  unfold formedChecksum
  rw [hc]
  cases xf
  · exact ⟨_, rfl⟩
  · exact ⟨_, binaryToHex_eq_ok.mpr ⟨by simpa using hx rfl, fun c => isBin_of_mem_bits, rfl⟩⟩

end Sys2Proof.Machine
end

