-- ==== Sys2Proof/Laws/Decode.lean ====
section
/-!
SUPPORT. The fields of an assembled command word (30_encoding.md R80): each reads back what was put in.
-/

namespace Sys2Proof

section

variable (op : Byte) (ck xf ap tm vf : Bool) (b : Nat)

/-- Each bit of an assembled word (R80). -/
theorem cmdWord_getLsbD (i : Nat) :
    (cmdWord op ck xf ap tm vf b).getLsbD i =
      if i < 8 then op.getLsbD i
      else if i = 8 then ck
      else if i = 9 then xf
      else if i = 10 then ap
      else if i = 11 then tm
      else if i = 12 then vf
      else if i < 16 then false
      else (BitVec.ofNat 16 b).getLsbD (i - 16) := by
  show BitVec.getLsbD (w := 16 + 3 + 1 + 1 + 1 + 1 + 1 + 8)
    (BitVec.ofNat 16 b ++ 0#3 ++ BitVec.ofBool vf ++ BitVec.ofBool tm ++ BitVec.ofBool ap ++
      BitVec.ofBool xf ++ BitVec.ofBool ck ++ op) i = _
  simp only [BitVec.getLsbD_append, BitVec.getLsbD_ofBool]
  by_cases h : i < 16
  · interval_cases i <;> simp
  · simp only [show ¬ i < 8 by omega, show ¬ i - 8 < 1 by omega, show ¬ i - 8 - 1 < 1 by omega,
      show ¬ i - 8 - 1 - 1 < 1 by omega, show ¬ i - 8 - 1 - 1 - 1 < 1 by omega,
      show ¬ i - 8 - 1 - 1 - 1 - 1 < 1 by omega, show ¬ i - 8 - 1 - 1 - 1 - 1 - 1 < 3 by omega,
      show i ≠ 8 by omega, show i ≠ 9 by omega, show i ≠ 10 by omega, show i ≠ 11 by omega,
      show i ≠ 12 by omega, h, if_false]
    congr 1

@[simp] theorem cmdOp_cmdWord : cmdOp (cmdWord op ck xf ap tm vf b) = op := by
  apply BitVec.eq_of_getLsbD_eq
  intro i hi
  rw [cmdOp, BitVec.getLsbD_extractLsb', Nat.zero_add, cmdWord_getLsbD]
  simp [hi]

@[simp] theorem cmdCk_cmdWord : cmdCk (cmdWord op ck xf ap tm vf b) = ck := cmdWord_getLsbD ..

@[simp] theorem cmdXf_cmdWord : cmdXf (cmdWord op ck xf ap tm vf b) = xf := cmdWord_getLsbD ..

@[simp] theorem cmdAp_cmdWord : cmdAp (cmdWord op ck xf ap tm vf b) = ap := cmdWord_getLsbD ..

@[simp] theorem cmdTm_cmdWord : cmdTm (cmdWord op ck xf ap tm vf b) = tm := cmdWord_getLsbD ..

@[simp] theorem cmdVf_cmdWord : cmdVf (cmdWord op ck xf ap tm vf b) = vf := cmdWord_getLsbD ..

/-- BSZ reads back when it fits its field. -/
theorem cmdBsz_cmdWord (h : b < 65536) : cmdBsz (cmdWord op ck xf ap tm vf b) = b := by
  have : (cmdWord op ck xf ap tm vf b).extractLsb' 16 16 = BitVec.ofNat 16 b := by
    apply BitVec.eq_of_getLsbD_eq
    intro i hi
    rw [BitVec.getLsbD_extractLsb', cmdWord_getLsbD]
    simp [hi, show ¬ 16 + i < 8 by omega, show 16 + i ≠ 8 by omega, show 16 + i ≠ 9 by omega,
      show 16 + i ≠ 10 by omega, show 16 + i ≠ 11 by omega, show 16 + i ≠ 12 by omega]
  rw [cmdBsz, this, BitVec.toNat_ofNat, Nat.mod_eq_of_lt h]

/-- FLAGS of an assembled word: the five flags, RSV 0. -/
theorem cmdFlags_cmdWord :
    cmdFlags (cmdWord op ck xf ap tm vf b) =
      0#3 ++ BitVec.ofBool vf ++ BitVec.ofBool tm ++ BitVec.ofBool ap ++ BitVec.ofBool xf ++
        BitVec.ofBool ck := by
  apply BitVec.eq_of_getLsbD_eq
  intro i hi
  rw [cmdFlags, BitVec.getLsbD_extractLsb', cmdWord_getLsbD]
  interval_cases i <;> cases ck <;> cases xf <;> cases ap <;> cases tm <;> cases vf <;> rfl

end

end Sys2Proof
end

