-- ==== Sys2Proof/Laws/Pixel.lean ====
section
/-!
SUPPORT. What the frame codec's functions do (42_pixel_frame.md): lengths of what is encoded, where a decoded record
lies, what a round of the frame loop does, and that the loop never runs out of fuel.
-/

namespace Sys2Proof.Machine

/-! ## Encoding (R152 to R157) -/

theorem enc2_length {fb : Bool} {v : Nat} {x : List Byte} (h : enc2 fb v = some x) :
    x.length = 2 := by
  unfold enc2 at h
  split at h
  · simp [← Option.some.inj h]
  · split at h
    · simp at h
    · simp [← Option.some.inj h]

theorem encodeFields_length {fb : Bool} {i : Nat} {vs : List Nat} {f : List Byte}
    (h : encodeFields fb i vs = .ok f) : f.length = 2 * vs.length := by
  induction vs generalizing i f with
  | nil => simp [encodeFields] at h; simp [h]
  | cons v vs ih =>
    unfold encodeFields at h
    split at h
    · simp at h
    · next x hx =>
      split at h
      · simp at h
      · next xs hxs => simp [← Except.ok.inj h, enc2_length hx, ih hxs]; omega

/-- A record is its ten field characters and the separator (R154). -/
theorem encodePixel_eq_ok {fb : Bool} {row col : Nat} {v : Rgb} {r : List Byte}
    (h : encodePixel fb row col v = .ok r) :
    row < 16 ∧ col < 16 ∧ ∃ f, f.length = 10 ∧ r = f ++ [Config.pixelSep] ∧
      encodeFields fb 0 [row, col, v.red.toNat, v.green.toNat, v.blue.toNat] = .ok f := by
  unfold encodePixel at h
  split at h
  · simp at h
  · split at h
    · simp at h
    · split at h
      · simp at h
      · next f hf =>
        refine ⟨by omega, by omega, f, ?_, (Except.ok.inj h).symm, hf⟩
        simpa using encodeFields_length hf

/-- A trailer has the characters of its form (R155). -/
theorem trailer_length {f t : List Byte} {b : Nat} {xf : Bool} (h : trailer f b xf = .ok t) :
    t.length = checksumChars xf b := by
  unfold trailer at h
  split at h
  · simp at h
  · exact formedChecksum_length h

/-- A record with its trailer has 11 + T characters (R156, R157). -/
theorem encodeRecord_length {fb ck xf : Bool} {b row col : Nat} {v : Rgb} {r : List Byte}
    (h : encodeRecord fb ck xf b row col v = .ok r) :
    r.length = 11 + trailerChars ck xf b := by
  unfold encodeRecord at h
  split at h
  · simp at h
  · next r' hr' =>
    obtain ⟨-, -, f, hf, rfl, -⟩ := encodePixel_eq_ok hr'
    cases ck
    · simp [← Except.ok.inj h, hf, trailerChars]
    · simp only [if_true, encodeChecksum] at h
      split at h
      · simp at h
      · next t ht =>
        rw [← Except.ok.inj h]
        simp [hf, trailer_length ht, trailerChars]; omega

theorem encodeCells_length {fb ck xf : Bool} {b i : Nat} {vs : List Rgb} {out : List Byte}
    (h : encodeCells fb ck xf b i vs = .ok out) :
    out.length = vs.length * (11 + trailerChars ck xf b) := by
  induction vs generalizing i out with
  | nil => simp [encodeCells] at h; simp [h]
  | cons v vs ih =>
    unfold encodeCells at h
    split at h
    · simp at h
    · next r hr =>
      split at h
      · simp at h
      · next rs hrs =>
        rw [← Except.ok.inj h, List.length_append, encodeRecord_length hr, ih hrs, List.length_cons,
          Nat.succ_mul, Nat.add_comm]

/-- A frame of the whole matrix has 256 records and the terminator (R157). -/
theorem encodeMatrix_length {m : Matrix} {fb ck xf : Bool} {b : Nat} {out : List Byte}
    (h : encodeMatrix m fb ck xf b = .ok out) :
    out.length = 256 * (11 + trailerChars ck xf b) + 1 := by
  unfold encodeMatrix at h
  split at h
  · simp at h
  · next o ho => rw [← Except.ok.inj h, List.length_append, encodeCells_length ho]; simp

/-! ## Where a record lies (R158) -/

theorem separatorAt_lt {l : List Byte} {k : Nat} (h : separatorAt l = some k) : k < l.length := by
  induction l generalizing k with
  | nil => simp [separatorAt] at h
  | cons c cs ih =>
    unfold separatorAt at h
    split at h
    · simp at h; simp [← h]
    · split at h
      · simp at h
      · obtain ⟨k', hk', rfl⟩ := Option.map_eq_some_iff.mp h
        simpa using ih hk'

/-- A decoded record ends after its separator, inside the input, its trailer between the ten field characters and the
separator (R150, R158). -/
theorem decodeAt_eq_ok {fb : Bool} {p : Nat} {rest : List Byte} {r : Record}
    (h : decodeAt fb p rest = .ok r) :
    r.next ≤ p + rest.length ∧ r.toff = p + 10 ∧ r.next = p + 11 + r.tlen := by
  unfold decodeAt at h
  split at h
  · simp at h
  · next k hk =>
    have := separatorAt_lt hk
    split at h
    · simp at h
    · split at h
      · simp at h
      · split at h
        · split at h
          · have := (Except.ok.inj h).symm; subst this; refine ⟨?_, rfl, ?_⟩ <;> simp only <;> omega
          · simp at h
        · simp at h

/-! ## The frame loop (R161) -/

/-- Fuel above the number of characters left never runs out: any two such amounts give the same end. -/
theorem frameLoop_fuel (fb : Bool) (f g p : Nat) (rest : List Byte) (cnt : Nat) (m : Matrix)
    (hf : rest.length < f) (hg : rest.length < g) :
    frameLoop fb f p rest cnt m = frameLoop fb g p rest cnt m := by
  induction f generalizing g p rest cnt m with
  | zero => omega
  | succ f ih =>
    obtain ⟨g, rfl⟩ := Nat.exists_eq_add_one_of_ne_zero (show g ≠ 0 by omega)
    cases rest with
    | nil => rfl
    | cons c cs =>
      simp only [frameLoop]
      split
      · rfl
      · cases hr : decodeAt fb p (c :: cs) with
        | error e => simp only
        | ok r =>
          have hb := decodeAt_eq_ok hr
          simp only [List.length_cons] at hf hg
          have hlen : ((c :: cs).drop (r.next - p)).length ≤ cs.length := by
            rw [List.length_drop, List.length_cons]; omega
          exact ih g _ _ _ _ (by omega) (by omega)

/-- A round of the loop: a decodable record is applied and the loop goes on behind it. -/
theorem frameLoop_record {fb : Bool} {f p : Nat} {c : Byte} {cs : List Byte} {cnt : Nat} {m : Matrix}
    {r : Record} (hc : c ≠ Config.frameTerm) (hr : decodeAt fb p (c :: cs) = .ok r) :
    frameLoop fb (f + 1) p (c :: cs) cnt m =
      frameLoop fb f r.next ((c :: cs).drop (r.next - p)) (cnt + 1) (matrixWrite m r.row r.col r.rgb) := by
  simp only [frameLoop, if_neg hc, hr]

end Sys2Proof.Machine
end

