-- ==== Sys2Proof/Laws/Exec.lean ====
section
/-!
SUPPORT. What a command can do, said once: `exec_cases`. Every later proof about all commands cites it instead of
unfolding the meanings.
-/

namespace Sys2Proof.Machine

/-- The ways a command ends (30_encoding.md R85, 60_exceptions.md R194, R195). -/
inductive Ends (s : State) : Instr → State → Prop where
  /-- An error with nothing written. -/
  | raised (i : Instr) (e : Err) (pos : Nat) : Ends s i (s.raise e pos)
  /-- Output committed within OBUF_BYTES (HEX2BIN, BIN2HEX, CKCOMP, PIXENC, MATRIXENC). -/
  | output (i : Instr) (start : Nat) (out : List Byte)
      (hi : match i with
        | .hex2bin _ => start = 0
        | .bin2hex _ => start = 0
        | .ckcomp _ _ => start = 0
        | .pixenc _ _ ap _ _ => start = s.appendFrom ap
        | .matrixenc _ _ _ => start = 0
        | _ => False)
      (hfit : start + out.length ≤ s.caps.obufBytes) :
      Ends s i ((s.commitOutput start out).complete false)
  /-- CKVERIFY of a payload that verifies. -/
  | verified (b : Nat) : Ends s (.ckverify b) (s.complete true)
  /-- RECDEC of a record whose trailer it does not verify, or that verifies. -/
  | surfaced (xf vf : Bool) (b : Nat) (r : Record) : Ends s (.recdec xf vf b) ((s.surface r).complete vf)
  /-- RECDEC of a record that does not verify. -/
  | mismatch (xf : Bool) (b : Nat) (r : Record) :
      Ends s (.recdec xf true b) ((s.surface r).raise .checksumMismatch s.iptr.toNat)
  /-- FRAMEAPPLY, to the frame's end. -/
  | applied (b next count : Nat) (m : Matrix) :
      Ends s (.frameapply b) ((s.applied next count m).complete false)
  /-- FRAMEAPPLY, to a record it cannot decode. -/
  | stopped (b : Nat) (e : EngineError) (next count : Nat) (m : Matrix) :
      Ends s (.frameapply b) ((s.applied next count m).raise e.err e.pos)

theorem State.readInput_length {s : State} {t : List Byte} (h : s.readInput = some t) :
    t.length = s.ilen.toNat := by
  have := readAll_eq_some.mp h
  have hl := congrArg List.length this
  simpa [State.inputFrom] using hl.symm

/-- What the record commands read: the characters of IBUF[IPTR:ILEN), none if one of them is unwritten (R85, R211). -/
theorem State.readRest_eq_some {s : State} {t : List Byte} :
    s.readRest = some t ↔
      s.ibuf.readFrom s.iptr.toNat (s.ilen.toNat - s.iptr.toNat) = t.map some := readAll_eq_some

theorem State.readRest_eq_none {s : State} :
    s.readRest = none ↔ ∃ i, s.iptr.toNat ≤ i ∧ i < s.ilen.toNat ∧ s.ibuf.read i = none := by
  simpa [State.readRest, State.inputFrom] using readAll_readFrom_eq_none s.ibuf s.iptr.toNat s.ilen.toNat

/-- What the string commands read: none exactly if a byte below ILEN is unwritten (R85, R211). -/
theorem State.readInput_eq_none {s : State} :
    s.readInput = none ↔ ∃ i < s.ilen.toNat, s.ibuf.read i = none := by
  simpa [State.readInput, State.inputFrom] using readAll_readFrom_eq_none s.ibuf 0 s.ilen.toNat

/-- An output command's end is an error or a commit that fits. -/
theorem Ends.of_finishOutput {s : State} {i : Instr} {start : Nat} {r : Except EngineError (List Byte)}
    (hi : match i with
        | .hex2bin _ => start = 0
        | .bin2hex _ => start = 0
        | .ckcomp _ _ => start = 0
        | .pixenc _ _ ap _ _ => start = s.appendFrom ap
        | .matrixenc _ _ _ => start = 0
        | _ => False)
    (hfit : ∀ out, r = .ok out → start + out.length ≤ s.caps.obufBytes) :
    Ends s i (s.finishOutput start r) := by
  cases r with
  | error e => exact .raised i e.err e.pos
  | ok out => exact .output i start out hi (hfit out rfl)

theorem execHex2bin_cases {b : Nat} {s t : State} (h : execHex2bin b s = .next t) :
    Ends s (.hex2bin b) t := by
  simp only [execHex2bin] at h
  split at h
  · exact (Host.Outcome.next.inj h) ▸ .raised _ _ _
  · split at h
    · exact (Host.Outcome.next.inj h) ▸ .raised _ _ _
    · split at h
      · simp at h
      · next hcap _ hs hr =>
        refine (Host.Outcome.next.inj h) ▸ .of_finishOutput rfl fun out ho => ?_
        rw [(hexToBinary_eq_ok.mp ho).2, expandHex_length, State.readInput_length hr]
        omega

theorem execBin2hex_cases {b : Nat} {s t : State} (h : execBin2hex b s = .next t) :
    Ends s (.bin2hex b) t := by
  simp only [execBin2hex] at h
  split at h
  · exact (Host.Outcome.next.inj h) ▸ .raised _ _ _
  · split at h
    · exact (Host.Outcome.next.inj h) ▸ .raised _ _ _
    · split at h
      · exact (Host.Outcome.next.inj h) ▸ .raised _ _ _
      · split at h
        · simp at h
        · next hr =>
          refine (Host.Outcome.next.inj h) ▸ .of_finishOutput rfl fun out ho => ?_
          rw [(binaryToHex_eq_ok.mp ho).2.2, packHex_length, State.readInput_length hr]
          omega

theorem execCkcomp_cases {xf : Bool} {b : Nat} {s t : State} (h : execCkcomp xf b s = .next t) :
    Ends s (.ckcomp xf b) t := by
  simp only [execCkcomp] at h
  split at h
  · exact (Host.Outcome.next.inj h) ▸ .raised _ _ _
  · split at h
    · exact (Host.Outcome.next.inj h) ▸ .raised _ _ _
    · split at h
      · exact (Host.Outcome.next.inj h) ▸ .raised _ _ _
      · split at h
        · exact (Host.Outcome.next.inj h) ▸ .raised _ _ _
        · split at h
          · exact (Host.Outcome.next.inj h) ▸ .raised _ _ _
          · split at h
            · simp at h
            · refine (Host.Outcome.next.inj h) ▸ .of_finishOutput rfl fun out ho => ?_
              rw [formedChecksum_length ho]
              omega

theorem execCkverify_cases {b : Nat} {s t : State} (h : execCkverify b s = .next t) :
    Ends s (.ckverify b) t := by
  simp only [execCkverify] at h
  split at h
  · exact (Host.Outcome.next.inj h) ▸ .raised _ _ _
  · split at h
    · exact (Host.Outcome.next.inj h) ▸ .raised _ _ _
    · split at h
      · exact (Host.Outcome.next.inj h) ▸ .raised _ _ _
      · split at h
        · simp at h
        · split at h
          · exact (Host.Outcome.next.inj h) ▸ .raised _ _ _
          · exact (Host.Outcome.next.inj h) ▸ .raised _ _ _
          · exact (Host.Outcome.next.inj h) ▸ .verified _

/-- PIXENC's output fits where it is put (R169). -/
theorem pixencOutput_fits {ck xf ap tm : Bool} {b : Nat} {s : State} {out : List Byte}
    (h : pixencOutput ck xf ap tm b s = .ok out) :
    s.appendFrom ap + out.length ≤ s.caps.obufBytes := by
  simp only [pixencOutput] at h
  split at h
  · simp at h
  · split at h
    · simp at h
    · split at h
      · simp at h
      · next hcap =>
        split at h
        · simp at h
        · next r hr =>
          rw [← Except.ok.inj h, List.length_append, encodeRecord_length hr]
          omega

theorem execPixenc_cases {ck xf ap tm : Bool} {b : Nat} {s t : State}
    (h : execPixenc ck xf ap tm b s = .next t) : Ends s (.pixenc ck xf ap tm b) t :=
  (Host.Outcome.next.inj h) ▸ .of_finishOutput rfl fun _ ho => pixencOutput_fits ho

theorem execRecdec_cases {xf vf : Bool} {b : Nat} {s t : State} (h : execRecdec xf vf b s = .next t) :
    Ends s (.recdec xf vf b) t := by
  simp only [execRecdec] at h
  split at h
  · exact (Host.Outcome.next.inj h) ▸ .raised _ _ _
  · split at h
    · exact (Host.Outcome.next.inj h) ▸ .raised _ _ _
    · split at h
      · exact (Host.Outcome.next.inj h) ▸ .raised _ _ _
      · split at h
        · exact (Host.Outcome.next.inj h) ▸ .raised _ _ _
        · split at h
          · simp at h
          · split at h
            · exact (Host.Outcome.next.inj h) ▸ .raised _ _ _
            · next r _ =>
              cases vf
              · exact (Host.Outcome.next.inj h) ▸ .surfaced xf false b r
              · simp only [if_true] at h
                split at h
                · exact (Host.Outcome.next.inj h) ▸ .raised _ _ _
                · exact (Host.Outcome.next.inj h) ▸ .mismatch xf b r
                · exact (Host.Outcome.next.inj h) ▸ .surfaced xf true b r

theorem execFrameapply_cases {b : Nat} {s t : State} (h : execFrameapply b s = .next t) :
    Ends s (.frameapply b) t := by
  simp only [execFrameapply] at h
  split at h
  · exact (Host.Outcome.next.inj h) ▸ .raised _ _ _
  · split at h
    · exact (Host.Outcome.next.inj h) ▸ .raised _ _ _
    · split at h
      · simp at h
      · split at h
        · exact (Host.Outcome.next.inj h) ▸ .applied _ _ _ _
        · exact (Host.Outcome.next.inj h) ▸ .stopped _ _ _ _ _

/-- MATRIXENC's output fits (R172). -/
theorem matrixencOutput_fits {ck xf : Bool} {b : Nat} {s : State} {out : List Byte}
    (h : matrixencOutput ck xf b s = .ok out) : out.length ≤ s.caps.obufBytes := by
  simp only [matrixencOutput] at h
  split at h
  · simp at h
  · split at h
    · simp at h
    · split at h
      · simp at h
      · rw [encodeMatrix_length h]; omega

theorem execMatrixenc_cases {ck xf : Bool} {b : Nat} {s t : State}
    (h : execMatrixenc ck xf b s = .next t) : Ends s (.matrixenc ck xf b) t :=
  (Host.Outcome.next.inj h) ▸ .of_finishOutput rfl fun _ ho => by
    simpa using matrixencOutput_fits ho

/-- Everything a command can do when it answers a next state. -/
theorem exec_cases {i : Instr} {s t : State} (h : exec i s = .next t) : Ends s i t := by
  cases i with
  | hex2bin b => exact execHex2bin_cases h
  | bin2hex b => exact execBin2hex_cases h
  | ckcomp xf b => exact execCkcomp_cases h
  | ckverify b => exact execCkverify_cases h
  | pixenc ck xf ap tm b => exact execPixenc_cases h
  | recdec xf vf b => exact execRecdec_cases h
  | frameapply b => exact execFrameapply_cases h
  | matrixenc ck xf b => exact execMatrixenc_cases h

end Sys2Proof.Machine
end

