-- ==== Sys2Proof/Laws/PerInstr.lean ====
section
/-!
SUPPORT. What is said of every command as syntax, one lemma per constructor. Family OpcodeRow: the word of a
command has its row's OP and only flags the row permits (30_encoding.md R82 to R84).
-/

namespace Sys2Proof.Laws.OpcodeRow

/-- The row of R84 a command belongs to. -/
def rowOf : Instr → Sys2Proof.OpcodeRow
  | .hex2bin _ => ⟨"HEX2BIN", 0x01#8, 0x00#8⟩
  | .bin2hex _ => ⟨"BIN2HEX", 0x02#8, 0x00#8⟩
  | .ckcomp _ _ => ⟨"CKCOMP", 0x03#8, 0x02#8⟩
  | .ckverify _ => ⟨"CKVERIFY", 0x04#8, 0x00#8⟩
  | .pixenc _ _ _ _ _ => ⟨"PIXENC", 0x05#8, 0x0F#8⟩
  | .recdec _ _ _ => ⟨"RECDEC", 0x06#8, 0x12#8⟩
  | .frameapply _ => ⟨"FRAMEAPPLY", 0x07#8, 0x00#8⟩
  | .matrixenc _ _ _ => ⟨"MATRIXENC", 0x08#8, 0x03#8⟩

/-- Its row is one of the map's, its word has that row's OP, and no flag outside the permitted ones. -/
def Statement (i : Instr) : Prop :=
  rowOf i ∈ opcodeMap ∧ cmdOp (encode i) = (rowOf i).op ∧
    cmdFlags (encode i) &&& ~~~(rowOf i).permitted = 0#8

theorem hex2bin (b : Nat) : Statement (.hex2bin b) := by
  refine ⟨by simp [rowOf, opcodeMap], cmdOp_cmdWord .., ?_⟩
  rw [encode, cmdFlags_cmdWord, rowOf]; decide

theorem bin2hex (b : Nat) : Statement (.bin2hex b) := by
  refine ⟨by simp [rowOf, opcodeMap], cmdOp_cmdWord .., ?_⟩
  rw [encode, cmdFlags_cmdWord, rowOf]; decide

theorem ckcomp (xf : Bool) (b : Nat) : Statement (.ckcomp xf b) := by
  refine ⟨by simp [rowOf, opcodeMap], cmdOp_cmdWord .., ?_⟩
  rw [encode, cmdFlags_cmdWord, rowOf]; cases xf <;> decide

theorem ckverify (b : Nat) : Statement (.ckverify b) := by
  refine ⟨by simp [rowOf, opcodeMap], cmdOp_cmdWord .., ?_⟩
  rw [encode, cmdFlags_cmdWord, rowOf]; decide

theorem pixenc (ck xf ap tm : Bool) (b : Nat) : Statement (.pixenc ck xf ap tm b) := by
  refine ⟨by simp [rowOf, opcodeMap], cmdOp_cmdWord .., ?_⟩
  rw [encode, cmdFlags_cmdWord, rowOf]; cases ck <;> cases xf <;> cases ap <;> cases tm <;> decide

theorem recdec (xf vf : Bool) (b : Nat) : Statement (.recdec xf vf b) := by
  refine ⟨by simp [rowOf, opcodeMap], cmdOp_cmdWord .., ?_⟩
  rw [encode, cmdFlags_cmdWord, rowOf]; cases xf <;> cases vf <;> decide

theorem frameapply (b : Nat) : Statement (.frameapply b) := by
  refine ⟨by simp [rowOf, opcodeMap], cmdOp_cmdWord .., ?_⟩
  rw [encode, cmdFlags_cmdWord, rowOf]; decide

theorem matrixenc (ck xf : Bool) (b : Nat) : Statement (.matrixenc ck xf b) := by
  refine ⟨by simp [rowOf, opcodeMap], cmdOp_cmdWord .., ?_⟩
  rw [encode, cmdFlags_cmdWord, rowOf]; cases ck <;> cases xf <;> decide

end Sys2Proof.Laws.OpcodeRow
end

