-- ==== Sys2Proof/Tests/Slice0.lean ====
section
/-!
SUPPORT. Tests. Expected results come from spec/30_encoding.md R92 and spec/95_test_vectors.md (the vector is named
beside each), or are worked out by hand from the rules. The `witness_` theorems show, for each obligation with
hypotheses, a state and operands that meet them together.
-/

namespace Sys2Proof.Tests

open Sys2Proof Sys2Proof.Machine

/-! ## Small states -/

/-- A block of the given capacities, both at least 1. -/
def capsOf (i o : Fin 65536) : Capacities where
  ibufBytes := i.val + 1
  obufBytes := o.val + 1
  ibufBytes_range := by omega
  obufBytes_range := by omega

/-- The largest block, right after reset. -/
def big : State := State.resetWith (capsOf 65535 65535)

/-- The largest block with `t` loaded into IBUF (R91 LOAD). -/
def loaded (t : String) : State :=
  { big with ibuf := cellsFrom 0 (ascii t), ilen := BitVec.ofNat 32 (ascii t).length }

/-- The largest block with a pixel in its registers. -/
def withPixel (row col r g b : Byte) : State :=
  { big with pixRow := row, pixCol := col, pixRgb := ⟨r, g, b⟩ }

/-- What a command leaves, as (STATUS, ERRPOS, what `f` reads); none if it stops. -/
def after {α : Type} (i : Instr) (s : State) (f : State → α) : Option (Word × Word × α) :=
  match exec i s with
  | .next t => some (t.statusWord, t.errpos, f t)
  | .fault _ => none
  | .refused _ => none

/-- Whether an outcome is a next state. -/
def isNext : Out → Bool
  | .next _ => true
  | .fault _ => false
  | .refused _ => false

/-! ## Well-formedness -/

theorem test_wellFormed_refuses_wide_bsz : ¬ (Instr.ckcomp true 65536).WellFormed := by decide
theorem test_wellFormed_accepts_widest_bsz : (Instr.ckcomp true 65535).WellFormed := by decide

/-! ## Decoding: one word for every row, BSZ, RSV, VF, TM, AP, XF, CK and OP written out bit by bit -/

theorem test_decode_hex2bin :
    decode 0b0000000000000000_000_0_0_0_0_0_00000001#32 = .ok (.hex2bin 0) := by decide
theorem test_decode_bin2hex :
    decode 0b0000000000000000_000_0_0_0_0_0_00000010#32 = .ok (.bin2hex 0) := by decide
theorem test_decode_ckcomp :
    decode 0b0000000000001000_000_0_0_0_1_0_00000011#32 = .ok (.ckcomp true 8) := by decide
theorem test_decode_ckverify :
    decode 0b0000000000100000_000_0_0_0_0_0_00000100#32 = .ok (.ckverify 32) := by decide
theorem test_decode_pixenc_ck_xf :
    decode 0b0000000000001000_000_0_0_0_1_1_00000101#32 = .ok (.pixenc true true false false 8) := by decide
theorem test_decode_pixenc_ap_tm :
    decode 0b0000000000000000_000_0_1_1_0_0_00000101#32 = .ok (.pixenc false false true true 0) := by decide
theorem test_decode_recdec :
    decode 0b0000000000001000_000_1_0_0_1_0_00000110#32 = .ok (.recdec true true 8) := by decide
theorem test_decode_frameapply :
    decode 0b0000000000000000_000_0_0_0_0_0_00000111#32 = .ok (.frameapply 0) := by decide
theorem test_decode_matrixenc :
    decode 0b1000000000000001_000_0_0_0_0_1_00001000#32 = .ok (.matrixenc true false 32769) := by decide
theorem test_decode_rsv : decode 0b0000000000000000_001_0_0_0_0_0_00000011#32 = .error .unpermittedFlag := by
  decide
theorem test_decode_opcode9 : decode 0b0000000000000000_000_0_0_0_0_0_00001001#32 = .error .unknownOpcode := by
  decide
theorem test_decode_opcode0 : decode 0#32 = .error .unknownOpcode := by decide

/-- R83, R84: the masks as the spec's table prints them. -/
theorem test_masks : opcodeMap.map OpcodeRow.mask =
    [0xFFFF#32, 0xFFFF#32, 0xFDFF#32, 0xFFFF#32, 0xF0FF#32, 0xEDFF#32, 0xFFFF#32, 0xFCFF#32] := by decide

/-! ## The first step after reset runs the word (log entry 8) -/

theorem test_fetch_hex2bin : isNext (step (State.reset.withFetchWord 32 0x00000001)) = true := by decide
theorem test_fetch_bin2hex : isNext (step (State.reset.withFetchWord 32 0x00000002)) = true := by decide
theorem test_fetch_ckcomp : isNext (step (State.reset.withFetchWord 32 0x00080203)) = true := by decide
theorem test_fetch_ckverify : isNext (step (State.reset.withFetchWord 32 0x00200004)) = true := by decide
theorem test_fetch_pixenc : isNext (step (State.reset.withFetchWord 32 0x00080F05)) = true := by decide
theorem test_fetch_recdec : isNext (step (State.reset.withFetchWord 32 0x00081206)) = true := by decide
theorem test_fetch_frameapply : isNext (step (State.reset.withFetchWord 32 0x00000007)) = true := by decide
theorem test_fetch_matrixenc : isNext (step (State.reset.withFetchWord 32 0x00080308)) = true := by decide
theorem test_fetch_table : decodeTableWord 32 0x00080305 = some (.pixenc true true false false 8) := by decide

/-! ## The commands (the vectors of spec/95_test_vectors.md sections 2.1 to 2.6) -/

/-- V-HX-1 -/
theorem test_hex2bin : after (.hex2bin 0) (loaded "f0f06e6e") State.output =
    some (0x00#32, 0#32, some (ascii "11110000111100000110111001101110")) := by decide
/-- V-HX-5 -/
theorem test_hex2bin_bad : after (.hex2bin 0) (loaded "1g") State.output = some (0x10#32, 1#32, some []) := by
  decide
/-- V-HX-9 -/
theorem test_bin2hex : after (.bin2hex 0) (loaded "11110000111100000110111001101110") State.output =
    some (0x00#32, 0#32, some (ascii "f0f06e6e")) := by decide
/-- V-HX-11 -/
theorem test_bin2hex_length : after (.bin2hex 0) (loaded "1x1") State.output =
    some (0x20#32, 3#32, some []) := by decide
/-- V-CK-2x -/
theorem test_ckcomp_carry : after (.ckcomp true 8) (loaded "10100101101001011010010110100101") State.output =
    some (0x00#32, 0#32, some (ascii "69")) := by decide
/-- V-CK-3 -/
theorem test_ckcomp_pad : after (.ckcomp false 4) (loaded "101") State.output =
    some (0x00#32, 0#32, some (ascii "1010")) := by decide
/-- V-CK-3v -/
theorem test_ckverify : after (.ckverify 4) (loaded "1011010") State.olen = some (0x02#32, 0#32, 0#32) := by
  decide
/-- V-CK-5v -/
theorem test_ckverify_zero : after (.ckverify 4) (loaded "0000") State.olen = some (0x40#32, 0#32, 0#32) := by
  decide
/-- V-PE-6 -/
theorem test_pixenc : after (.pixenc true true false false 16) (withPixel 0#8 3#8 25#8 50#8 25#8) State.output =
    some (0x00#32, 0#32, some (ascii "0003255025acb5,")) := by decide
/-- V-PE-19's second command, with AP and TM -/
theorem test_pixenc_append : after (.pixenc false false true true 0)
    { withPixel 0#8 1#8 4#8 5#8 6#8 with obuf := cellsFrom 0 (ascii "0000010203,"), olen := 11#32 } State.output =
    some (0x00#32, 0#32, some (ascii "0000010203,0001040506,\n")) := by decide
/-- V-FR-D8 -/
theorem test_recdec : after (.recdec true true 24) (loaded "0003255025daafd7,")
    (fun t => (t.readReg .pixpos, t.readReg .pixrgb, t.readReg .trail, t.iptr)) =
    some (0x02#32, 0#32, 0x00000300#32, 0x00193219#32, 0x0006000A#32, 17#32) := by decide
/-- V-FR-D10 -/
theorem test_recdec_mismatch : after (.recdec true true 8) (loaded "000325502563,")
    (fun t => (t.readReg .pixpos, t.readReg .pixrgb, t.readReg .trail, t.iptr)) =
    some (0x40#32, 0#32, 0x00000300#32, 0x00193219#32, 0x0002000A#32, 13#32) := by decide
/-- V-FA-11 -/
theorem test_frameapply : after (.frameapply 0) (loaded "000001020356,0001040506abcd,\n")
    (fun t => (t.reccnt, t.iptr, matrixRead t.matrix 0 0, matrixRead t.matrix 0 1)) =
    some (0x00#32, 0#32, 2#32, 29#32, ⟨1#8, 2#8, 3#8⟩, ⟨4#8, 5#8, 6#8⟩) := by decide
/-- V-FA-7 -/
theorem test_frameapply_stops : after (.frameapply 0) (loaded "0000010203,1600000000,0101090909,\n")
    (fun t => (t.reccnt, t.iptr, matrixRead t.matrix 0 0, matrixRead t.matrix 1 1)) =
    some (0x20#32, 11#32, 1#32, 11#32, ⟨1#8, 2#8, 3#8⟩, ⟨0#8, 0#8, 0#8⟩) := by decide
/-- As V-ME-5, with M[0][2] = (100,0,0): the first bad cell in row-major order, 16 * 0 + 2 -/
theorem test_matrixenc_bad_cell : after (.matrixenc false false 0)
    { big with matrix := matrixWrite (matrixWrite big.matrix 0 2 ⟨100#8, 0#8, 0#8⟩) 7 1 ⟨200#8, 0#8, 0#8⟩ }
    State.olen = some (0x20#32, 2#32, 0#32) := by decide
/-- The last two records of V-ME-2 -/
theorem test_encodeCells : encodeCells false true true 8 254 [⟨0#8, 0#8, 0#8⟩, ⟨0#8, 0#8, 0#8⟩] =
    .ok (ascii "1514000000d6,1515000000d5,") := by decide

/-! ## The bus (section 2.7) and the block's functions -/

/-- V-BUS-1 -/
theorem test_bus_little_endian :
    (busWrite32 big 0x10000#18 0x30663066#32).map (fun t => t.ibuf.read 0) = .ok (some 0x66#8) := by decide
/-- V-BUS-6 -/
theorem test_bus_unwritten : busRead8 big 0x10000#18 = .error .hostReadUnwritten := by decide
/-- R26, R34, R38 by hand: every field distinct -/
theorem test_bus_fields :
    busRead32 { big with pixRow := 1#8, pixCol := 2#8 } 0x18#18 = .ok 0x00000201#32 ∧
    busRead32 { big with toff := 1#16, tlen := 2#16 } 0x28#18 = .ok 0x00020001#32 ∧
    busRead32 { big with valid := true, err := .error .truncatedFrame, busy := true } 0x04#18 =
      .ok 0x00000033#32 := by decide
/-- V-BUS-12 -/
theorem test_bus_busy : busRead32 (big.issue 1#32) 0x14#18 = .error .hostWhileBusy := by decide
/-- V-BUS-13 -/
theorem test_bus_busy_status : busRead32 (big.issue 1#32) 0x04#18 = .ok 1#32 := by decide
/-- V-CK-7: a multiple of all ones stays all ones -/
theorem test_ocSum_all_ones : ocSum (ascii "0000111111110000") 8 = 255 := by decide
/-- R89's syntax with the words of R92 -/
theorem test_assemble : assemble "MATRIXENC CK,XF bsz=8" = some 0x00080308#32 := by decide

/-! ## Witnesses: command words, steps, completions -/

/-- The smallest block: one byte of IBUF, one of OBUF. -/
def tiny : State := State.resetWith (capsOf 0 0)

/-- The state an outcome leaves; `big` where it stops. -/
def stateOf : Out → State
  | .next t => t
  | .fault _ => big
  | .refused _ => big

theorem witness_DecodeOfEncodeIsInstr : (Instr.pixenc true true true true 65535).WellFormed := by decide

theorem witness_EncodeOfDecodeIsWord : decode 0xFFFF0F05#32 = .ok (.pixenc true true true true 65535) := by decide

theorem witness_WordDecodesIffRowSelects :
    (∃ i, decode 0x00080203#32 = .ok i) ∧
    ⟨"CKCOMP", 0x03#8, 0x02#8⟩ ∈ opcodeMap ∧ (⟨"CKCOMP", 0x03#8, 0x02#8⟩ : OpcodeRow).Selects 0x00080203#32 :=
  ⟨⟨.ckcomp true 8, by decide⟩, by decide, by decide⟩

theorem witness_IllegalCommandWritesOnlyStatus :
    decode (big.issue 0x2003#32).pcmd = .error .unpermittedFlag ∧
      decode (big.issue 0#32).pcmd = .error .unknownOpcode := by decide

theorem witness_EngineStepRunsDecodedCommand :
    ((big.issue 1#32).busy = true ∧ decode (big.issue 1#32).pcmd = .ok (.hex2bin 0) ∧
      (big.issue 1#32).turns = []) ∧
    { big.issue 1#32 with turns := [.engine] }.turns = .engine :: [] ∧
    ((big.issue 9#32).busy = true ∧ decode (big.issue 9#32).pcmd = .error .unknownOpcode ∧
      (big.issue 9#32).turns = [] ∧ { big.issue 9#32 with turns := [.engine] }.turns = .engine :: []) ∧
    { big with turns := [.engine] }.busy = false := by decide

theorem witness_CmdWriteIssuesCommand : big.busy = false ∧ big.awaiting = false := by decide

theorem witness_DoRunsCommandThenPolls :
    big.busy = false ∧ big.awaiting = false ∧ big.turns = [] ∧
    { big with host := hostDO 1#32 ++ [hostR .olen] }.host = hostDO 1#32 ++ [hostR .olen] ∧
    decode 1#32 = .ok (.hex2bin 0) ∧ decode 9#32 = .error .unknownOpcode ∧
    { big with host := hostDO 9#32 ++ [hostR .olen] }.host = hostDO 9#32 ++ [hostR .olen] ∧
    ∃ t, exec (.hex2bin 0)
      { { big with host := hostDO 1#32 ++ [hostR .olen] }.issue 1#32 with host := .poll :: [hostR .olen] } =
        .next t :=
  ⟨rfl, rfl, rfl, rfl, rfl, rfl, rfl, _, rfl⟩

theorem witness_EveryCommandCompletes_ready : (loaded "f0").OperandsReady (.hex2bin 0) := fun i _ hi =>
  (by decide : ∀ i < (loaded "f0").ilen.toNat, ((loaded "f0").ibuf.read i).isSome = true) i hi

theorem witness_EveryCommandCompletes_next :
    ∃ t, exec (.hex2bin 0) (loaded "f0") = .next t ∧ t.err = .ok := ⟨_, rfl, rfl⟩

theorem witness_EveryCommandCompletes_fault :
    exec (.hex2bin 0) { big with ilen := 1#32 } = .fault .engineReadUnwritten := rfl

theorem witness_ValidMeansVerified :
    (∃ t, exec (.ckverify 4) (loaded "1111") = .next t ∧ t.valid = true) ∧
    ∃ t, exec (.recdec true true 8) (loaded "000325502562,") = .next t ∧ t.valid = true :=
  ⟨⟨_, rfl, rfl⟩, _, rfl, rfl⟩

theorem witness_ErrorCommitsNoOutput :
    ∃ t, exec (.hex2bin 0) { loaded "1g" with obuf := [(0, 0x30#8)], olen := 1#32 } = .next t ∧
      t.err = .error .invalidCharacter := ⟨_, rfl, rfl⟩

/-- Every error R198 lists for a command, raised. -/
theorem witness_CommandRaisesOnlyItsErrors :
    ([(.hex2bin 0, loaded "1g", .invalidCharacter),
      (.hex2bin 0, { tiny with ilen := 2#32 }, .invalidArgument),
      (.bin2hex 0, loaded "1021", .invalidCharacter), (.bin2hex 0, loaded "101", .invalidArgument),
      (.ckcomp false 4, loaded "0120", .invalidCharacter), (.ckcomp false 0, loaded "1010", .invalidArgument),
      (.ckverify 4, loaded "0120", .invalidCharacter), (.ckverify 0, loaded "1", .invalidArgument),
      (.ckverify 4, loaded "0000", .checksumMismatch),
      (.pixenc false false false false 0, withPixel 16#8 3#8 1#8 1#8 1#8, .invalidArgument),
      (.recdec false false 0, loaded "0a03000000,", .invalidCharacter),
      (.recdec false false 0, loaded "1603000000,", .invalidArgument),
      (.recdec false false 0, loaded "00,", .truncatedFrame),
      (.recdec true true 8, loaded "000325502563,", .checksumMismatch),
      (.frameapply 0, loaded "000.255025,", .invalidCharacter),
      (.frameapply 0, loaded "0016000000,", .invalidArgument), (.frameapply 0, loaded "00,", .truncatedFrame),
      (.matrixenc true false 0, big, .invalidArgument)] : List (Instr × State × Err)).all
      (fun x => isNext (exec x.1 x.2.1) && (stateOf (exec x.1 x.2.1)).err = .error x.2.2) = true := by decide

theorem witness_CommandFrame :
    (∃ t, exec (.frameapply 0) (loaded "0000010203,\n") = .next t) ∧
    (∃ t, exec (.recdec false false 0) (loaded "0003255025,") = .next t) ∧
    (∃ t, exec (.ckverify 4) (loaded "1111") = .next t) ∧
    ∃ t, exec (.pixenc false false false false 0) big = .next t :=
  ⟨⟨_, rfl⟩, ⟨_, rfl⟩, ⟨_, rfl⟩, _, rfl⟩

theorem witness_StepKeepsInvariant :
    (loaded "f0").Inv ∧ ∃ t, step { loaded "f0" with host := hostDO 1#32 } = .next t :=
  ⟨⟨by decide, by decide, by decide⟩, _, rfl⟩

theorem witness_ResetEventResetsBlock :
    { big.issue 8#32 with turns := [.reset, .host] }.turns = .reset :: [.host] ∧ (big.issue 8#32).busy = true := by
  decide

/-! ## Witnesses: the codec -/

theorem witness_HexToBinaryFollowsTable :
    (∀ c ∈ ascii "09AFaf", isHex c = true) ∧
    ∀ c ∈ [0x2F#8, 0x3A#8, 0x40#8, 0x47#8, 0x60#8, 0x67#8],
      (ascii "1" ++ [c])[1]? = some c ∧ isHex c = false ∧ ∀ c' ∈ (ascii "1" ++ [c]).take 1, isHex c' = true := by
  decide

theorem witness_HexCodecRoundTrip :
    (∀ c ∈ ascii "09AFaf", isHex c = true) ∧
    (∀ c ∈ ascii "01011111", isBin c = true) ∧ (ascii "01011111").length % 4 = 0 := by decide

theorem witness_CaseIsIgnoredAndNeverEmitted :
    ∃ t, exec (.pixenc false false true false 0) { big with obuf := [(0, 0x41#8), (1, 0x46#8)], olen := 2#32 } =
        .next t ∧ (0, 0x41#8) ∈ t.obuf ∧ (1, 0x46#8) ∈ t.obuf :=
  ⟨_, rfl, by decide, by decide⟩

theorem witness_CodecLaws :
    hexToBinary (ascii "f") = .ok (ascii "1111") ∧ hexToBinary (ascii "0") = .ok (ascii "0000") := by decide

theorem witness_Hex2binConvertsInput :
    (loaded "f0").InputIs (ascii "f0") ∧ 4 * (ascii "f0").length ≤ (loaded "f0").caps.obufBytes ∧
    (∀ c ∈ ascii "f0", isHex c = true) ∧ big.InputIs [] := by decide

theorem witness_Bin2hexConvertsInput :
    (loaded "1010").InputIs (ascii "1010") ∧ (ascii "1010").length % 4 = 0 ∧
    (ascii "1010").length / 4 ≤ (loaded "1010").caps.obufBytes ∧ ∀ c ∈ ascii "1010", isBin c = true := by decide

/-- Each clause at the edge of its range. -/
theorem witness_CodecCommandErrors :
    ({ tiny with ilen := 2#32 }.caps.ibufBytes < { tiny with ilen := 2#32 }.ilen.toNat) ∧
    ({ tiny with ilen := 1#32 }.ilen.toNat ≤ tiny.caps.ibufBytes ∧
      tiny.caps.obufBytes < 4 * { tiny with ilen := 1#32 }.ilen.toNat) ∧
    ((loaded "1g").InputIs (ascii "1g") ∧ 4 * (ascii "1g").length ≤ (loaded "1g").caps.obufBytes ∧
      (ascii "1g")[1]? = some 0x67#8 ∧ isHex 0x67#8 = false ∧ ∀ c' ∈ (ascii "1g").take 1, isHex c' = true) ∧
    ({ tiny with ilen := 1#32 }.ilen.toNat % 4 ≠ 0) ∧
    ({ State.resetWith (capsOf 7 0) with ilen := 8#32 }.ilen.toNat % 4 = 0 ∧
      (capsOf 7 0).obufBytes < { State.resetWith (capsOf 7 0) with ilen := 8#32 }.ilen.toNat / 4) ∧
    ((loaded "1021").InputIs (ascii "1021") ∧ (ascii "1021").length % 4 = 0 ∧
      (ascii "1021").length / 4 ≤ (loaded "1021").caps.obufBytes ∧ (ascii "1021")[2]? = some 0x32#8 ∧
      isBin 0x32#8 = false ∧ ∀ c' ∈ (ascii "1021").take 2, isBin c' = true) := by decide

/-! ## Witnesses: the checksum engine -/

theorem witness_PadIsFewestFrontZeros : 0 < 1 ∧ (ascii "101").length % 3 = 0 := by decide

theorem witness_OcAddFoldsCarryOnce : 255 < 2 ^ 8 ∧ 0 < 2 ^ 0 := by decide

theorem witness_OcSumClosedForm :
    (0 < 4 ∧ ascii "0000" ≠ [] ∧ ∀ x ∈ blocks (ascii "0000") 4, x = 0) ∧
    (0 < 1 ∧ ascii "01" ≠ [] ∧ ∃ x ∈ blocks (ascii "01") 1, x ≠ 0) ∧
    1 ≤ 15 ∧ 15 < 2 ^ 4 := by decide

theorem witness_ChecksummedPayloadVerifies :
    ascii "101" ≠ [] ∧ (∀ c ∈ ascii "101", isBin c = true) ∧ 1 ≤ 1 := by decide

theorem witness_SingleFlipDetection :
    (verifyChecksum (ascii "1111") 2 = .ok true ∧ (ascii "1111")[3]? = some (bitChar true)) ∧
    (verifyChecksum (ascii "10") 1 = .ok true ∧ (ascii "10")[1]? = some (bitChar false) ∧
      0x31#8 ∈ (ascii "10").set 1 (bitChar !false)) ∧ 0x31#8 ∈ ascii "01" := by decide

theorem witness_ChecksumIgnoresBlockOrder :
    ascii "11111" ≠ [] ∧ (∀ c ∈ ascii "11111", isBin c = true) ∧
    (∀ w ∈ [ascii "0001", ascii "1111"], w.length = 4) ∧
    [ascii "0001", ascii "1111"].flatten = pad (ascii "11111") 4 ∧
    [ascii "0001", ascii "1111"].Perm [ascii "1111", ascii "0001"] := by decide

theorem witness_CkcompWritesChecksum :
    (loaded "101").InputIs (ascii "101") ∧ ascii "101" ≠ [] ∧ BlockSizeOk true true 4 ∧ BlockSizeOk true false 1 ∧
    4 / 4 ≤ (loaded "101").caps.obufBytes ∧ ∀ c ∈ ascii "101", isBin c = true := by decide

theorem witness_CkverifyReportsValidity :
    (loaded "1111").InputIs (ascii "1111") ∧ (∀ c ∈ ascii "1111", isBin c = true) ∧
    ocSum (ascii "1111") 4 = 2 ^ 4 - 1 ∧
    (loaded "0000").InputIs (ascii "0000") ∧ (∀ c ∈ ascii "0000", isBin c = true) ∧
    ocSum (ascii "0000") 4 ≠ 2 ^ 4 - 1 := by decide

theorem witness_ChecksumCommandErrors :
    { tiny with ilen := 2#32 }.caps.ibufBytes < { tiny with ilen := 2#32 }.ilen.toNat ∧ big.ilen.toNat = 0 ∧
    tiny.caps.obufBytes < 8 / 4 ∧
    ((loaded "0120").InputIs (ascii "0120") ∧ BlockSizeOk true true 4 ∧ 4 / 4 ≤ (loaded "0120").caps.obufBytes ∧
      (ascii "0120")[2]? = some 0x32#8 ∧ isBin 0x32#8 = false ∧
      ∀ c' ∈ (ascii "0120").take 2, isBin c' = true) := by decide

/-! ## Witnesses: the frame codec -/

/-- The record of V-FR-D9. -/
def record9 : WireRecord := ⟨0, 3, ⟨25#8, 50#8, 25#8⟩, ascii "0003255025", ascii "62"⟩

/-- A record at the edge of every field of the decimal base, and one of the hex base. -/
def recordEdge : WireRecord := ⟨15, 15, ⟨99#8, 0#8, 99#8⟩, ascii "1515990099", []⟩
def recordHex : WireRecord := ⟨15, 15, ⟨255#8, 0#8, 255#8⟩, ascii "0F0fff00Ff", ascii "x."⟩

theorem witness_PixelRoundTrip :
    ChannelsFit false ⟨99#8, 0#8, 99#8⟩ ∧ ChannelsFit true ⟨255#8, 0#8, 255#8⟩ ∧ BlockSizeOk true true 4 ∧
    BlockSizeOk true false 1 := by decide

theorem witness_EncodedRecordVerifies :
    encodePixel false 0 3 ⟨25#8, 50#8, 25#8⟩ = .ok (ascii "0003255025,") ∧
    encodeChecksum (ascii "0003255025,") 8 true = .ok (ascii "000325502562,") := by decide

theorem witness_PixencWritesRecord :
    (withPixel 15#8 15#8 99#8 0#8 7#8).OutputOk ∧ (withPixel 15#8 15#8 99#8 0#8 7#8).pixRow.toNat < 16 ∧
    (withPixel 15#8 15#8 99#8 0#8 7#8).pixCol.toNat < 16 ∧ ChannelsFit false ⟨99#8, 0#8, 7#8⟩ ∧
    BlockSizeOk true true 4 ∧ 0 + 11 + 4 / 4 + 1 ≤ big.caps.obufBytes ∧
    (State.resetWith (capsOf 0 10)).OutputOk ∧ 0 + 11 + 0 + 0 ≤ (State.resetWith (capsOf 0 10)).caps.obufBytes := by
  decide

theorem witness_PixencErrors :
    ¬ BlockSizeOk true false 0 ∧ ¬ BlockSizeOk true true 6 ∧
    (State.resetWith (capsOf 0 9)).caps.obufBytes < 0 + 11 + 0 + 0 ∧
    16 ≤ (withPixel 16#8 0#8 0#8 0#8 0#8).pixRow.toNat ∧
    ((withPixel 15#8 16#8 0#8 0#8 0#8).pixRow.toNat < 16 ∧ 16 ≤ (withPixel 15#8 16#8 0#8 0#8 0#8).pixCol.toNat) ∧
    99 < (withPixel 15#8 15#8 100#8 0#8 0#8).pixRgb.red.toNat ∧
    ((withPixel 15#8 15#8 99#8 100#8 0#8).pixRgb.red.toNat ≤ 99 ∧
      99 < (withPixel 15#8 15#8 99#8 100#8 0#8).pixRgb.green.toNat) ∧
    ((withPixel 15#8 15#8 99#8 99#8 100#8).pixRgb.green.toNat ≤ 99 ∧
      99 < (withPixel 15#8 15#8 99#8 99#8 100#8).pixRgb.blue.toNat) ∧
    BlockSizeOk false false 0 ∧
    ∀ s ∈ [withPixel 15#8 15#8 100#8 0#8 0#8, withPixel 15#8 15#8 99#8 100#8 0#8,
        withPixel 15#8 15#8 99#8 99#8 100#8],
      s.pixRow.toNat < 16 ∧ s.pixCol.toNat < 16 ∧ s.fb16 = false ∧ 0 + 11 + 0 + 0 ≤ s.caps.obufBytes := by decide

/-- A record with bytes behind it, and records at the edges of both bases. -/
theorem witness_RecdecSurfacesRecord :
    record9.Spells (loaded "000325502562,1,x").fb16 ∧
    (loaded "000325502562,1,x").RestIs (record9.text ++ ascii "1,x") ∧
    recordEdge.Spells (loaded "1515990099,").fb16 ∧ (loaded "1515990099,").RestIs (recordEdge.text ++ []) ∧
    recordHex.Spells { loaded "0F0fff00Ffx.," with fb16 := true }.fb16 ∧
    { loaded "0F0fff00Ffx.," with fb16 := true }.RestIs (recordHex.text ++ []) :=
  ⟨by decide, by decide, by decide, by decide, by decide, by decide⟩

/-- The record with the wrong trailer of V-FR-D10. -/
def record10 : WireRecord := { record9 with trail := ascii "63" }

theorem witness_RecdecVerifiesRecord :
    (record9.Spells (loaded "000325502562,").fb16 ∧ (loaded "000325502562,").RestIs (record9.text ++ []) ∧
      BlockSizeOk true true 8 ∧ record9.trail.length = 8 / 4 ∧ (∀ c ∈ record9.trail, isHex c = true) ∧
      ocSum (nibbles record9.fields ++ nibbles record9.trail) 8 = 2 ^ 8 - 1) ∧
    (record10.Spells (loaded "000325502563,").fb16 ∧ (loaded "000325502563,").RestIs (record10.text ++ []) ∧
      record10.trail.length = 8 / 4 ∧ (∀ c ∈ record10.trail, isHex c = true) ∧
      ocSum (nibbles record10.fields ++ nibbles record10.trail) 8 ≠ 2 ^ 8 - 1) := ⟨by decide, by decide⟩

theorem witness_RecdecArgumentErrors :
    { tiny with ilen := 2#32 }.caps.ibufBytes < { tiny with ilen := 2#32 }.ilen.toNat ∧
    ({ tiny with iptr := 1#32 }.ilen.toNat ≤ tiny.caps.ibufBytes ∧
      { tiny with iptr := 1#32 }.ilen.toNat < { tiny with iptr := 1#32 }.iptr.toNat) ∧
    ¬ BlockSizeOk true true 6 ∧ ¬ BlockSizeOk true false 0 := by decide

theorem witness_RecdecRecordErrors_truncated :
    ((loaded "").RestIs [] ∧ ∀ k : Nat, ([] : List Byte)[k]? = some Config.pixelSep → Config.frameTerm ∈ [].take k) ∧
    (loaded "00032\n5025,").RestIs (ascii "00032\n5025,") ∧
    ∀ k : Nat, (ascii "00032\n5025,")[k]? = some Config.pixelSep →
      Config.frameTerm ∈ (ascii "00032\n5025,").take k :=
  ⟨⟨by decide, fun _ h => by simp at h⟩, by decide, fun k h =>
    (by decide : ∀ k < 11, (ascii "00032\n5025,")[k]? = some Config.pixelSep →
      Config.frameTerm ∈ (ascii "00032\n5025,").take k) k (List.getElem?_eq_some_iff.mp h).1 h⟩

theorem witness_RecdecRecordErrors :
    ((loaded "000325502,").RestIs (ascii "000325502" ++ Config.pixelSep :: []) ∧ NoDelimiter (ascii "000325502") ∧
      (ascii "000325502").length < 10) ∧
    ((loaded "000325502g,").RestIs (ascii "000325502g" ++ Config.pixelSep :: []) ∧
      NoDelimiter (ascii "000325502g") ∧ 10 ≤ (ascii "000325502g").length ∧
      (ascii "000325502g")[9]? = some 0x67#8 ∧ fieldChar false 0x67#8 = false ∧
      ∀ c' ∈ (ascii "000325502g").take 9, fieldChar false c' = true) ∧
    ((loaded "1603000000,").RestIs (ascii "1603000000" ++ Config.pixelSep :: []) ∧
      (∀ c ∈ (ascii "1603000000").take 10, fieldChar false c = true) ∧
      16 ≤ recordField false (ascii "1603000000") 0) ∧
    ((loaded "1516000000,").RestIs (ascii "1516000000" ++ Config.pixelSep :: []) ∧
      (∀ c ∈ (ascii "1516000000").take 10, fieldChar false c = true) ∧
      recordField false (ascii "1516000000") 0 < 16 ∧ 16 ≤ recordField false (ascii "1516000000") 1) ∧
    BlockSizeOk false false 0 := by decide

/-- The records of V-FR-D11 and V-FR-D13. -/
def record11 : WireRecord := { record9 with trail := ascii "6" }
def record13 : WireRecord := { record9 with trail := ascii "6g" }

theorem witness_RecdecTrailerErrors :
    (record11.Spells (loaded "00032550256,").fb16 ∧ (loaded "00032550256,").RestIs (record11.text ++ []) ∧
      BlockSizeOk true true 8 ∧
      record11.trail.length ≠ 8 / 4) ∧
    (record13.Spells (loaded "00032550256g,").fb16 ∧ (loaded "00032550256g,").RestIs (record13.text ++ []) ∧
      record13.trail.length = 8 / 4 ∧
      record13.trail[1]? = some 0x67#8 ∧ isHex 0x67#8 = false ∧
      ∀ c' ∈ record13.trail.take 1, isHex c' = true) := ⟨by decide, by decide⟩

/-- A frame ended by the terminator with another behind it, one ended by the end of input, and the empty ones. -/
theorem witness_FrameapplyAppliesFrame :
    (loaded "000325502562,1515990099,\n01,\n").FrameIs [record9, recordEdge] true
      (ascii "000325502562,1515990099,\n") (ascii "01,\n") ∧
    (loaded "1515990099,").FrameIs [recordEdge] false (ascii "1515990099,") [] ∧
    (loaded "\n").FrameIs [] true (ascii "\n") [] ∧ (loaded "").FrameIs [] false [] [] :=
  ⟨by decide, by decide, by decide, by decide⟩

theorem witness_FrameapplyStopsAtBadRecord :
    (∀ r ∈ [recordEdge], r.Spells false) ∧
    (loaded "1515990099,00,").RestIs ([recordEdge].flatMap WireRecord.text ++ ascii "00,") ∧ ascii "00," ≠ [] ∧
    (ascii "00,").head? ≠ some Config.frameTerm ∧ 11 = 0 + ([recordEdge].flatMap WireRecord.text).length ∧
    decodeAt false 11 (ascii "00,") = .error ⟨.truncatedFrame, 11⟩ ∧
    { tiny with ilen := 2#32 }.caps.ibufBytes < { tiny with ilen := 2#32 }.ilen.toNat ∧
    { tiny with iptr := 1#32 }.ilen.toNat < { tiny with iptr := 1#32 }.iptr.toNat := by decide

theorem witness_LastRecordOfCellWins :
    (loaded "1515010203,1515990099,\n").FrameIs
      [⟨15, 15, ⟨1#8, 2#8, 3#8⟩, ascii "1515010203", []⟩, recordEdge] true (ascii "1515010203,1515990099,\n") [] ∧
    (∀ r ∈ [recordEdge], ¬ (r.row = 0 ∧ r.col = 0)) ∧ [recordEdge] = [] ++ recordEdge :: [] := by decide

theorem witness_MatrixencWritesFrame :
    (∀ r c, ChannelsFit (State.resetWith (capsOf 0 2816)).fb16
      (matrixRead (State.resetWith (capsOf 0 2816)).matrix r c)) ∧
    BlockSizeOk false false 0 ∧ 256 * (11 + 0) + 1 ≤ (capsOf 0 2816).obufBytes ∧
    BlockSizeOk true true 8 ∧ 256 * (11 + 8 / 4) + 1 ≤ big.caps.obufBytes :=
  ⟨fun r c => by simp [matrixRead, State.resetWith], by decide⟩

theorem witness_MatrixencErrors :
    (¬ BlockSizeOk true true 6 ∧ (capsOf 0 2815).obufBytes < 256 * (11 + 0) + 1) ∧
    (BlockSizeOk false false 0 ∧ 256 * (11 + 0) + 1 ≤ big.caps.obufBytes) ∧
    ¬ ChannelsFit false (matrixRead (matrixWrite big.matrix 0 2 ⟨100#8, 0#8, 0#8⟩) 0 2) ∧
    ∀ r' c' : Fin 16, 16 * r'.val + c'.val < 16 * (0 : Fin 16).val + (2 : Fin 16).val →
      ChannelsFit false (matrixRead (matrixWrite big.matrix 0 2 ⟨100#8, 0#8, 0#8⟩) r' c') := by
  refine ⟨by decide, by decide, by decide, fun r' c' h => ?_⟩
  have hne : ¬ 2 = 16 * r'.val + c'.val := by simp at h; omega
  simp [matrixRead, matrixWrite, big, State.resetWith, cellIndex, hne]

/-! ## Witnesses: the host bus -/

theorem witness_BusyWindowAllowsOnlyStatus :
    ((big.issue 1#32).busy = true) ∧ { big with awaiting := true }.awaiting = true ∧
    Access.write32 Reg.cmd.addr 1#32 ≠ .read32 Reg.status.addr ∧
    Access.read8 Reg.status.addr ≠ .read32 Reg.status.addr := by decide

/-- An access of each kind, at the ends of the windows. -/
theorem witness_ReadOnlyWriteFaults :
    (∃ r ∈ [Reg.status, .olen, .errpos, .reccnt, .trail], Access.write32 0x28#18 1#32 = .write32 r.addr 1#32) ∧
    (∃ i < big.caps.obufBytes, Access.write8 0x2FFFF#18 1#8 = .write8 (BitVec.ofNat 18 (0x20000 + i)) 1#8) ∧
    (∃ i < tiny.caps.obufBytes, Access.write32 0x20000#18 1#32 = .write32 (BitVec.ofNat 18 (0x20000 + i)) 1#32) ∧
    ∃ i < 0x400, Access.write32 0x303FF#18 1#32 = .write32 (BitVec.ofNat 18 (0x30000 + i)) 1#32 :=
  ⟨⟨.trail, by decide, by decide⟩, ⟨65535, by decide, by decide⟩, ⟨0, by decide, by decide⟩, 0x3FF, by decide,
    by decide⟩

theorem witness_WidthAndAlignmentFault :
    0x2B < 0x2C ∧ 0x2B % 4 ≠ 0 ∧ 65535 < big.caps.ibufBytes ∧ 65535 < big.caps.obufBytes ∧ 65535 % 4 ≠ 0 ∧
    0x3FF < 0x400 ∧ 0x3FF % 4 ≠ 0 ∧ big.busy = false ∧ big.awaiting = false := by decide

/-- The ends of the four reserved ranges. -/
theorem witness_ReservedAddressFaults :
    tiny.busy = false ∧ tiny.awaiting = false ∧
    ∀ n ∈ [0x2C, 0xFFFF, 0x10001, 0x1FFFF, 0x20001, 0x2FFFF, 0x30400, 0x3FFFF],
      (0x2C ≤ n ∧ n < 0x10000) ∨ (0x10000 + tiny.caps.ibufBytes ≤ n ∧ n < 0x20000) ∨
        (0x20000 + tiny.caps.obufBytes ≤ n ∧ n < 0x30000) ∨ (0x30400 ≤ n ∧ n < 0x40000) := by decide

/-- A buffer of one byte, and one of seven at its second word. -/
theorem witness_ReservedAddressFaults_past_capacity :
    (0 < tiny.caps.ibufBytes ∧ tiny.caps.ibufBytes ≤ 0 + 3 ∧ 0 < tiny.caps.obufBytes ∧
      tiny.caps.obufBytes ≤ 0 + 3) ∧
    4 % 4 = 0 ∧ 4 < (capsOf 6 6).ibufBytes ∧ (capsOf 6 6).ibufBytes ≤ 4 + 3 ∧ 4 < (capsOf 6 6).obufBytes ∧
    (capsOf 6 6).obufBytes ≤ 4 + 3 := by decide

theorem witness_InputWordIsLittleEndian :
    big.busy = false ∧ big.awaiting = false ∧ 65532 % 4 = 0 ∧ 65532 + 3 < big.caps.ibufBytes := by decide

theorem witness_InputByteWriteReadsBack :
    big.busy = false ∧ big.awaiting = false ∧ 65535 < big.caps.ibufBytes ∧ 0 < tiny.caps.ibufBytes := by decide

theorem witness_RegisterReadback :
    big.busy = false ∧ big.awaiting = false ∧
    (Reg.pixrgb, 0x00FFFFFF#32) ∈ [(Reg.ctrl, 0x00000001#32), (.ilen, 0xFFFFFFFF#32), (.iptr, 0xFFFFFFFF#32),
      (.pixpos, 0x0000FFFF#32), (.pixrgb, 0x00FFFFFF#32)] ∧
    ((stateOf (exec (.ckverify 0) big)).err, 2) ∈ [(StatusErr.ok, 0), (.error .invalidCharacter, 1),
      (.error .invalidArgument, 2), (.error .truncatedFrame, 3), (.error .checksumMismatch, 4),
      (.error .illegalCommand, 5)] := by decide

theorem witness_MatrixWindowReadsCell :
    matrixRead (matrixWrite big.matrix 15 15 ⟨1#8, 2#8, 3#8⟩) 15 15 = ⟨1#8, 2#8, 3#8⟩ ∧
    big.busy = false ∧ big.awaiting = false ∧ (big.issue 1#32).busy = true ∧
    { big with turns := [.consumer 15 15] }.turns = .consumer 15 15 :: [] := by decide

theorem witness_ReadsHaveNoSideEffect :
    (∃ t, hostAccess (loaded "f0") (.read8 0x10001#18) = .ok t) ∧
    (∃ t, hostAccess (big.issue 1#32) (.read32 Reg.status.addr) = .ok t) :=
  ⟨⟨_, rfl⟩, _, rfl⟩

theorem witness_ReadOfNoValueFaults_host :
    (65535 < big.caps.ibufBytes ∧ big.ibuf.read 65535 = none) ∧
    (65535 < big.caps.obufBytes ∧ big.olen.toNat ≤ 65535) ∧
    (3 < 4 ∧ 65532 % 4 = 0 ∧ 65532 + 3 < big.caps.ibufBytes ∧ (loaded "abc").ibuf.read (0 + 3) = none) ∧
    (65532 + 3 < big.caps.obufBytes ∧ { big with olen := 3#32 }.olen.toNat ≤ 0 + 3) := by decide

/-- Four bytes of input, the last of them unwritten. -/
theorem witness_ReadOfNoValueFaults_whole :
    3 < { loaded "101" with ilen := 4#32 }.ilen.toNat ∧
    { loaded "101" with ilen := 4#32 }.ilen.toNat ≤ big.caps.ibufBytes ∧
    { loaded "101" with ilen := 4#32 }.ibuf.read 3 = none ∧ 4 * 4 ≤ big.caps.obufBytes ∧ 4 % 4 = 0 ∧
    BlockSizeOk true true 4 ∧ BlockSizeOk true false 1 ∧ 4 / 4 ≤ big.caps.obufBytes := by decide

/-- A whole frame with an unwritten byte behind it, the last of the input. -/
theorem witness_ReadOfNoValueFaults_record :
    { loaded "0003255025,\n" with ilen := 13#32 }.iptr.toNat ≤ 12 ∧
    12 < { loaded "0003255025,\n" with ilen := 13#32 }.ilen.toNat ∧
    { loaded "0003255025,\n" with ilen := 13#32 }.ilen.toNat ≤ big.caps.ibufBytes ∧
    { loaded "0003255025,\n" with ilen := 13#32 }.ibuf.read 12 = none ∧
    BlockSizeOk true true 8 ∧ BlockSizeOk false false 0 := by decide

theorem witness_OutputReadsBack :
    { big with obuf := cellsFrom 0 (ascii "1111"), olen := 4#32 }.OutputOk ∧
    { big with obuf := cellsFrom 0 (ascii "1111"), olen := 4#32 }.output = some (ascii "1111") ∧
    (ascii "1111")[3]? = some 0x31#8 ∧
    ((ascii "1111").drop 0).take 4 = [0x31#8, 0x31#8, 0x31#8, 0x31#8] := by decide

/-- An allowed access, a violation, a POLL that stays and one that ends; both ways the host gets its turn. -/
theorem witness_HostTurnRunsStatement :
    ({ big with turns := [.host] }.turns = .host :: [] ∧ big.turns = [] ∧ big.busy = false) ∧
    ({ big with host := [hostR .olen] }.host = .access (.read32 Reg.olen.addr) :: [] ∧
      ∃ t, hostAccess { big with host := [hostR .olen] } (.read32 Reg.olen.addr) = .ok t) ∧
    ({ big with host := [hostRB 0] }.host = .access (.read8 0x20000#18) :: [] ∧
      hostAccess { big with host := [hostRB 0] } (.read8 0x20000#18) = .error .hostReadBeyondOlen) ∧
    ({ big.issue 1#32 with turns := [.host], host := [.poll] }.turns = .host :: [] ∧
      { big.issue 1#32 with turns := [.host], host := [.poll] }.busy = true) ∧
    { big with host := [.poll] }.busy = false :=
  ⟨by decide, ⟨rfl, _, rfl⟩, by decide, by decide, rfl⟩

end Sys2Proof.Tests
end

section
/-!
PROOFS. The statements of 10_state.md: accesses to registers and windows and the engine's step, how a command ends,
and the invariant of every step.
-/

namespace Sys2Proof.Machine

/-! ## Accesses outside R213's window -/

section

variable {s : State} (hb : s.busy = false) (ha : s.awaiting = false)
include hb ha

theorem State.inBusyWindow_idle : s.inBusyWindow = false := by simp [State.inBusyWindow, hb, ha]

theorem busRead32_reg (r : Reg) : busRead32 s r.addr = .ok (s.readReg r) := by
  simp [busRead32, State.inBusyWindow_idle hb ha, Reg.at_offset]

theorem busWrite32_reg {r : Reg} (hr : r.readOnly = false) (w : Word) :
    busWrite32 s r.addr w = .ok (s.writeReg r w) := by
  simp [busWrite32, State.inBusyWindow_idle hb ha, Reg.at_offset, hr]

theorem busWrite8_ibuf {i : Nat} (hi : i < s.caps.ibufBytes) (v : Byte) :
    busWrite8 s (BitVec.ofNat 18 (0x10000 + i)) v = .ok (s.writeInput i v) := by
  simp only [busWrite8, State.inBusyWindow_idle hb ha, region_ibuf _ hi, Bool.false_eq_true, if_false]

theorem busRead8_ibuf {i : Nat} (hi : i < s.caps.ibufBytes) :
    busRead8 s (BitVec.ofNat 18 (0x10000 + i)) = orViolation .hostReadUnwritten (s.ibuf.read i) := by
  simp only [busRead8, State.inBusyWindow_idle hb ha, region_ibuf _ hi, Bool.false_eq_true, if_false]

theorem busRead8_obuf {i : Nat} (hi : i < s.caps.obufBytes) :
    busRead8 s (BitVec.ofNat 18 (0x20000 + i)) = orViolation .hostReadBeyondOlen (s.outputByte i) := by
  simp only [busRead8, State.inBusyWindow_idle hb ha, region_obuf _ hi, Bool.false_eq_true, if_false]

theorem busRead32_obuf {i : Nat} (hal : i % 4 = 0) (hi : i + 3 < s.caps.obufBytes) :
    busRead32 s (BitVec.ofNat 18 (0x20000 + i)) =
      orViolation .hostReadBeyondOlen (word4 s.outputByte i) := by
  simp only [busRead32, State.inBusyWindow_idle hb ha, Bool.false_eq_true, false_and, if_false,
    region_obuf _ (show i < s.caps.obufBytes by omega), hal, ne_eq, not_true_eq_false,
    show ¬ s.caps.obufBytes ≤ i + 3 by omega]

theorem busRead32_matrix {k : Nat} (hk : k < 256) :
    busRead32 s (BitVec.ofNat 18 (0x30000 + 4 * k)) = .ok (s.matrixWord k) := by
  simp [busRead32, State.inBusyWindow_idle hb ha, region_matrix s.caps (show 4 * k < 0x400 by omega)]

end

/-- STATUS is read in any state (R64). -/
theorem busRead32_status (s : State) : busRead32 s Reg.status.addr = .ok s.statusWord := by
  simp [busRead32, Reg.at_offset, State.readReg]

/-! ## Words made of fields -/

/-- Fields side by side in a word of any width: the high one shifted, or the low one. -/
theorem setWidth_append_or {m n k : Nat} (x : BitVec m) (y : BitVec n) :
    (x ++ y).setWidth k = x.setWidth k <<< n ||| y.setWidth k := by
  apply BitVec.eq_of_getLsbD_eq
  intro i hi
  simp only [BitVec.getLsbD_append, BitVec.getLsbD_or, BitVec.getLsbD_shiftLeft,
    BitVec.getLsbD_setWidth, hi, decide_true, Bool.true_and]
  by_cases hn : i < n
  · simp [hn]
  · simp [hn, show i - n < k by omega, BitVec.getLsbD_of_ge y i (by omega)]

/-- Four bytes side by side are their little-endian word (R66). -/
theorem append_bytes (b3 b2 b1 b0 : Byte) :
    b3 ++ b2 ++ b1 ++ b0 = b3.setWidth 32 <<< 24 ||| b2.setWidth 32 <<< 16 |||
      b1.setWidth 32 <<< 8 ||| b0.setWidth 32 := by
  calc b3 ++ b2 ++ b1 ++ b0
      = (b3 ++ b2 ++ b1 ++ b0).setWidth 32 := (BitVec.setWidth_eq _).symm
    _ = ((b3.setWidth 32 <<< 8 ||| b2.setWidth 32) <<< 8 ||| b1.setWidth 32) <<< 8 |||
        b0.setWidth 32 := by simp only [setWidth_append_or]
    _ = _ := by simp only [BitVec.shiftLeft_or_distrib, ← BitVec.shiftLeft_add]

/-- The bytes of a word are joined in either order. -/
theorem or_reverse (x3 x2 x1 x0 : Word) : x3 ||| x2 ||| x1 ||| x0 = x0 ||| x1 ||| x2 ||| x3 := by
  ac_rfl

theorem append_halves (h1 h0 : BitVec 16) :
    h1 ++ h0 = h1.setWidth 32 <<< 16 ||| h0.setWidth 32 :=
  (BitVec.setWidth_eq (h1 ++ h0)).symm.trans (setWidth_append_or h1 h0)

/-- The word of a pixel, in the matrix window and in PIXRGB (R35, R42). -/
theorem Rgb.word_eq (v : Rgb) :
    v.word = v.blue.setWidth 32 <<< 16 ||| v.green.setWidth 32 <<< 8 ||| v.red.setWidth 32 := by
  rw [Rgb.word, append_bytes]
  simp

theorem State.readReg_pixpos (s : State) :
    s.readReg .pixpos = s.pixCol.setWidth 32 <<< 8 ||| s.pixRow.setWidth 32 := by
  have hword : s.readReg .pixpos = 0#8 ++ 0#8 ++ s.pixCol ++ s.pixRow := rfl
  rw [hword, append_bytes]
  simp

theorem State.readReg_ctrl (s : State) : s.readReg .ctrl = if s.fb16 then 1#32 else 0#32 := by
  rw [State.readReg]; cases s.fb16 <;> rfl

/-- STATUS as a number: ERR from bit 4, VALID bit 1, BUSY bit 0 (R26). -/
theorem State.statusWord_eq (s : State) :
    s.statusWord = BitVec.ofNat 32
      (16 * s.err.code.toNat + (if s.valid then 2 else 0) + if s.busy then 1 else 0) := by
  have hfields : ∀ (c : BitVec 4) (v b : Bool),
      0#24 ++ c ++ 0#2 ++ BitVec.ofBool v ++ BitVec.ofBool b =
        BitVec.ofNat 32 (16 * c.toNat + (if v then 2 else 0) + if b then 1 else 0) := by decide
  exact hfields s.err.code s.valid s.busy

/-! ## Registers: what a write stores, and what it leaves (R23) -/

/-- The operand registers with their implemented bits. -/
def operandMasks : List (Reg × Word) :=
  [(.ctrl, 0x00000001#32), (.ilen, 0xFFFFFFFF#32), (.iptr, 0xFFFFFFFF#32), (.pixpos, 0x0000FFFF#32),
    (.pixrgb, 0x00FFFFFF#32)]

/-- An operand register reads as the word written with its reserved bits 0. -/
theorem State.readReg_writeReg_operand (s : State) (w : Word) :
    ∀ rm ∈ operandMasks, (s.writeReg rm.1 w).readReg rm.1 = w &&& rm.2 := by
  simp only [operandMasks, List.forall_mem_cons, State.writeReg, State.readReg]
  refine ⟨?ctrl, ?ilen, ?iptr, ?pixpos, ?pixrgb, by simp⟩
  case ilen | iptr => exact BitVec.and_allOnes.symm
  all_goals
    apply BitVec.eq_of_getLsbD_eq
    intro i hi
    simp only [BitVec.getLsbD_append, BitVec.getLsbD_and, BitVec.getLsbD_extractLsb']
    interval_cases i <;> simp

/-- A write to another register than CMD changes no other register. -/
theorem State.readReg_writeReg_other {r r' : Reg} (s : State) (w : Word) (hc : r ≠ .cmd) (h : r' ≠ r) :
    (s.writeReg r w).readReg r' = s.readReg r' := by
  cases r with
  | cmd => exact absurd rfl hc
  | status | olen | errpos | reccnt | trail => rfl
  | ctrl | ilen | iptr | pixpos | pixrgb =>
    cases r' <;> simp_all [State.writeReg, State.readReg, State.statusWord]

theorem operandMasks_writable {rm : Reg × Word} (h : rm ∈ operandMasks) :
    rm.1 ≠ .cmd ∧ rm.1.readOnly = false := by
  revert rm; decide

/-- A write to a register other than CMD does not open R213's window. -/
theorem State.writeReg_window {r : Reg} (s : State) (w : Word) (hc : r ≠ .cmd) :
    (s.writeReg r w).busy = s.busy ∧ (s.writeReg r w).awaiting = s.awaiting := by
  cases r with
  | cmd => exact absurd rfl hc
  | _ => exact ⟨rfl, rfl⟩

/-- Settles O55: each access reaches its register, and the words are read field by field. -/
theorem registerReadback : Obligations.RegisterReadback := by
  refine ⟨fun s w hb ha rm hrm => ?_, fun s w hb ha => ?_, fun s hb ha => ?_, fun s code hcode => ?_⟩
  · obtain ⟨hcmd, hro⟩ := operandMasks_writable hrm
    obtain ⟨hbusy, hwait⟩ := s.writeReg_window w hcmd
    refine ⟨s.writeReg rm.1 w, busWrite32_reg hb ha hro w, ?_,
      fun r hr => s.readReg_writeReg_other w hcmd hr⟩
    rw [busRead32_reg (hbusy.trans hb) (hwait.trans ha), s.readReg_writeReg_operand w rm hrm]
  · have hwrite (r : Reg) (hr : r.readOnly = false) := busWrite32_reg hb ha hr w
    exact ⟨hwrite .ctrl rfl, hwrite .ilen rfl, hwrite .iptr rfl, hwrite .pixpos rfl, hwrite .pixrgb rfl⟩
  · have hread := busRead32_reg hb ha
    exact ⟨hread .cmd, s.readReg_ctrl ▸ hread .ctrl, hread .ilen, hread .iptr, hread .olen,
      s.readReg_pixpos ▸ hread .pixpos, s.pixRgb.word_eq ▸ hread .pixrgb, hread .errpos, hread .reccnt,
      append_halves s.tlen s.toff ▸ hread .trail⟩
  · have hstatus : busRead32 s 0x004#18 = .ok s.statusWord := busRead32_status s
    have herr : s.err.code.toNat = code := by
      simp only [List.mem_cons, Prod.mk.injEq, List.not_mem_nil, or_false] at hcode
      obtain ⟨he, rfl⟩ | ⟨he, rfl⟩ | ⟨he, rfl⟩ | ⟨he, rfl⟩ | ⟨he, rfl⟩ | ⟨he, rfl⟩ := hcode <;>
        rw [he] <;> rfl
    rw [hstatus, State.statusWord_eq, herr]

/-- Settles O54: the write is one of an IBUF byte, and memory reads back what is written. -/
theorem inputByteWriteReadsBack : Obligations.InputByteWriteReadsBack := by
  intro s i v hb ha hi
  refine ⟨s.writeInput i v, busWrite8_ibuf hb ha hi v, rfl, Memory.read_write_same _ _ _,
    fun a hne => Memory.read_write_other _ _ hne, ?_⟩
  have hread : (s.writeInput i v).ibuf.read i = some v := Memory.read_write_same _ _ _
  rw [busRead8_ibuf (s := s.writeInput i v) hb ha hi, hread]
  rfl

/-! ## The matrix window (R42) -/

/-- The window's word number 16 r + c is the word of cell (r, c). -/
theorem State.matrixWord_cell (s : State) (r c : Fin 16) :
    s.matrixWord (16 * r.val + c.val) = (matrixRead s.matrix r c).word := by
  have hlt : 16 * r.val + c.val < s.matrix.toList.length := by simp; omega
  rw [State.matrixWord, List.getD_eq_getElem _ _ hlt, Vector.getElem_toList]
  rfl

/-- With R213's window closed a read has no effect on it. -/
theorem State.polled_of_not_awaiting {s : State} (ha : s.awaiting = false) (a : Addr) :
    s.polled a = s := by
  have h : (if a = Reg.status.addr ∧ s.busy = false then false else s.awaiting) = s.awaiting := by
    simp [ha]
  rw [State.polled, h]

/-- An allowed 32-bit read with R213's window closed records its value and nothing else (R69). -/
theorem hostAccess_read32 {s : State} {a : Addr} {w : Word} (ha : s.awaiting = false)
    (h : busRead32 s a = .ok w) : hostAccess s (.read32 a) = .ok (s.returned w) := by
  simp only [hostAccess, h]
  rw [State.polled_of_not_awaiting (s := s.returned w) ha]

/-- A scheduled turn is the one taken (R72). -/
theorem step_scheduled {s : State} {u : Turn} {ts : List Turn} (h : s.turns = u :: ts) :
    step s = turnStep { s with turns := ts } u := by
  simp only [step, agentStep, h]

/-- Settles O56: the window's word is the cell's, for the host by its address and for the consumer by its turn. -/
theorem matrixWindowReadsCell : Obligations.MatrixWindowReadsCell := by
  rintro s r c v w ts rfl rfl
  rw [← Rgb.word_eq]
  refine ⟨fun hb ha => ?_, fun ht hb => ?_, fun ht hb => ?_⟩
  · have hread := busRead32_matrix hb ha (show 16 * r.val + c.val < 256 by omega)
    exact hostAccess_read32 ha (s.matrixWord_cell r c ▸ hread)
  · simp [step_scheduled ht, turnStep, consumerTurn, hb]
  · simp [step_scheduled ht, turnStep, consumerTurn, hb]

/-! ## OBUF (R33, R42) -/

/-- The bytes of OBUF[0:OLEN) are the values the host may read. -/
theorem State.outputByte_eq {s : State} {out : List Byte} (h : s.output = some out) (i : Nat) :
    s.outputByte i = out[i]? := by
  have hcells := congrArg (·[i]?) (readAll_eq_some.mp h)
  simp only [Memory.readFrom_getElem?, Nat.zero_add, List.getElem?_map] at hcells
  unfold State.outputByte
  split
  · next hi =>
    rw [if_pos hi] at hcells
    obtain ⟨v, hv, hread⟩ := Option.map_eq_some_iff.mp hcells.symm
    rw [hv, hread]
  · next hi => rw [if_neg hi] at hcells; simpa using hcells

theorem State.output_length {s : State} {out : List Byte} (h : s.output = some out) :
    out.length = s.olen.toNat := by
  simpa using (congrArg List.length (readAll_eq_some.mp h)).symm

/-- Settles O59: a byte of `out` is the OBUF byte at its index, and a word is four of them. -/
theorem outputReadsBack : Obligations.OutputReadsBack := by
  rintro s out hb ha ⟨-, hcap⟩ hout
  have hlen := State.output_length hout
  refine ⟨fun i v hv => ?_, fun i b0 b1 b2 b3 hal hfour => ?_⟩
  · obtain ⟨hi, -⟩ := List.getElem?_eq_some_iff.mp hv
    rw [busRead8_obuf hb ha (by omega), State.outputByte_eq hout, hv]
    rfl
  · have hbyte (k : Nat) (hk : k < 4) : s.outputByte (i + k) = [b0, b1, b2, b3][k]? := by
      rw [State.outputByte_eq hout, ← hfour, List.getElem?_take_of_lt hk, List.getElem?_drop]
    have hi : i + 3 < out.length := by
      have hmin : min 4 (out.length - i) = 4 := by simpa using congrArg List.length hfour
      omega
    have hword : word4 s.outputByte i = some (b3 ++ b2 ++ b1 ++ b0) := by
      have h0 := hbyte 0 (by decide)
      have h1 := hbyte 1 (by decide)
      have h2 := hbyte 2 (by decide)
      have h3 := hbyte 3 (by decide)
      rw [Nat.add_zero] at h0
      simp only [word4, h0, h1, h2, h3, List.getElem?_cons_zero, List.getElem?_cons_succ]
    rw [busRead32_obuf hb ha hal (by omega), hword]
    exact congrArg Except.ok ((append_bytes b3 b2 b1 b0).trans (or_reverse ..))

/-! ## Issue and the engine's step -/

/-- The engine moves when no turn is scheduled and BUSY = 1 (log entry 2). -/
theorem step_unscheduled_busy {s : State} (h : s.turns = []) (hb : s.busy = true) :
    step s = engineStep s := by
  simp only [step, agentStep, h, hb, if_true]

theorem engineStep_of_decode {s : State} {i : Instr} (h : decode s.pcmd = .ok i) :
    engineStep s = exec i s := by
  simp only [engineStep, h]

theorem engineStep_of_illegal {s : State} {e : IllegalWord} (h : decode s.pcmd = .error e) :
    engineStep s = .next s.illegal := by
  simp only [engineStep, h]

theorem step_engine_busy {s : State} {ts : List Turn} (h : s.turns = .engine :: ts)
    (hb : s.busy = true) : step s = engineStep { s with turns := ts } := by
  rw [step_scheduled h]
  exact if_pos hb

theorem step_engine_idle {s : State} {ts : List Turn} (h : s.turns = .engine :: ts)
    (hb : s.busy = false) : step s = .next { s with turns := ts } := by
  rw [step_scheduled h]
  exact if_neg (by simp [hb])

/-- Settles O6: the step is the engine's, and the engine's is the command of the word. -/
theorem engineStepRunsDecodedCommand : Obligations.EngineStepRunsDecodedCommand :=
  ⟨fun s _ hb hi =>
    ⟨fun ht => (step_unscheduled_busy ht hb).trans (engineStep_of_decode hi),
      fun ts ht => (step_engine_busy ht hb).trans (engineStep_of_decode (s := { s with turns := ts }) hi)⟩,
    fun s _ hb he =>
    ⟨fun ht => (step_unscheduled_busy ht hb).trans (engineStep_of_illegal he),
      fun ts ht => (step_engine_busy ht hb).trans (engineStep_of_illegal (s := { s with turns := ts }) he)⟩,
    fun _ _ hb ht => step_engine_idle ht hb⟩

/-- Setting BUSY sets bit 0 of STATUS and no other (R26). -/
theorem State.issue_statusWord {s : State} (hb : s.busy = false) (w : Word) :
    (s.issue w).statusWord = s.statusWord ||| 1#32 := by
  have hbit : ∀ (c : BitVec 4) (v : Bool),
      0#24 ++ c ++ 0#2 ++ BitVec.ofBool v ++ BitVec.ofBool true =
        0#24 ++ c ++ 0#2 ++ BitVec.ofBool v ++ BitVec.ofBool false ||| 1#32 := by decide
  rw [State.statusWord, State.statusWord, hb]
  exact hbit s.err.code s.valid

/-- Settles O7: the write reaches CMD, and sets bit 0 of STATUS. -/
theorem cmdWriteIssuesCommand : Obligations.CmdWriteIssuesCommand := fun _ w hb ha =>
  ⟨busWrite32_reg hb ha (r := .cmd) rfl w, rfl, State.issue_statusWord hb w⟩

/-- Settles O16, register by register; neither buffer holds a byte. -/
theorem resetValues : Obligations.ResetValues := by
  intro caps
  refine ⟨fun r => ?_, rfl, rfl, rfl, rfl, rfl, fun r c => ?_, fun i => rfl, fun i => ?_⟩
  · cases r <;> simp [State.resetWith, State.readReg, State.statusWord, StatusErr.code]
  · simp [State.resetWith, matrixRead]
  · exact if_neg (Nat.not_lt_zero i)

/-! ## How a command ends -/

/-- The two outcomes of a command (R191, R211): a next state, or the fault of an operand that is not `ready`. -/
inductive Answers (ready : Prop) : Out → Prop where
  | next (t : State) : Answers ready (.next t)
  | unwritten (h : ¬ ready) : Answers ready (.fault .engineReadUnwritten)

theorem Answers.ite {ready c : Prop} [Decidable c] {a b : Out} (ha : Answers ready a)
    (hb : Answers ready b) : Answers ready (if c then a else b) := by
  split
  · exact ha
  · exact hb

theorem State.not_inputWritten_of_readInput {s : State} (h : s.readInput = none) :
    ¬ s.InputWritten 0 := by
  obtain ⟨i, hi, hnone⟩ := State.readInput_eq_none.mp h
  intro hw
  simpa [hnone] using hw i (Nat.zero_le i) hi

theorem State.not_inputWritten_of_readRest {s : State} (h : s.readRest = none) :
    ¬ s.InputWritten s.iptr.toNat := by
  obtain ⟨i, hp, hi, hnone⟩ := State.readRest_eq_none.mp h
  intro hw
  simpa [hnone] using hw i hp hi

section

variable (xf vf : Bool) (b : Nat) (s : State)

theorem execHex2bin_answers : Answers (s.InputWritten 0) (execHex2bin b s) := by
  refine .ite (.next _) (.ite (.next _) ?_)
  split
  · next h => exact .unwritten (State.not_inputWritten_of_readInput h)
  · exact .next _

theorem execBin2hex_answers : Answers (s.InputWritten 0) (execBin2hex b s) := by
  refine .ite (.next _) (.ite (.next _) (.ite (.next _) ?_))
  split
  · next h => exact .unwritten (State.not_inputWritten_of_readInput h)
  · exact .next _

theorem execCkcomp_answers : Answers (s.InputWritten 0) (execCkcomp xf b s) := by
  refine .ite (.next _) (.ite (.next _) (.ite (.next _) (.ite (.next _) (.ite (.next _) ?_))))
  split
  · next h => exact .unwritten (State.not_inputWritten_of_readInput h)
  · exact .next _

theorem execCkverify_answers : Answers (s.InputWritten 0) (execCkverify b s) := by
  refine .ite (.next _) (.ite (.next _) (.ite (.next _) ?_))
  split
  · next h => exact .unwritten (State.not_inputWritten_of_readInput h)
  · next p _ => cases verifyChecksum p b with
    | error e => exact .next _
    | ok verified => cases verified <;> exact .next _

theorem execRecdec_answers : Answers (s.InputWritten s.iptr.toNat) (execRecdec xf vf b s) := by
  refine .ite (.next _) (.ite (.next _) (.ite (.next _) (.ite (.next _) ?_)))
  split
  · next h => exact .unwritten (State.not_inputWritten_of_readRest h)
  · next rest _ => cases decodeAt s.fb16 s.iptr.toNat rest with
    | error e => exact .next _
    | ok r =>
      refine .ite ?_ (.next _)
      cases verifyRecord (rest.take 10) ((rest.drop 10).take r.tlen) b xf r.toff with
      | error e => exact .next _
      | ok verified => cases verified <;> exact .next _

theorem execFrameapply_answers : Answers (s.InputWritten s.iptr.toNat) (execFrameapply b s) := by
  refine .ite (.next _) (.ite (.next _) ?_)
  split
  · next h => exact .unwritten (State.not_inputWritten_of_readRest h)
  · next rest _ => cases applyFrame s.fb16 s.iptr.toNat rest s.matrix <;> exact .next _

end

/-- Every command answers a next state, or faults on an operand that is not wholly written. -/
theorem exec_answers (i : Instr) (s : State) : Answers (s.OperandsReady i) (exec i s) := by
  cases i with
  | hex2bin b => exact execHex2bin_answers b s
  | bin2hex b => exact execBin2hex_answers b s
  | ckcomp xf b => exact execCkcomp_answers xf b s
  | ckverify b => exact execCkverify_answers b s
  | pixenc ck xf ap tm b => exact .next _
  | recdec xf vf b => exact execRecdec_answers xf vf b s
  | frameapply b => exact execFrameapply_answers b s
  | matrixenc ck xf b => exact .next _

/-- A command ends in one of the two completions (R194, R195). -/
theorem Ends.completion {s t : State} {i : Instr} (h : Ends s i t) :
    (∃ u v, t = State.complete u v) ∨ ∃ u e p, t = State.raise u e p := by
  cases h with
  | raised | mismatch | stopped => exact .inr ⟨_, _, _, rfl⟩
  | output | verified | surfaced | applied => exact .inl ⟨_, _, rfl⟩

/-- Settles O9, from the answers of `exec` and the completions its commands end in. -/
theorem everyCommandCompletes : Obligations.EveryCommandCompletes := by
  intro i s
  refine ⟨fun hready => ?_, fun t ht => ?_, fun f hf => ?_, fun r hr => ?_⟩
  · cases hans : exec i s with
    | next t => exact ⟨t, rfl⟩
    | fault f => cases hans ▸ exec_answers i s with
      | unwritten h => exact absurd hready h
    | refused r => cases hans ▸ exec_answers i s
  · obtain ⟨u, v, rfl⟩ | ⟨u, e, p, rfl⟩ := (exec_cases ht).completion <;> simp
  · cases hf ▸ exec_answers i s with
    | unwritten h => exact ⟨rfl, h⟩
  · cases hr ▸ exec_answers i s

/-! ## VALID (R28) -/

/-- The commands that end with VALID = 1 on success. -/
abbrev Verifies (i : Instr) : Prop := (∃ b, i = .ckverify b) ∨ ∃ xf b, i = .recdec xf true b

/-- However a command ends, VALID is 1 exactly for the success of a command that verifies. -/
theorem Ends.valid_iff {s t : State} {i : Instr} (h : Ends s i t) :
    t.valid = true ↔ t.err = .ok ∧ Verifies i := by
  cases h with
  | raised | mismatch | stopped => simp
  | output _ start out hi hfit =>
    have hno : ¬ Verifies i := by
      rintro (⟨b, rfl⟩ | ⟨xf, b, rfl⟩) <;> exact hi
    simp [hno]
  | verified b | surfaced xf vf b r | applied b next count m => simp [Verifies]

/-- Settles O10, by the ways a command ends. -/
theorem validMeansVerified : Obligations.ValidMeansVerified :=
  ⟨fun _ _ _ h => (exec_cases h).valid_iff, fun _ => rfl, fun _ => rfl⟩

/-! ## The invariant: what each operation keeps -/

section

variable {s : State}

/-- A completion leaves STATUS, ERRPOS and CMD as the invariant asks, whatever they were (R194). -/
theorem State.complete_statusOk (s : State) (v : Bool) : (s.complete v).StatusOk :=
  ⟨fun _ => rfl, fun _ => rfl, nofun⟩

/-- So does an error completion (R195). -/
theorem State.raise_statusOk (s : State) (e : Err) (p : Nat) : (s.raise e p).StatusOk :=
  ⟨nofun, nofun, nofun⟩

theorem State.Inv.complete (h : s.Inv) (v : Bool) : (s.complete v).Inv :=
  ⟨h.input, h.output, s.complete_statusOk v⟩

theorem State.Inv.raise (h : s.Inv) (e : Err) (p : Nat) : (s.raise e p).Inv :=
  ⟨h.input, h.output, s.raise_statusOk e p⟩

theorem State.Inv.surface (h : s.Inv) (r : Record) : (s.surface r).Inv :=
  ⟨h.input, h.output, h.status⟩

theorem State.Inv.applied (h : s.Inv) (next count : Nat) (m : Matrix) :
    (s.applied next count m).Inv :=
  ⟨h.input, h.output, h.status⟩

/-- The indices left below `k` in a buffer that holds exactly the indices below `n`. -/
theorem Memory.below_indices {m : Memory} {n k : Nat} (h : m.map (·.1) = List.range n) (hk : k ≤ n) :
    (m.below k).map (·.1) = List.range k := by
  have hcomp : (m.below k).map (·.1) = (m.map (·.1)).filter (· < k) := by
    rw [List.filter_map]; rfl
  obtain ⟨d, rfl⟩ := Nat.exists_eq_add_of_le hk
  rw [hcomp, h, List.range_add, List.filter_append, List.filter_eq_self.mpr (by simp),
    List.filter_eq_nil_iff.mpr (by simp), List.append_nil]

/-- A commit that starts at or below OLEN and fits leaves a value exactly below the new OLEN (R75). -/
theorem State.OutputOk.commitOutput (h : s.OutputOk) {start : Nat} {out : List Byte}
    (hstart : start ≤ s.olen.toNat) (hfit : start + out.length ≤ s.caps.obufBytes) :
    (s.commitOutput start out).OutputOk := by
  obtain ⟨hidx, -⟩ := h
  have hcap := s.caps.obufBytes_range
  have holen : (s.commitOutput start out).olen.toNat = start + out.length := by
    rw [State.commitOutput_olen, BitVec.toNat_ofNat]
    exact Nat.mod_eq_of_lt (by omega)
  refine ⟨?_, by rw [holen]; exact hfit⟩
  rw [holen, State.commitOutput_obuf, List.map_append, Memory.below_indices hidx hstart,
    cellsFrom_indices, List.range_eq_range', List.range_eq_range']
  simpa using List.range'_append (s := 0) (m := start) (n := out.length) (step := 1)

theorem State.Inv.commitOutput (h : s.Inv) {start : Nat} {out : List Byte}
    (hstart : start ≤ s.olen.toNat) (hfit : start + out.length ≤ s.caps.obufBytes) :
    (s.commitOutput start out).Inv :=
  ⟨h.input, h.output.commitOutput hstart hfit, h.status⟩

/-- PIXENC's output starts at or below OLEN (R169). -/
theorem State.appendFrom_le (s : State) (ap : Bool) : s.appendFrom ap ≤ s.olen.toNat := by
  cases ap <;> simp [State.appendFrom]

/-- However a command ends, the invariant is kept. -/
theorem Ends.inv {i : Instr} {t : State} (hend : Ends s i t) (h : s.Inv) : t.Inv := by
  cases hend with
  | raised _ e pos => exact h.raise e pos
  | output _ start out hi hfit =>
    have hstart : start ≤ s.olen.toNat := by
      cases i with
      | hex2bin | bin2hex | ckcomp | matrixenc => exact le_of_eq_of_le hi (Nat.zero_le _)
      | pixenc _ _ ap => exact le_of_eq_of_le hi (s.appendFrom_le ap)
      | ckverify | recdec | frameapply => exact hi.elim
    exact (h.commitOutput hstart hfit).complete false
  | verified b => exact h.complete true
  | surfaced xf vf b r => exact (h.surface r).complete vf
  | mismatch xf b r => exact (h.surface r).raise _ _
  | applied b next count m => exact (h.applied next count m).complete false
  | stopped b e next count m => exact (h.applied next count m).raise _ _

theorem State.Inv.engineStep {t : State} (h : s.Inv) (hs : engineStep s = .next t) : t.Inv := by
  obtain ⟨i, -, hexec⟩ | ⟨-, rfl⟩ := engineStep_cases hs
  · exact (exec_cases hexec).inv h
  · exact h.raise _ _

/-! ### The host's accesses -/

theorem State.Inv.returned (h : s.Inv) (w : Word) : (s.returned w).Inv :=
  ⟨h.input, h.output, h.status⟩

/-- A read of STATUS closes R213's window only with BUSY = 0. -/
theorem State.Inv.polled (h : s.Inv) (a : Addr) : (s.polled a).Inv := by
  obtain ⟨hvalid, herr, hbusy⟩ := h.status
  refine ⟨h.input, h.output, hvalid, herr, fun hb => ?_⟩
  obtain ⟨hcmd, hwait⟩ := hbusy hb
  have hb : s.busy = true := hb
  exact ⟨hcmd, by simp [hb, hwait]⟩

theorem State.Inv.writeInput (h : s.Inv) {i : Nat} (hi : i < s.caps.ibufBytes) (b : Byte) :
    (s.writeInput i b).Inv := by
  obtain ⟨hwf, hcap⟩ := h.input
  refine ⟨⟨Memory.write_wf i b hwf, fun c hc => ?_⟩, h.output, h.status⟩
  obtain rfl | hc := Memory.mem_write hc
  · exact hi
  · exact hcap c hc

theorem State.Inv.writeInputs (h : s.Inv) {i : Nat} {bs : List Byte}
    (hi : i + bs.length ≤ s.caps.ibufBytes) : (s.writeInputs i bs).Inv := by
  induction bs generalizing s i with
  | nil => exact h
  | cons b bs ih =>
    rw [List.length_cons] at hi
    exact ih (h.writeInput (by omega) b) (by rw [State.writeInput_caps]; omega)

/-- A write to CMD sets BUSY with CMD = PCMD and the window open (R21, R44). -/
theorem State.Inv.issue (h : s.Inv) (w : Word) : (s.issue w).Inv := by
  obtain ⟨hvalid, herr, -⟩ := h.status
  exact ⟨h.input, h.output, hvalid, herr, fun _ => ⟨rfl, rfl⟩⟩

theorem State.Inv.writeReg (h : s.Inv) (r : Reg) (w : Word) : (s.writeReg r w).Inv := by
  cases r with
  | cmd => exact h.issue w
  | ctrl | ilen | iptr | pixpos | pixrgb => exact ⟨h.input, h.output, h.status⟩
  | status | olen | errpos | reccnt | trail => exact h

theorem State.Inv.hostAccess {t : State} {x : Access} (h : s.Inv) (hx : hostAccess s x = .ok t) :
    t.Inv := by
  obtain ⟨w, rfl⟩ | ⟨a, w, rfl⟩ | ⟨a, b, -, hw⟩ | ⟨a, w, -, hw⟩ := hostAccess_cases hx
  · exact h.returned w
  · exact (h.returned w).polled a
  · obtain ⟨-, i, hi, rfl⟩ := busWrite8_cases hw
    exact h.writeInput (lt_of_region_ibuf hi) b
  · obtain ⟨-, ⟨r, -, -, rfl⟩ | ⟨i, -, -, hi, rfl⟩⟩ := busWrite32_cases hw
    · exact h.writeReg r w
    · exact h.writeInputs (by simp only [bytes4, List.length_cons, List.length_nil]; omega)

/-! ### Turns -/

/-- The host program, the schedule and the consumer's record are not in the invariant. -/
theorem State.Inv.agents (h : s.Inv) (ops : List HostOp) (ts : List Turn) (ws : List Word) :
    { s with host := ops, turns := ts, consumerReads := ws }.Inv :=
  ⟨h.input, h.output, h.status⟩

theorem State.Inv.hostTurn {t : State} (h : s.Inv) (hs : hostTurn s = .next t) : t.Inv := by
  obtain ⟨-, rfl⟩ | ⟨x, rest, -, hx⟩ | ⟨rest, -, hx⟩ := hostTurn_cases hs
  · exact h
  · exact (h.agents rest s.turns s.consumerReads).hostAccess hx
  · exact (h.agents _ s.turns s.consumerReads).hostAccess hx

/-- Reset leaves both buffers empty, OLEN = 0 and BUSY = 0 (R46). -/
theorem State.resetWith_inv (caps : Capacities) : (State.resetWith caps).Inv where
  input := ⟨List.Pairwise.nil, by simp [State.resetWith]⟩
  output := ⟨rfl, Nat.zero_le _⟩
  status := ⟨nofun, fun _ => rfl, nofun⟩

theorem resetTurn_inv (s : State) : (resetTurn s).Inv :=
  let ⟨hin, hout, hstat⟩ := State.resetWith_inv s.caps
  ⟨hin, hout, hstat⟩

end

/-- Settles O15, by the cases of a step: each agent's turn keeps the invariant. -/
theorem stepKeepsInvariant : Obligations.StepKeepsInvariant := by
  intro s t h hstep
  obtain ⟨s₀, rfl, ⟨-, he⟩ | hh | rfl | ⟨-, w, rfl⟩ | rfl⟩ := step_cases hstep
  · exact (h.agents s.host s.turns.tail s.consumerReads).engineStep he
  · exact (h.agents s.host s.turns.tail s.consumerReads).hostTurn hh
  · exact h.agents s.host s.turns.tail s.consumerReads
  · exact h.agents s.host s.turns.tail (w :: s.consumerReads)
  · exact resetTurn_inv _

/-- Settles O14, which `State.resetWith_inv` states for every pair of capacities. -/
theorem resetMeetsInvariant : Obligations.ResetMeetsInvariant :=
  ⟨State.resetWith_inv _, State.resetWith_inv⟩

end Sys2Proof.Machine
end

section
/-!
PROOFS. The statements of 20_memory.md about the host bus: which violation an access is, the little-endian word of
IBUF, and reads.
-/

namespace Sys2Proof.Machine

/-! ## The address map, from the address (R60, R61) -/

/-- Every number below 2^18 is its own bus address. -/
theorem addr_toNat {n : Nat} (h : n < 0x40000) : (BitVec.ofNat 18 n).toNat = n :=
  BitVec.toNat_ofNat n 18 ▸ Nat.mod_eq_of_lt h

theorem region_regByte (caps : Capacities) {n : Nat} (h : n < 0x2C) :
    region caps (BitVec.ofNat 18 n) = .reg n := by
  simp only [region, addr_toNat (show n < 0x40000 by omega), h, if_true]

/-- The four ranges of addresses that nothing takes (R22, R60, R61). -/
theorem region_reserved (caps : Capacities) {n : Nat}
    (h : (0x2C ≤ n ∧ n < 0x10000) ∨ (0x10000 + caps.ibufBytes ≤ n ∧ n < 0x20000) ∨
      (0x20000 + caps.obufBytes ≤ n ∧ n < 0x30000) ∨ (0x30400 ≤ n ∧ n < 0x40000)) :
    region caps (BitVec.ofNat 18 n) = .reserved := by
  simp only [region, addr_toNat (show n < 0x40000 by omega)]
  obtain ⟨hlo, hhi⟩ | ⟨hlo, hhi⟩ | ⟨hlo, hhi⟩ | ⟨hlo, hhi⟩ := h
  · rw [if_neg (by omega), if_pos hhi]
  · rw [if_neg (by omega), if_neg (by omega), if_pos hhi, if_neg (by omega)]
  · rw [if_neg (by omega), if_neg (by omega), if_neg (by omega), if_pos hhi, if_neg (by omega)]
  · rw [if_neg (by omega), if_neg (by omega), if_neg (by omega), if_neg (by omega), if_neg (by omega)]

/-- Registers are words: no register starts at a misaligned offset (R22). -/
theorem Reg.at_misaligned {n : Nat} (h : n % 4 ≠ 0) : Reg.at n = none := by
  rw [Option.eq_none_iff_forall_not_mem]
  intro r hr
  have hoff : r.offset % 4 = 0 := by cases r <;> rfl
  exact h (Reg.offset_of_at hr ▸ hoff)

/-! ## Violations by R213's window, and outside it by the region (R61 to R64) -/

theorem State.inBusyWindow_iff (s : State) :
    s.inBusyWindow = true ↔ s.busy = true ∨ s.awaiting = true := by
  simp [State.inBusyWindow]

/-- In R213's window every access but a 32-bit read of STATUS is named for the window. -/
theorem hostAccess_inBusyWindow {s : State} (h : s.inBusyWindow = true) {x : Access}
    (hx : x ≠ .read32 Reg.status.addr) : hostAccess s x = .error .hostWhileBusy := by
  cases x with
  | read8 a => simp only [hostAccess, busRead8, h, if_true]
  | read32 a =>
    have ha : a ≠ Reg.status.addr := fun ha => hx (ha ▸ rfl)
    simp only [hostAccess, busRead32, if_pos (And.intro h ha)]
  | write8 a b => exact if_pos h
  | write32 a w => exact if_pos h
  | otherWidth a => exact if_pos h

section

variable {s : State} (hwin : s.inBusyWindow = false) {a : Addr}
include hwin

theorem hostAccess_reserved (ha : region s.caps a = .reserved) :
    hostAccess s (.read8 a) = .error .reservedAddress ∧
    hostAccess s (.read32 a) = .error .reservedAddress ∧
    (∀ v, hostAccess s (.write8 a v) = .error .reservedAddress) ∧
    ∀ w, hostAccess s (.write32 a w) = .error .reservedAddress := by
  simp [hostAccess, busRead8, busRead32, busWrite8, busWrite32, hwin, ha]

/-- Only the buffer windows take an 8-bit read (R62). -/
theorem hostAccess_read8_width {n : Nat} (ha : region s.caps a = .reg n ∨ region s.caps a = .matrix n) :
    hostAccess s (.read8 a) = .error .accessWidth := by
  obtain ha | ha := ha <;> simp [hostAccess, busRead8, hwin, ha]

theorem hostAccess_write8_reg {n : Nat} (ha : region s.caps a = .reg n) (v : Byte) :
    hostAccess s (.write8 a v) = .error .accessWidth := by
  simp [hostAccess, busWrite8, hwin, ha]

/-- Every region takes 32-bit reads at multiples of 4 alone (R62). -/
theorem hostAccess_read32_misaligned {n : Nat} (hn : n % 4 ≠ 0)
    (ha : region s.caps a ∈ [.reg n, .ibuf n, .obuf n, .matrix n]) :
    hostAccess s (.read32 a) = .error .misaligned := by
  simp only [List.mem_cons, List.not_mem_nil, or_false] at ha
  obtain ha | ha | ha | ha := ha <;> simp [hostAccess, busRead32, hwin, ha, hn, Reg.at_misaligned]

theorem hostAccess_write32_misaligned {n : Nat} (hn : n % 4 ≠ 0)
    (ha : region s.caps a = .reg n ∨ region s.caps a = .ibuf n) (w : Word) :
    hostAccess s (.write32 a w) = .error .misaligned := by
  obtain ha | ha := ha <;> simp [hostAccess, busWrite32, hwin, ha, hn, Reg.at_misaligned]

/-- An aligned word that begins inside IBUF and runs past its capacity (R61). -/
theorem hostAccess_ibuf_past {i : Nat} (hal : i % 4 = 0) (hpast : s.caps.ibufBytes ≤ i + 3)
    (ha : region s.caps a = .ibuf i) :
    hostAccess s (.read32 a) = .error .reservedAddress ∧
    ∀ w, hostAccess s (.write32 a w) = .error .reservedAddress := by
  simp [hostAccess, busRead32, busWrite32, hwin, ha, hal, hpast]

theorem hostAccess_obuf_past {i : Nat} (hal : i % 4 = 0) (hpast : s.caps.obufBytes ≤ i + 3)
    (ha : region s.caps a = .obuf i) : hostAccess s (.read32 a) = .error .reservedAddress := by
  simp [hostAccess, busRead32, hwin, ha, hal, hpast]

theorem hostAccess_write32_readOnlyReg {r : Reg} (hr : r.readOnly = true) (w : Word) :
    hostAccess s (.write32 r.addr w) = .error .readOnlyWrite := by
  simp [hostAccess, busWrite32, hwin, Reg.at_offset, hr]

/-- The OBUF and matrix windows take no write of either width (R63). -/
theorem hostAccess_write_readOnlyWindow {n : Nat}
    (ha : region s.caps a = .obuf n ∨ region s.caps a = .matrix n) :
    (∀ w, hostAccess s (.write32 a w) = .error .readOnlyWrite) ∧
    ∀ v, hostAccess s (.write8 a v) = .error .readOnlyWrite := by
  obtain ha | ha := ha <;> simp [hostAccess, busWrite32, busWrite8, hwin, ha]

end

/-- Settles O50: in the window the access is named for it, outside by the read-only register or region. -/
theorem readOnlyWriteFaults : Obligations.ReadOnlyWriteFaults := by
  intro s w v x hx
  simp only [← State.inBusyWindow_iff]
  cases hwin : s.inBusyWindow with
  | true =>
    have hwrite : x ≠ .read32 Reg.status.addr := by
      obtain ⟨r, -, rfl⟩ | ⟨i, -, rfl | rfl⟩ | ⟨i, -, rfl | rfl⟩ := hx <;> exact nofun
    exact hostAccess_inBusyWindow hwin hwrite
  | false =>
    obtain ⟨r, hr, rfl⟩ | ⟨i, hi, hx⟩ | ⟨i, hi, hx⟩ := hx
    · have hro : r.readOnly = true := by revert r; decide
      exact hostAccess_write32_readOnlyReg hwin hro w
    · obtain ⟨h32, h8⟩ := hostAccess_write_readOnlyWindow hwin (.inl (region_obuf s.caps hi))
      obtain rfl | rfl := hx
      · exact h32 w
      · exact h8 v
    · obtain ⟨h32, h8⟩ := hostAccess_write_readOnlyWindow hwin (.inr (region_matrix s.caps hi))
      obtain rfl | rfl := hx
      · exact h32 w
      · exact h8 v

/-- Settles O51: the address gives the region, and the region refuses the width or the alignment. -/
theorem widthAndAlignmentFault : Obligations.WidthAndAlignmentFault := by
  intro s v w hb hwait
  have hwin := State.inBusyWindow_idle hb hwait
  refine ⟨fun a => ?_, fun i hi => ?_, fun i hi hn => ?_, fun i hi hn => ?_, fun i hi hn => ?_, fun i hi => ?_⟩
  · simp [hostAccess, hwin]
  · have ha := region_regByte s.caps hi
    exact ⟨hostAccess_read8_width hwin (.inl ha), hostAccess_write8_reg hwin ha v⟩
  · have ha := region_regByte s.caps hi
    exact ⟨hostAccess_read32_misaligned hwin hn (by simp [ha]),
      hostAccess_write32_misaligned hwin hn (.inl ha) w⟩
  · have ha := region_ibuf s.caps hi
    exact ⟨hostAccess_read32_misaligned hwin hn (by simp [ha]),
      hostAccess_write32_misaligned hwin hn (.inr ha) w⟩
  · exact hostAccess_read32_misaligned hwin hn (by simp [region_obuf s.caps hi])
  · have ha := region_matrix s.caps hi
    exact ⟨hostAccess_read8_width hwin (.inr ha),
      fun hn => hostAccess_read32_misaligned hwin hn (by simp [ha])⟩

/-- Settles O52: the address is reserved, or the word's last byte lies past the capacity. -/
theorem reservedAddressFaults : Obligations.ReservedAddressFaults := by
  refine ⟨fun s n v w hb hwait hn => ?_, fun s i w hb hwait hal => ⟨fun hi hpast => ?_, fun hi hpast => ?_⟩⟩
  · obtain ⟨hr8, hr32, hw8, hw32⟩ :=
      hostAccess_reserved (State.inBusyWindow_idle hb hwait) (region_reserved s.caps hn)
    exact ⟨hr8, hr32, hw8 v, hw32 w⟩
  · obtain ⟨hr32, hw32⟩ :=
      hostAccess_ibuf_past (State.inBusyWindow_idle hb hwait) hal hpast (region_ibuf s.caps hi)
    exact ⟨hr32, hw32 w⟩
  · exact hostAccess_obuf_past (State.inBusyWindow_idle hb hwait) hal hpast (region_obuf s.caps hi)

/-! ## Words of IBUF (R66) -/

/-- Consecutive writes leave the bytes outside their range. -/
theorem State.writeInputs_read_outside (s : State) {i a : Nat} {bs : List Byte}
    (h : a < i ∨ i + bs.length ≤ a) : (s.writeInputs i bs).ibuf.read a = s.ibuf.read a := by
  induction bs generalizing s i with
  | nil => rfl
  | cons b bs ih =>
    rw [List.length_cons] at h
    calc (s.writeInputs i (b :: bs)).ibuf.read a
        = (s.writeInput i b).ibuf.read a := ih (s.writeInput i b) (by omega)
      _ = s.ibuf.read a := Memory.read_write_other _ _ (by omega)

/-- Consecutive writes set the bytes in order from the first index on. -/
theorem State.writeInputs_read_inside (s : State) {i k : Nat} {bs : List Byte} {v : Byte}
    (h : bs[k]? = some v) : (s.writeInputs i bs).ibuf.read (i + k) = some v := by
  induction bs generalizing s i k with
  | nil => simp at h
  | cons b bs ih =>
    cases k with
    | zero =>
      obtain rfl : b = v := by simpa using h
      calc (s.writeInputs i (b :: bs)).ibuf.read i
          = (s.writeInput i b).ibuf.read i :=
            (s.writeInput i b).writeInputs_read_outside (.inl (Nat.lt_succ_self i))
        _ = some b := Memory.read_write_same _ _ _
    | succ k =>
      rw [← Nat.succ_add_eq_add_succ]
      exact ih (s.writeInput i b) (by simpa using h)

/-- The four bytes of a word, most significant first, are the word. -/
theorem append_byteFields (w : Word) :
    w.extractLsb' 24 8 ++ w.extractLsb' 16 8 ++ w.extractLsb' 8 8 ++ w.extractLsb' 0 8 = w := by
  apply BitVec.eq_of_getLsbD_eq
  intro i hi
  simp only [BitVec.getLsbD_append, BitVec.getLsbD_extractLsb']
  interval_cases i <;> simp

section

variable {s : State} (hb : s.busy = false) (ha : s.awaiting = false) {i : Nat} (hal : i % 4 = 0)
  (hi : i + 3 < s.caps.ibufBytes)
include hb ha hal hi

theorem busRead32_ibuf : busRead32 s (BitVec.ofNat 18 (0x10000 + i)) =
    orViolation .hostReadUnwritten (word4 s.ibuf.read i) := by
  simp only [busRead32, State.inBusyWindow_idle hb ha, Bool.false_eq_true, false_and, if_false,
    region_ibuf _ (show i < s.caps.ibufBytes by omega), hal, ne_eq, not_true_eq_false,
    show ¬ s.caps.ibufBytes ≤ i + 3 by omega]

theorem busWrite32_ibuf (w : Word) : busWrite32 s (BitVec.ofNat 18 (0x10000 + i)) w =
    .ok (s.writeInputs i (bytes4 w)) := by
  simp only [busWrite32, State.inBusyWindow_idle hb ha, Bool.false_eq_true, if_false,
    region_ibuf _ (show i < s.caps.ibufBytes by omega), hal, ne_eq, not_true_eq_false,
    show ¬ s.caps.ibufBytes ≤ i + 3 by omega]

end

/-- Settles O53: the write is four consecutive byte writes, and the read joins the same four bytes. -/
theorem inputWordIsLittleEndian : Obligations.InputWordIsLittleEndian := by
  intro s i w hb ha hal hi
  obtain ⟨t, ht⟩ : ∃ t, t = s.writeInputs i (bytes4 w) := ⟨_, rfl⟩
  have hframe : t = { s with ibuf := t.ibuf } := ht ▸ s.writeInputs_eq i (bytes4 w)
  have hbyte {k : Nat} {v : Byte} (hk : (bytes4 w)[k]? = some v) : t.ibuf.read (i + k) = some v :=
    ht ▸ s.writeInputs_read_inside hk
  have h0 : t.ibuf.read i = some (w.extractLsb' 0 8) := hbyte (k := 0) rfl
  have h1 := hbyte (k := 1) rfl
  have h2 := hbyte (k := 2) rfl
  have h3 := hbyte (k := 3) rfl
  refine ⟨t, ht ▸ busWrite32_ibuf hb ha hal hi w, hframe, h0, h1, h2, h3, fun a hout => ?_, ?_⟩
  · exact ht ▸ s.writeInputs_read_outside hout
  · have hread : busRead32 t (BitVec.ofNat 18 (0x10000 + i)) =
        orViolation .hostReadUnwritten (word4 t.ibuf.read i) := by
      rw [hframe]
      exact busRead32_ibuf (s := { s with ibuf := t.ibuf }) hb ha hal hi
    have hword : word4 t.ibuf.read i = some w := by
      simp only [word4, h0, h1, h2, h3, append_byteFields]
    rw [hread, hword]
    rfl

/-! ## Reads (R69) -/

/-- A read of another address than STATUS leaves R213's window as it is. -/
theorem State.polled_of_ne_status (s : State) {a : Addr} (h : a ≠ Reg.status.addr) : s.polled a = s := by
  have hkeep : (if a = Reg.status.addr ∧ s.busy = false then false else s.awaiting) = s.awaiting :=
    if_neg fun hc => h hc.1
  rw [State.polled, hkeep]

/-- Closing R213's window does not change what the read that closed it returns. -/
theorem busRead32_polled (s : State) (a : Addr) : busRead32 (s.polled a) a = busRead32 s a := by
  by_cases h : a = Reg.status.addr
  · subst h
    exact (busRead32_status _).trans (busRead32_status s).symm
  · rw [s.polled_of_ne_status h]

/-- Settles O57: an allowed read records its value, and the record is not read. -/
theorem readsHaveNoSideEffect : Obligations.ReadsHaveNoSideEffect := by
  refine fun s t a => ⟨fun h => ?_, fun h => ?_⟩
  · simp only [hostAccess] at h
    split at h
    · simp at h
    · obtain rfl := Except.ok.inj h
      exact ⟨rfl, rfl⟩
  · simp only [hostAccess] at h
    split at h
    · simp at h
    · next w hw =>
      obtain rfl := Except.ok.inj h
      exact ⟨rfl, busRead32_polled (s.returned w) a⟩

end Sys2Proof.Machine
end

section
/-!
PROOFS. The statements of 30_encoding.md sections 1 to 3: a word by its fields, the row it selects, and the command
the row makes of it.
-/

namespace Sys2Proof

open Laws.OpcodeRow

/-! ## A word by its fields (R80) -/

/-- BSZ, FLAGS and OP side by side are the word. -/
theorem cmdFields_append (w : Word) : w.extractLsb' 16 16 ++ cmdFlags w ++ cmdOp w = w := by
  have hhigh : w.extractLsb' 16 16 ++ cmdFlags w = w.extractLsb' 8 24 :=
    BitVec.extractLsb'_append_extractLsb'_eq_extractLsb' rfl
  have hword : w.extractLsb' 8 24 ++ cmdOp w = w.extractLsb' 0 32 :=
    BitVec.extractLsb'_append_extractLsb'_eq_extractLsb' rfl
  rw [hhigh, hword, BitVec.extractLsb'_eq_self]

theorem append_inj {m n : Nat} {x x' : BitVec m} {y y' : BitVec n} :
    x ++ y = x' ++ y' ↔ x = x' ∧ y = y' := by
  refine ⟨fun h => ⟨?_, ?_⟩, fun ⟨hx, hy⟩ => hx ▸ hy ▸ rfl⟩
  · simpa only [BitVec.extractLsb'_append_eq_left] using congrArg (BitVec.extractLsb' n m) h
  · simpa only [BitVec.extractLsb'_append_eq_right] using congrArg (BitVec.extractLsb' 0 n) h

/-- Two words with the same OP, FLAGS and BSZ are the same word. -/
theorem cmdFields_ext {w w' : Word} (hop : cmdOp w = cmdOp w') (hflags : cmdFlags w = cmdFlags w')
    (hbsz : cmdBsz w = cmdBsz w') : w = w' := by
  rw [← cmdFields_append w, ← cmdFields_append w', hop, hflags, BitVec.eq_of_toNat_eq hbsz]

theorem cmdBsz_lt (w : Word) : cmdBsz w < 65536 := (w.extractLsb' 16 16).isLt

/-- The permitted flags of a word, put back into a word's FLAGS, are those bits of its FLAGS. -/
theorem cmdFlags_cmdWord_permitted (w : Word) (op p : Byte) (b : Nat)
    (hrsv : ∀ k < 8, 5 ≤ k → p.getLsbD k = false) :
    cmdFlags (cmdWord op (cmdCk w && p.getLsbD 0) (cmdXf w && p.getLsbD 1) (cmdAp w && p.getLsbD 2)
      (cmdTm w && p.getLsbD 3) (cmdVf w && p.getLsbD 4) b) = cmdFlags w &&& p := by
  apply BitVec.eq_of_getLsbD_eq
  intro k hk
  have hp := hrsv k hk
  rw [cmdFlags, BitVec.getLsbD_extractLsb', cmdWord_getLsbD, BitVec.getLsbD_and, cmdFlags,
    BitVec.getLsbD_extractLsb']
  interval_cases k <;> simp_all [cmdCk, cmdXf, cmdAp, cmdTm, cmdVf]

/-- FLAGS without a bit outside `p` are left whole by `p`. -/
theorem and_eq_self_of_and_not {f p : Byte} (h : f &&& ~~~p = 0#8) : f &&& p = f := by
  calc f &&& p
      = (f &&& p) ||| (f &&& ~~~p) := by rw [h, BitVec.or_zero]
    _ = f &&& (p ||| ~~~p) := BitVec.and_or_distrib_left.symm
    _ = f := by rw [BitVec.or_not_self, BitVec.and_allOnes]

/-! ## The command a row makes of a word (R82 to R84) -/

/-- The command of `i`'s row with the flags and the BSZ of `w`. -/
def Instr.refill (w : Word) : Instr → Instr
  | .hex2bin _ => .hex2bin (cmdBsz w)
  | .bin2hex _ => .bin2hex (cmdBsz w)
  | .ckcomp _ _ => .ckcomp (cmdXf w) (cmdBsz w)
  | .ckverify _ => .ckverify (cmdBsz w)
  | .pixenc _ _ _ _ _ => .pixenc (cmdCk w) (cmdXf w) (cmdAp w) (cmdTm w) (cmdBsz w)
  | .recdec _ _ _ => .recdec (cmdXf w) (cmdVf w) (cmdBsz w)
  | .frameapply _ => .frameapply (cmdBsz w)
  | .matrixenc _ _ _ => .matrixenc (cmdCk w) (cmdXf w) (cmdBsz w)

@[simp] theorem Instr.refill_bsz (w : Word) (i : Instr) : (i.refill w).bsz = cmdBsz w := by
  cases i <;> rfl

@[simp] theorem Instr.refill_refill (w : Word) (i : Instr) : (i.refill w).refill w = i.refill w := by
  cases i <;> rfl

@[simp] theorem Instr.rowOf_refill (w : Word) (i : Instr) : rowOf (i.refill w) = rowOf i := by
  cases i <;> rfl

/-- BSZ of a well-formed command's word (R80). -/
theorem cmdBsz_encode {i : Instr} (h : i.WellFormed) : cmdBsz (encode i) = i.bsz := by
  cases i <;> exact cmdBsz_cmdWord _ _ _ _ _ _ _ h

/-- A command's own word refills it with itself. -/
theorem Instr.refill_encode {i : Instr} (h : i.WellFormed) : i.refill (encode i) = i := by
  have hbsz := cmdBsz_encode h
  cases i <;> simp_all [Instr.refill, encode, Instr.bsz]

/-- Every command's word has its row's OP and only flags the row permits. -/
theorem encode_row (i : Instr) : Statement i := by
  cases i with
  | hex2bin b => exact hex2bin b
  | bin2hex b => exact bin2hex b
  | ckcomp xf b => exact ckcomp xf b
  | ckverify b => exact ckverify b
  | pixenc ck xf ap tm b => exact pixenc ck xf ap tm b
  | recdec xf vf b => exact recdec xf vf b
  | frameapply b => exact frameapply b
  | matrixenc ck xf b => exact matrixenc ck xf b

/-- The word of a refilled command has the flags of `w` that its row permits. -/
theorem cmdFlags_encode_refill (w : Word) (i : Instr) :
    cmdFlags (encode (i.refill w)) = cmdFlags w &&& (rowOf i).permitted := by
  have hrsv : ∀ r ∈ opcodeMap, ∀ k < 8, 5 ≤ k → r.permitted.getLsbD k = false := by decide
  rw [← cmdFlags_cmdWord_permitted w (rowOf i).op _ (cmdBsz w) (hrsv _ (encode_row i).1)]
  cases i <;> simp [Instr.refill, encode, rowOf]

/-- Every row is the row of a command. -/
theorem exists_rowOf {r : OpcodeRow} (h : r ∈ opcodeMap) : ∃ i, rowOf i = r := by
  simp only [opcodeMap, List.mem_cons, List.not_mem_nil, or_false] at h
  obtain rfl | rfl | rfl | rfl | rfl | rfl | rfl | rfl := h
  · exact ⟨.hex2bin 0, rfl⟩
  · exact ⟨.bin2hex 0, rfl⟩
  · exact ⟨.ckcomp false 0, rfl⟩
  · exact ⟨.ckverify 0, rfl⟩
  · exact ⟨.pixenc false false false false 0, rfl⟩
  · exact ⟨.recdec false false 0, rfl⟩
  · exact ⟨.frameapply 0, rfl⟩
  · exact ⟨.matrixenc false false 0, rfl⟩

/-! ## The decoder -/

theorem decodeRow_eq_ok {w : Word} {p : Byte} {i j : Instr} :
    decodeRow w p i = .ok j ↔ cmdFlags w &&& ~~~p = 0#8 ∧ i = j := by
  unfold decodeRow
  split <;> simp_all

/-- A word with a row's OP is decoded by that row (R82). -/
theorem decode_of_cmdOp {w : Word} {i : Instr} (hop : cmdOp w = (rowOf i).op) :
    decode w = decodeRow w (rowOf i).permitted (i.refill w) := by
  cases i <;> (rw [decode, hop]; rfl)

/-- A word that decodes has the OP of a row (R82 step 1). -/
theorem cmdOp_of_decode {w : Word} {j : Instr} (h : decode w = .ok j) : ∃ i, cmdOp w = (rowOf i).op := by
  by_contra hno
  have hne : ∀ r ∈ opcodeMap, cmdOp w ≠ r.op := by
    rintro r hr hop
    obtain ⟨i, rfl⟩ := exists_rowOf hr
    exact hno ⟨i, hop⟩
  simp only [opcodeMap, List.forall_mem_cons] at hne
  simp [decode, hne] at h

/-- What decodes to a command: the words with its row's OP, no flag the row does not permit, and the command's own
flags and BSZ. -/
theorem decode_eq_ok_iff {w : Word} {i : Instr} :
    decode w = .ok i ↔ (cmdOp w = (rowOf i).op ∧ cmdFlags w &&& ~~~(rowOf i).permitted = 0#8) ∧
      i.refill w = i := by
  constructor
  · intro h
    obtain ⟨j, hop⟩ := cmdOp_of_decode h
    obtain ⟨hflags, rfl⟩ := decodeRow_eq_ok.mp (decode_of_cmdOp hop ▸ h)
    simp [hop, hflags]
  · rintro ⟨⟨hop, hflags⟩, hfill⟩
    rw [decode_of_cmdOp hop]
    exact decodeRow_eq_ok.mpr ⟨hflags, hfill⟩

/-- A word selects a row exactly when its OP is the row's and it has no flag the row does not permit (R83). -/
theorem OpcodeRow.selects_iff {r : OpcodeRow} {w : Word} :
    r.Selects w ↔ cmdOp w = r.op ∧ cmdFlags w &&& ~~~r.permitted = 0#8 := by
  have hmasked : w &&& r.mask = 0#16 ++ (cmdFlags w &&& ~~~r.permitted) ++ cmdOp w := by
    conv_lhs => rw [← cmdFields_append w, OpcodeRow.mask, BitVec.and_append, BitVec.and_append]
    rw [BitVec.and_zero, show (0xFF#8 : Byte) = BitVec.allOnes 8 from rfl, BitVec.and_allOnes]
  have hpattern : r.pattern = 0#16 ++ 0#8 ++ r.op := rfl
  rw [OpcodeRow.Selects, hmasked, hpattern, append_inj, append_inj]
  tauto

/-- Settles O2: a command's word has its row's OP and permitted flags, and refills it with itself. -/
theorem decodeOfEncodeIsInstr : Obligations.DecodeOfEncodeIsInstr := by
  intro i hwf
  obtain ⟨-, hop, hflags⟩ := encode_row i
  exact decode_eq_ok_iff.mpr ⟨⟨hop, hflags⟩, Instr.refill_encode hwf⟩

/-- Settles O3, field by field: OP is the row's, no flag is outside the permitted ones, BSZ is the word's. -/
theorem encodeOfDecodeIsWord : Obligations.EncodeOfDecodeIsWord := by
  intro w i h
  obtain ⟨⟨hop, hflags⟩, hfill⟩ := decode_eq_ok_iff.mp h
  obtain ⟨-, hrow, -⟩ := encode_row i
  have hbsz : i.bsz = cmdBsz w := hfill ▸ i.refill_bsz w
  have hwf : i.WellFormed := lt_of_eq_of_lt hbsz (cmdBsz_lt w)
  refine ⟨hwf, cmdFields_ext (hrow.trans hop.symm) ?_ ((cmdBsz_encode hwf).trans hbsz)⟩
  rw [← hfill, cmdFlags_encode_refill, and_eq_self_of_and_not hflags]

/-- Settles O4: the word's row is that of the command it decodes to; two rows differ in OP. -/
theorem wordDecodesIffRowSelects : Obligations.WordDecodesIffRowSelects := by
  have hunique : ∀ r ∈ opcodeMap, ∀ r' ∈ opcodeMap, r.op = r'.op → r = r' := by decide
  refine ⟨fun w => ⟨fun ⟨i, hi⟩ => ?_, fun ⟨r, hr, hsel⟩ => ?_⟩, fun w r hr r' hr' hsel hsel' => ?_,
    by decide⟩
  · obtain ⟨hrow, -⟩ := decode_eq_ok_iff.mp hi
    exact ⟨rowOf i, (encode_row i).1, OpcodeRow.selects_iff.mpr hrow⟩
  · obtain ⟨i, rfl⟩ := exists_rowOf hr
    exact ⟨i.refill w, decode_eq_ok_iff.mpr (by simpa using OpcodeRow.selects_iff.mp hsel)⟩
  · obtain ⟨hop, -⟩ := OpcodeRow.selects_iff.mp hsel
    obtain ⟨hop', -⟩ := OpcodeRow.selects_iff.mp hsel'
    exact hunique r hr r' hr' (hop.symm.trans hop')

/-- Settles O1, by running the assembler and the decoder on the table's fixed words. -/
theorem specExampleWordsDecode : Obligations.SpecExampleWordsDecode := by
  unfold Obligations.SpecExampleWordsDecode
  decide

end Sys2Proof
end

section
/-!
PROOFS. The statements of 30_encoding.md about commands and host programs: what a command leaves unchanged, one host
statement, DO, and XF where no checksum is asked for.
-/

namespace Sys2Proof.Machine

/-! ## What a command leaves unchanged (R85) -/

section

variable {s t : State} {i : Instr} (h : Ends s i t)
include h

theorem Ends.keeps_operands :
    t.caps = s.caps ∧ t.cmd = s.cmd ∧ t.pcmd = s.pcmd ∧ t.fb16 = s.fb16 ∧ t.ilen = s.ilen ∧
      t.ibuf = s.ibuf := by
  cases h <;> exact ⟨rfl, rfl, rfl, rfl, rfl, rfl⟩

theorem Ends.keeps_agents :
    t.awaiting = s.awaiting ∧ t.host = s.host ∧ t.turns = s.turns ∧ t.hostReads = s.hostReads ∧
      t.consumerReads = s.consumerReads := by
  cases h <;> exact ⟨rfl, rfl, rfl, rfl, rfl⟩

/-- Only FRAMEAPPLY writes the matrix store and RECCNT (R171). -/
theorem Ends.keeps_matrix (hi : ∀ b, i ≠ .frameapply b) : t.matrix = s.matrix ∧ t.reccnt = s.reccnt := by
  cases h with
  | applied b | stopped b => exact absurd rfl (hi b)
  | raised | output | verified | surfaced | mismatch => exact ⟨rfl, rfl⟩

/-- Only RECDEC writes PIXPOS, PIXRGB and TRAIL (R170). -/
theorem Ends.keeps_pixel (hi : ∀ xf vf b, i ≠ .recdec xf vf b) :
    t.pixRow = s.pixRow ∧ t.pixCol = s.pixCol ∧ t.pixRgb = s.pixRgb ∧ t.toff = s.toff ∧
      t.tlen = s.tlen := by
  cases h with
  | surfaced xf vf b | mismatch xf b => exact absurd rfl (hi xf _ b)
  | raised | output | verified | applied | stopped => exact ⟨rfl, rfl, rfl, rfl, rfl⟩

/-- Only the two record commands move IPTR (R170, R171). -/
theorem Ends.keeps_iptr (hrec : ∀ xf vf b, i ≠ .recdec xf vf b) (hframe : ∀ b, i ≠ .frameapply b) :
    t.iptr = s.iptr := by
  cases h with
  | surfaced xf vf b | mismatch xf b => exact absurd rfl (hrec xf _ b)
  | applied b | stopped b => exact absurd rfl (hframe b)
  | raised | output | verified => rfl

/-- CKVERIFY and the two record commands commit no output. -/
theorem Ends.keeps_output
    (hi : (∃ b, i = .ckverify b) ∨ (∃ xf vf b, i = .recdec xf vf b) ∨ ∃ b, i = .frameapply b) :
    t.olen = s.olen ∧ t.obuf = s.obuf := by
  cases h with
  | output _ start out hout => obtain ⟨b, rfl⟩ | ⟨xf, vf, b, rfl⟩ | ⟨b, rfl⟩ := hi <;> exact hout.elim
  | raised | verified | surfaced | mismatch | applied | stopped => exact ⟨rfl, rfl⟩

end

/-- Settles O13, by the ways a command ends. -/
theorem commandFrame : Obligations.CommandFrame := by
  intro i s t h
  have hend := exec_cases h
  refine ⟨hend.keeps_operands, hend.keeps_agents, hend.keeps_matrix, hend.keeps_pixel, hend.keeps_iptr,
    fun hi => ?_⟩
  obtain ⟨holen, hobuf⟩ := hend.keeps_output hi
  exact ⟨holen, fun a => by rw [hobuf]⟩

/-! ## A read of STATUS (R64, R213) -/

theorem hostAccess_status_busy {s : State} (hb : s.busy = true) :
    hostAccess s (.read32 Reg.status.addr) =
      .ok { s with hostReads := s.statusWord :: s.hostReads } := by
  simp only [hostAccess, busRead32_status]
  simp [State.polled, State.returned, hb]

/-- A read of STATUS with BUSY = 0 closes R213's window. -/
theorem hostAccess_status_idle {s : State} (hb : s.busy = false) :
    hostAccess s (.read32 Reg.status.addr) =
      .ok { s with awaiting := false, hostReads := s.statusWord :: s.hostReads } := by
  simp only [hostAccess, busRead32_status]
  simp [State.polled, State.returned, hb]

/-! ## The host's turn (R90) -/

theorem step_unscheduled_idle {s : State} (h : s.turns = []) (hb : s.busy = false) :
    step s = hostTurn s := by
  simp [step, agentStep, h, hb]

theorem accessStep_of_ok {s t : State} {x : Access} (h : hostAccess s x = .ok t) :
    accessStep s x = .next t := by
  simp only [accessStep, h]

theorem accessStep_of_error {s : State} {x : Access} {f : Fault} (h : hostAccess s x = .error f) :
    accessStep s x = .fault f := by
  simp only [accessStep, h]

/-- The host moves next and leaves the schedule `ts`: its turn is scheduled, or none is and BUSY = 0 (log entry 2). -/
abbrev HostMoves (s : State) (ts : List Turn) : Prop :=
  s.turns = .host :: ts ∨ (s.turns = [] ∧ ts = [] ∧ s.busy = false)

theorem step_host {s : State} {ts : List Turn} (h : HostMoves s ts) :
    step s = hostTurn { s with turns := ts } := by
  obtain ht | ⟨ht, hts, hb⟩ := h
  · rw [step_scheduled ht, turnStep]
  · obtain rfl : ts = s.turns := hts.trans ht.symm
    exact step_unscheduled_idle ht hb

section

variable {s : State} {ts : List Turn} {rest : List HostOp} (hmove : HostMoves s ts)
include hmove

theorem step_access {x : Access} (hhost : s.host = .access x :: rest) :
    step s = accessStep { s with host := rest, turns := ts } x := by
  simp only [step_host hmove, hostTurn, hhost]

theorem step_access_ok {x : Access} (hhost : s.host = .access x :: rest) {t : State}
    (hx : hostAccess s x = .ok t) : step s = .next { t with host := rest, turns := ts } := by
  rw [step_access hmove hhost]
  exact accessStep_of_ok (by rw [hostAccess_schedule, hx]; rfl)

theorem step_access_error {x : Access} (hhost : s.host = .access x :: rest) {f : Fault}
    (hx : hostAccess s x = .error f) : step s = .fault f := by
  rw [step_access hmove hhost]
  exact accessStep_of_error (by rw [hostAccess_schedule, hx]; rfl)

theorem step_poll (hhost : s.host = .poll :: rest) :
    step s = accessStep { s with host := if s.busy then .poll :: rest else rest, turns := ts }
      (.read32 Reg.status.addr) := by
  simp only [step_host hmove, hostTurn, hhost]

/-- A POLL that reads BUSY = 1 stays. -/
theorem step_poll_busy (hhost : s.host = .poll :: rest) (hb : s.busy = true) :
    step s = .next { s with turns := ts, hostReads := s.statusWord :: s.hostReads } := by
  have hstays : (if s.busy then .poll :: rest else rest) = s.host := by rw [hb, if_pos rfl, hhost]
  rw [step_poll hmove hhost, hstays]
  exact accessStep_of_ok (hostAccess_status_busy (s := { s with turns := ts }) hb)

/-- A POLL that reads BUSY = 0 is done. -/
theorem step_poll_idle (hhost : s.host = .poll :: rest) (hb : s.busy = false) :
    step s = .next
      { s with turns := ts, host := rest, awaiting := false, hostReads := s.statusWord :: s.hostReads } := by
  have hdone : (if s.busy then .poll :: rest else rest) = rest := by simp [hb]
  rw [step_poll hmove hhost, hdone]
  exact accessStep_of_ok (hostAccess_status_idle (s := { s with host := rest, turns := ts }) hb)

end

/-! ## Runs (R64, R218) -/

theorem run_succ_of_fault {s : State} {f : Fault} (h : step s = .fault f) (n : Nat) :
    core.run (n + 1) s = .fault f := by
  have hcore : core.step s = .fault f := h
  simp only [Host.Core.run, hcore]

/-- A run is a step and a run from where it leads. -/
theorem RunsTo.of_step {n : Nat} {s t u : State} (h : step s = .next t) (hrun : RunsTo n t u) :
    RunsTo (n + 1) s u := by
  have hcore : core.step s = .next t := h
  simp only [RunsTo, Host.Core.run, hcore]
  exact hrun

/-- Settles O60: an access is the step, a fault of the step ends every run, and POLL is a read of STATUS. -/
theorem hostTurnRunsStatement : Obligations.HostTurnRunsStatement := fun _ _ _ hmove =>
  ⟨fun _ hhost => ⟨fun _ hx => step_access_ok hmove hhost hx,
    fun _ hx => run_succ_of_fault (step_access_error hmove hhost hx)⟩,
    fun hhost => ⟨step_poll_busy hmove hhost, step_poll_idle hmove hhost⟩⟩

/-! ## DO (R91) -/

/-- DO of a word, whatever the engine's step on it is: the write issues the word and leads to `u`, the engine steps to
`t`, and POLL reads BUSY = 0 there. -/
theorem runsTo_do {s u t : State} {w : Word} {rest : List HostOp} (hb : s.busy = false)
    (ha : s.awaiting = false) (ht : s.turns = []) (hhost : s.host = hostDO w ++ rest)
    (hu : u = { s.issue w with host := .poll :: rest }) (hengine : engineStep u = .next t)
    (hbusy : t.busy = false) (hnext : t.host = u.host) (hturns : t.turns = u.turns) :
    RunsTo 3 s { t with host := rest, awaiting := false, hostReads := t.statusWord :: t.hostReads } := by
  subst hu
  have hturns : t.turns = [] := hturns.trans ht
  have haccess : hostAccess s (.write32 Reg.cmd.addr w) = .ok (s.issue w) :=
    busWrite32_reg hb ha (r := .cmd) rfl w
  have hwrite := step_access_ok (ts := s.turns) (.inr ⟨ht, ht, hb⟩) hhost haccess
  have hrun := (step_unscheduled_busy (s := { s.issue w with host := .poll :: rest }) ht rfl).trans hengine
  have hpoll := step_poll_idle (ts := t.turns) (.inr ⟨hturns, hturns, hbusy⟩) hnext hbusy
  exact .of_step hwrite (.of_step hrun (.of_step hpoll rfl))

/-- Settles O8: the engine's step is the command, which clears BUSY and leaves host and schedule, or the completion
of a word that names none. -/
theorem doRunsCommandThenPolls : Obligations.DoRunsCommandThenPolls := by
  refine ⟨fun s t w i rest hb ha ht hhost hi hexec => ?_, fun s w e rest hb ha ht hhost he => ?_⟩
  · obtain ⟨-, hends, -⟩ := everyCommandCompletes i { s.issue w with host := .poll :: rest }
    obtain ⟨hbusy, -⟩ := hends t hexec
    obtain ⟨-, hnext, hturns, -⟩ := (exec_cases hexec).keeps_agents
    exact runsTo_do hb ha ht hhost rfl ((engineStep_of_decode hi).trans hexec) hbusy hnext hturns
  · exact runsTo_do (t := State.illegal { s.issue w with host := .poll :: rest }) hb ha ht hhost rfl
      (engineStep_of_illegal he) rfl rfl rfl

/-! ## XF without a checksum (R86) -/

theorem encodeRecord_no_checksum (fb : Bool) (b row col : Nat) (v : Rgb) (xf : Bool) :
    encodeRecord fb false xf b row col v = encodePixel fb row col v := by
  unfold encodeRecord
  cases encodePixel fb row col v <;> rfl

theorem encodeCells_no_checksum (fb xf xf' : Bool) (b i : Nat) (vs : List Rgb) :
    encodeCells fb false xf b i vs = encodeCells fb false xf' b i vs := by
  induction vs generalizing i with
  | nil => rfl
  | cons v vs ih => simp only [encodeCells, encodeRecord_no_checksum, ih]

theorem pixencOutput_no_checksum (xf ap tm : Bool) (b : Nat) (s : State) :
    pixencOutput false xf ap tm b s = pixencOutput false false ap tm b s := by
  simp [pixencOutput, trailerChars, encodeRecord_no_checksum]

theorem matrixencOutput_no_checksum (xf : Bool) (b : Nat) (s : State) :
    matrixencOutput false xf b s = matrixencOutput false false b s := by
  simp [matrixencOutput, trailerChars, encodeMatrix, encodeCells_no_checksum s.fb16 xf false]

/-- Settles O48: without CK the output is the same, without VF no trailer is looked at. -/
theorem xfAloneHasNoEffect : Obligations.XfAloneHasNoEffect := by
  refine fun b s => ⟨fun ap tm => ?_, ?_, ?_⟩
  · simp only [exec, execPixenc, pixencOutput_no_checksum true]
  · simp only [exec, execMatrixenc, matrixencOutput_no_checksum true]
  · simp [exec, execRecdec]

end Sys2Proof.Machine
end

section
/-!
PROOFS. The statements of 40_hex_codec.md: the nibble table and the letters' case, the two functions as inverses of
each other, their laws, and the commands HEX2BIN and BIN2HEX.
-/

namespace Sys2Proof.Machine

/-! ## Characters and case (R100, R104) -/

@[simp] theorem isHex_lowerChar (c : Byte) : isHex (lowerChar c) = isHex c := by
  revert c; decide

theorem nib_lowerChar {c : Byte} (h : isHex c = true) : nib (lowerChar c) = nib c := by
  revert c; decide

theorem hexch_nib {c : Byte} (h : isHex c = true) : hexch (nib c) = lowerChar c := by
  revert c; decide

/-! ## Binary strings (R101) -/

/-- The n characters of a value are those of its n low bits. -/
theorem bits_congr {n v w : Nat} (h : ∀ i < n, v.testBit i = w.testBit i) : bits n v = bits n w := by
  induction n with
  | zero => rfl
  | succ n ih =>
    rw [bits, bits, h n (Nat.lt_succ_self n), ih fun i hi => h i (Nat.lt_succ_of_lt hi)]

/-- The characters of a binary string's value are the string. -/
theorem bits_val {b : List Byte} (h : ∀ c ∈ b, isBin c = true) : bits b.length (val b) = b := by
  induction b with
  | nil => rfl
  | cons c cs ih =>
    obtain ⟨hc, hcs⟩ := List.forall_mem_cons.mp h
    obtain ⟨x, rfl⟩ := isBin_iff.mp hc
    have hval : val (bitChar x :: cs) = 2 ^ cs.length * x.toNat + val cs := by
      rw [val, bitVal_bitChar, Nat.mul_comm]
    have hbit (i : Nat) := Nat.testBit_two_pow_mul_add x.toNat (val_lt cs) i
    have htop : (val (bitChar x :: cs)).testBit cs.length = x := by
      rw [hval, hbit, if_neg (lt_irrefl _), Nat.sub_self]
      cases x <;> rfl
    have hlow : bits cs.length (val (bitChar x :: cs)) = bits cs.length (val cs) :=
      bits_congr fun i hi => by rw [hval, hbit, if_pos hi]
    rw [List.length_cons, bits, htop, hlow, ih hcs]

/-! ## The lowest character outside a class -/

theorem findIdx?_bad_some {p : Byte → Bool} {l : List Byte} {i : Nat} {c : Byte} (hc : l[i]? = some c)
    (hbad : p c = false) (hgood : ∀ c' ∈ l.take i, p c' = true) :
    (l.findIdx? fun c => !p c) = some i := by
  obtain ⟨hi, rfl⟩ := List.getElem?_eq_some_iff.mp hc
  refine List.findIdx?_eq_some_iff_getElem.mpr ⟨hi, by simp [hbad], fun j hj => ?_⟩
  simp [hgood l[j] (List.mem_take_iff_getElem.mpr ⟨j, by omega, rfl⟩)]

/-! ## hexToBinary (R102, R105, R108) -/

theorem hexToBinary_of_isHex {h : List Byte} (hh : ∀ c ∈ h, isHex c = true) :
    hexToBinary h = .ok (expandHex h) := hexToBinary_eq_ok.mpr ⟨hh, rfl⟩

theorem hexToBinary_of_bad {h : List Byte} {i : Nat} {c : Byte} (hc : h[i]? = some c)
    (hbad : isHex c = false) (hgood : ∀ c' ∈ h.take i, isHex c' = true) :
    hexToBinary h = .error ⟨.invalidCharacter, i⟩ := by
  simp only [hexToBinary, findIdx?_bad_some hc hbad hgood]

theorem val_bits_nib {c : Byte} (hc : isHex c = true) : val (bits 4 (nib c)) = nib c :=
  (val_bits 4 (nib c)).trans (Nat.mod_eq_of_lt (nib_lt c hc))

theorem expandHex_append (h g : List Byte) : expandHex (h ++ g) = expandHex h ++ expandHex g := by
  simp only [expandHex_eq_flatMap, List.flatMap_append]

theorem expandHex_map_lowerChar {h : List Byte} (hh : ∀ c ∈ h, isHex c = true) :
    expandHex (h.map lowerChar) = expandHex h := by
  rw [expandHex_eq_flatMap, expandHex_eq_flatMap, List.flatMap_map]
  exact List.flatMap_congr fun c hc => by rw [nib_lowerChar (hh c hc)]

/-- The lowest character that is not hex is at the same index in either case. -/
theorem hexToBinary_map_lowerChar (h : List Byte) : hexToBinary (h.map lowerChar) = hexToBinary h := by
  have hidx : ((h.map lowerChar).findIdx? fun c => !isHex c) = h.findIdx? fun c => !isHex c := by
    simp [List.findIdx?_map, Function.comp_def]
  rw [hexToBinary, hexToBinary, hidx]
  split
  · rfl
  · next hnone => rw [expandHex_map_lowerChar (findIdx?_bad_none.mp hnone)]

/-- The value of an expansion is the big-endian value of its digits in base 16. -/
theorem val_expandHex {h : List Byte} (hh : ∀ c ∈ h, isHex c = true) :
    val (expandHex h) = ∑ i ∈ Finset.range h.length, nib (h.getD i 0#8) * 16 ^ (h.length - 1 - i) := by
  induction h with
  | nil => rfl
  | cons c cs ih =>
    obtain ⟨hc, hcs⟩ := List.forall_mem_cons.mp hh
    have hpow : 2 ^ (4 * cs.length) = 16 ^ cs.length := pow_mul 2 4 cs.length
    rw [expandHex, val_append, val_bits_nib hc, expandHex_length, hpow, ih hcs, List.length_cons,
      Finset.sum_range_succ', Nat.add_comm]
    congr 1
    refine Finset.sum_congr rfl fun i _ => ?_
    rw [List.getD_cons_succ, show cs.length + 1 - 1 - (i + 1) = cs.length - 1 - i by omega]

/-! ## binaryToHex (R103, R104) -/

theorem binaryToHex_of_isBin {b : List Byte} (hlen : b.length % 4 = 0) (hb : ∀ c ∈ b, isBin c = true) :
    binaryToHex b = .ok (packHex b) := binaryToHex_eq_ok.mpr ⟨hlen, hb, rfl⟩

theorem binaryToHex_of_bad {b : List Byte} {i : Nat} {c : Byte} (hlen : b.length % 4 = 0)
    (hc : b[i]? = some c) (hbad : isBin c = false) (hgood : ∀ c' ∈ b.take i, isBin c' = true) :
    binaryToHex b = .error ⟨.invalidCharacter, i⟩ := by
  simp only [binaryToHex, hlen, findIdx?_bad_some hc hbad hgood, ne_eq, not_true_eq_false, if_false]

/-- A whole nibble in front is one hex character in front. -/
theorem packHex_nibble_append {p : List Byte} (hp : p.length = 4) (t : List Byte) :
    packHex (p ++ t) = hexch (val p) :: packHex t := by
  match p, hp with
  | [a, b, c, d], _ => rfl

/-- Character `k` is that of the nibble at index 4 k. -/
theorem packHex_getElem? (b : List Byte) {k : Nat} (hk : k < b.length / 4) :
    (packHex b)[k]? = some (hexch (val ((b.drop (4 * k)).take 4))) := by
  induction k generalizing b with
  | zero =>
    have hp : (b.take 4).length = 4 := by rw [List.length_take]; omega
    conv_lhs => rw [← List.take_append_drop 4 b, packHex_nibble_append hp]
    simp
  | succ k ih =>
    have hp : (b.take 4).length = 4 := by rw [List.length_take]; omega
    conv_lhs => rw [← List.take_append_drop 4 b, packHex_nibble_append hp, List.getElem?_cons_succ]
    rw [ih (b.drop 4) (by rw [List.length_drop]; omega), List.drop_drop, Nat.mul_succ, Nat.add_comm]

theorem isHexOf_packHex (b : List Byte) : IsHexOf b (packHex b) :=
  ⟨packHex_length b, fun _ hk => packHex_getElem? b hk⟩

theorem packHex_expandHex {h : List Byte} (hh : ∀ c ∈ h, isHex c = true) :
    packHex (expandHex h) = h.map lowerChar := by
  induction h with
  | nil => rfl
  | cons c cs ih =>
    obtain ⟨hc, hcs⟩ := List.forall_mem_cons.mp hh
    rw [expandHex, packHex_nibble_append (bits_length _ _), val_bits_nib hc, hexch_nib hc, ih hcs,
      List.map_cons]

theorem isHex_of_mem_packHex {b : List Byte} {c : Byte} (h : c ∈ packHex b) : isHex c = true := by
  obtain ⟨v, hv, rfl⟩ := mem_packHex h
  exact isHex_hexch v hv

theorem expandHex_packHex {b : List Byte} (hlen : b.length % 4 = 0) (hb : ∀ c ∈ b, isBin c = true) :
    expandHex (packHex b) = b := by
  induction b using packHex.induct with
  | case1 x y z w t ih =>
    obtain ⟨hnibble, ht⟩ := List.forall_mem_append.mp (show ∀ c ∈ [x, y, z, w] ++ t, isBin c = true from hb)
    have hlt : t.length % 4 = 0 := by simp only [List.length_cons] at hlen; omega
    have hfour : bits 4 (val [x, y, z, w]) = [x, y, z, w] := bits_val hnibble
    rw [packHex, expandHex, nib_hexch _ (val_lt [x, y, z, w]), hfour, ih hlt ht]
    rfl
  | case2 l hl =>
    match l, hl with
    | [], _ => rfl
    | _ :: _ :: _ :: _ :: _, hl => exact absurd rfl (hl _ _ _ _ _)

/-! ## The codec's statements -/

/-- Settles O18: the table by running it on the twenty-two characters, the rest for every string. -/
theorem hexToBinaryFollowsTable : Obligations.HexToBinaryFollowsTable := by
  refine ⟨by decide, by decide, by decide, fun h hh => ?_, fun h i c => hexToBinary_of_bad, rfl⟩
  have hexpand : expandHex h = nibbles h := expandHex_eq_flatMap h
  rw [← hexpand]
  exact ⟨hexToBinary_of_isHex hh, expandHex_length h⟩

/-- Settles O19, nibble by nibble in both directions. -/
theorem hexCodecRoundTrip : Obligations.HexCodecRoundTrip := by
  refine ⟨fun h hh => ⟨expandHex h, hexToBinary_of_isHex hh, ?_⟩,
    fun b hb hlen => ⟨packHex b, binaryToHex_of_isBin hlen hb, ?_⟩⟩
  · rw [binaryToHex_of_isBin (by simp) fun c => isBin_of_mem_expandHex, packHex_expandHex hh]
  · rw [hexToBinary_of_isHex fun c => isHex_of_mem_packHex, expandHex_packHex hlen hb]

/-- Settles O21: an expansion's length, that of two strings, and its value. -/
theorem codecLaws : Obligations.CodecLaws := by
  refine ⟨fun h o ho => ?_, fun h g o o' ho ho' => ?_, fun h o ho => ?_⟩
  · obtain ⟨-, rfl⟩ := hexToBinary_eq_ok.mp ho
    exact expandHex_length h
  · obtain ⟨hh, rfl⟩ := hexToBinary_eq_ok.mp ho
    obtain ⟨hg, rfl⟩ := hexToBinary_eq_ok.mp ho'
    rw [← expandHex_append]
    exact hexToBinary_of_isHex (List.forall_mem_append.mpr ⟨hh, hg⟩)
  · obtain ⟨hh, rfl⟩ := hexToBinary_eq_ok.mp ho
    exact val_expandHex hh


/-! ## What an output command leaves (R85, R194, R195) -/

/-- A commit from index 0 leaves OBUF[0:OLEN) as its output, if OBUF holds it. -/
theorem State.output_commitOutput {s : State} {out : List Byte} (hfit : out.length ≤ s.caps.obufBytes) :
    (s.commitOutput 0 out).output = some out := by
  have hcap := s.caps.obufBytes_range
  have holen : (s.commitOutput 0 out).olen.toNat = out.length := by
    rw [State.commitOutput_olen, Nat.zero_add, BitVec.toNat_ofNat, Nat.mod_eq_of_lt (by omega)]
  rw [State.output, readAll_eq_some, holen]
  refine List.ext_getElem? fun i => ?_
  simp only [Memory.readFrom_getElem?, State.commitOutput_read, Nat.zero_add, Nat.not_lt_zero, if_false,
    Nat.sub_zero, List.getElem?_map]
  split
  · next hi => simp [List.getElem?_eq_getElem hi]
  · next hi => simp [List.getElem?_eq_none (not_lt.mp hi)]

theorem outputDone_finishOutput {s : State} {out : List Byte} (hfit : out.length ≤ s.caps.obufBytes) :
    OutputDone s (s.finishOutput 0 (.ok out)) out :=
  ⟨State.output_commitOutput hfit, by simp, rfl⟩

/-! ## HEX2BIN and BIN2HEX (R106, R107) -/

theorem State.InputIs.readInput {s : State} {h : List Byte} (hin : s.InputIs h) : s.readInput = some h := by
  obtain ⟨hlen, -, hholds⟩ := hin
  rw [State.readInput, readAll_eq_some, State.inputFrom, Nat.sub_zero, hlen]
  exact hholds

/-- HEX2BIN of a written input whose expansion fits is hexToBinary of it. -/
theorem exec_hex2bin_of_input {s : State} {h : List Byte} (b : Nat) (hin : s.InputIs h)
    (hfit : 4 * h.length ≤ s.caps.obufBytes) :
    exec (.hex2bin b) s = .next (s.finishOutput 0 (hexToBinary h)) := by
  have hread := hin.readInput
  obtain ⟨hlen, hcap, -⟩ := hin
  simp only [exec, execHex2bin, hlen, if_neg (not_lt.mpr hcap), if_neg (not_lt.mpr hfit), hread]

/-- BIN2HEX of a written input of whole nibbles whose hex form fits is binaryToHex of it. -/
theorem exec_bin2hex_of_input {s : State} {d : List Byte} (b : Nat) (hin : s.InputIs d)
    (hmod : d.length % 4 = 0) (hfit : d.length / 4 ≤ s.caps.obufBytes) :
    exec (.bin2hex b) s = .next (s.finishOutput 0 (binaryToHex d)) := by
  have hread := hin.readInput
  obtain ⟨hlen, hcap, -⟩ := hin
  simp only [exec, execBin2hex, hlen, if_neg (not_lt.mpr hcap), if_neg (not_not.mpr hmod),
    if_neg (not_lt.mpr hfit), hread]

/-- Settles O22: the command is hexToBinary, whose expansion is committed. -/
theorem hex2binConvertsInput : Obligations.Hex2binConvertsInput := by
  intro b s h hin hfit hh
  have hdone := outputDone_finishOutput (s := s) (out := expandHex h) (by rwa [expandHex_length])
  refine ⟨_, exec_hex2bin_of_input b hin hfit, ?_⟩
  rw [hexToBinary_of_isHex hh]
  exact expandHex_eq_flatMap h ▸ hdone

/-- Settles O23: the command is binaryToHex, whose characters are committed. -/
theorem bin2hexConvertsInput : Obligations.Bin2hexConvertsInput := by
  intro b s d hin hmod hfit hd
  refine ⟨_, packHex d, exec_bin2hex_of_input b hin hmod hfit, isHexOf_packHex d, ?_⟩
  rw [binaryToHex_of_isBin hmod hd]
  exact outputDone_finishOutput (by rwa [packHex_length])

/-- Settles O24: the argument checks in order, then the lowest bad character. -/
theorem codecCommandErrors : Obligations.CodecCommandErrors := by
  refine ⟨fun b s => ⟨fun hcap => ?_, fun hcap hfit => ?_, fun h i c hin hfit hc hbad hgood => ?_⟩,
    fun b s => ⟨fun hcap => ?_, fun hcap hmod => ?_, fun hcap hmod hfit => ?_,
      fun d i c hin hmod hfit hc hbad hgood => ?_⟩⟩
  · simp only [exec, execHex2bin, if_pos hcap]
  · simp only [exec, execHex2bin, if_neg (not_lt.mpr hcap), if_pos hfit]
  · rw [exec_hex2bin_of_input b hin hfit, hexToBinary_of_bad hc hbad hgood, State.finishOutput_error]
  · simp only [exec, execBin2hex, if_pos hcap]
  · simp only [exec, execBin2hex, if_neg (not_lt.mpr hcap), if_pos hmod]
  · simp only [exec, execBin2hex, if_neg (not_lt.mpr hcap), if_neg (not_not.mpr hmod), if_pos hfit]
  · rw [exec_bin2hex_of_input b hin hmod hfit, binaryToHex_of_bad hmod hc hbad hgood,
      State.finishOutput_error]

/-! ## No command emits an uppercase hex digit (R105) -/

/-- The letters `A` to `F`. -/
abbrev IsUpperHex (c : Byte) : Prop := 0x41#8 ≤ c ∧ c ≤ 0x46#8

abbrev NoUpperHex (l : List Byte) : Prop := ∀ c ∈ l, ¬ IsUpperHex c

/-- What a function of the block returns, if it returns a value, has no uppercase hex digit. -/
abbrev ReturnsNoUpperHex (r : Except EngineError (List Byte)) : Prop := ∀ out, r = .ok out → NoUpperHex out

theorem not_isUpperHex_of_isBin {c : Byte} (h : isBin c = true) : ¬ IsUpperHex c := by
  revert c; decide

theorem not_isUpperHex_hexch {v : Nat} (h : v < 16) : ¬ IsUpperHex (hexch v) := by
  revert v; decide

theorem noUpperHex_append {a b : List Byte} (ha : NoUpperHex a) (hb : NoUpperHex b) : NoUpperHex (a ++ b) :=
  List.forall_mem_append.mpr ⟨ha, hb⟩

theorem noUpperHex_separator : NoUpperHex [Config.pixelSep] := by decide

theorem noUpperHex_terminator (tm : Bool) : NoUpperHex (terminator tm) := by revert tm; decide

theorem hexToBinary_noUpperHex (h : List Byte) : ReturnsNoUpperHex (hexToBinary h) := by
  intro out ho
  obtain ⟨-, rfl⟩ := hexToBinary_eq_ok.mp ho
  exact fun c hc => not_isUpperHex_of_isBin (isBin_of_mem_expandHex hc)

theorem binaryToHex_noUpperHex (b : List Byte) : ReturnsNoUpperHex (binaryToHex b) := by
  intro out ho
  obtain ⟨-, -, rfl⟩ := binaryToHex_eq_ok.mp ho
  intro c hc
  obtain ⟨v, hv, rfl⟩ := mem_packHex hc
  exact not_isUpperHex_hexch hv

theorem formedChecksum_noUpperHex (d : List Byte) (b : Nat) (xf : Bool) :
    ReturnsNoUpperHex (formedChecksum d b xf) := by
  intro out ho
  unfold formedChecksum at ho
  split at ho
  · simp at ho
  · next c hc =>
    obtain ⟨-, rfl⟩ := computeChecksum_eq_ok.mp hc
    cases xf with
    | false => exact (Except.ok.inj ho) ▸ fun c hc => not_isUpperHex_of_isBin (isBin_of_mem_bits hc)
    | true => exact binaryToHex_noUpperHex _ out ho

/-- The two characters of a field are those of nibbles in either base (R152). -/
theorem enc2_noUpperHex {fb : Bool} {v : Nat} {x : List Byte} (hv : v < 256) (h : enc2 fb v = some x) :
    NoUpperHex x := by
  suffices ∃ a < 16, ∃ b < 16, x = [hexch a, hexch b] by
    obtain ⟨a, ha, b, hb, rfl⟩ := this
    exact List.forall_mem_cons.mpr
      ⟨not_isUpperHex_hexch ha, List.forall_mem_singleton.mpr (not_isUpperHex_hexch hb)⟩
  unfold enc2 at h
  split at h
  · exact ⟨v / 16, by omega, v % 16, by omega, (Option.some.inj h).symm⟩
  · split at h
    · simp at h
    · refine ⟨v / 10, by omega, v % 10, by omega, (Option.some.inj h).symm.trans ?_⟩
      rw [hexch, hexch, if_pos (by omega), if_pos (by omega)]

theorem encodeFields_noUpperHex (fb : Bool) (i : Nat) {vs : List Nat} (hvs : ∀ v ∈ vs, v < 256) :
    ReturnsNoUpperHex (encodeFields fb i vs) := by
  induction vs generalizing i with
  | nil => exact fun _ ho => (Except.ok.inj ho) ▸ List.forall_mem_nil _
  | cons v vs ih =>
    obtain ⟨hv, hvs⟩ := List.forall_mem_cons.mp hvs
    intro out ho
    unfold encodeFields at ho
    split at ho
    · simp at ho
    · next x hx =>
      split at ho
      · simp at ho
      · next xs hxs => exact (Except.ok.inj ho) ▸ noUpperHex_append (enc2_noUpperHex hv hx) (ih _ hvs xs hxs)

theorem encodePixel_noUpperHex (fb : Bool) (row col : Nat) (v : Rgb) :
    ReturnsNoUpperHex (encodePixel fb row col v) := by
  intro r hr
  obtain ⟨hrow, hcol, f, -, rfl, hf⟩ := encodePixel_eq_ok hr
  have hbytes : ∀ x ∈ [row, col, v.red.toNat, v.green.toNat, v.blue.toNat], x < 256 := by
    simp only [List.forall_mem_cons]
    exact ⟨by omega, by omega, v.red.isLt, v.green.isLt, v.blue.isLt, by simp⟩
  exact noUpperHex_append (encodeFields_noUpperHex fb 0 hbytes f hf) noUpperHex_separator

theorem trailer_noUpperHex (f : List Byte) (b : Nat) (xf : Bool) : ReturnsNoUpperHex (trailer f b xf) := by
  intro t ht
  unfold trailer at ht
  split at ht
  · simp at ht
  · exact formedChecksum_noUpperHex _ b xf t ht

theorem encodeChecksum_noUpperHex {r : List Byte} (hr : NoUpperHex r) (b : Nat) (xf : Bool) :
    ReturnsNoUpperHex (encodeChecksum r b xf) := by
  intro out ho
  unfold encodeChecksum at ho
  split at ho
  · simp at ho
  · next t ht =>
    have hfields : NoUpperHex (r.take 10) := fun c hc => hr c (List.mem_of_mem_take hc)
    have htrail := noUpperHex_append hfields (trailer_noUpperHex _ b xf t ht)
    exact (Except.ok.inj ho) ▸ noUpperHex_append htrail noUpperHex_separator

theorem encodeRecord_noUpperHex (fb ck xf : Bool) (b row col : Nat) (v : Rgb) :
    ReturnsNoUpperHex (encodeRecord fb ck xf b row col v) := by
  intro out ho
  unfold encodeRecord at ho
  split at ho
  · simp at ho
  · next r hr =>
    have hpixel := encodePixel_noUpperHex fb row col v r hr
    cases ck with
    | false => exact (Except.ok.inj ho) ▸ hpixel
    | true => exact encodeChecksum_noUpperHex hpixel b xf out ho

theorem encodeCells_noUpperHex (fb ck xf : Bool) (b i : Nat) (vs : List Rgb) :
    ReturnsNoUpperHex (encodeCells fb ck xf b i vs) := by
  induction vs generalizing i with
  | nil => exact fun _ ho => (Except.ok.inj ho) ▸ List.forall_mem_nil _
  | cons v vs ih =>
    intro out ho
    unfold encodeCells at ho
    split at ho
    · simp at ho
    · next r hr =>
      split at ho
      · simp at ho
      · next rs hrs =>
        exact (Except.ok.inj ho) ▸ noUpperHex_append (encodeRecord_noUpperHex _ _ _ _ _ _ _ r hr) (ih _ rs hrs)

theorem pixencOutput_noUpperHex (ck xf ap tm : Bool) (b : Nat) (s : State) :
    ReturnsNoUpperHex (pixencOutput ck xf ap tm b s) := by
  intro out ho
  unfold pixencOutput at ho
  split_ifs at ho
  split at ho
  · simp at ho
  · next r hr =>
    exact (Except.ok.inj ho) ▸
      noUpperHex_append (encodeRecord_noUpperHex _ _ _ _ _ _ _ r hr) (noUpperHex_terminator tm)

theorem matrixencOutput_noUpperHex (ck xf : Bool) (b : Nat) (s : State) :
    ReturnsNoUpperHex (matrixencOutput ck xf b s) := by
  intro out ho
  unfold matrixencOutput at ho
  split_ifs at ho
  unfold encodeMatrix at ho
  split at ho
  · simp at ho
  · next rs hrs =>
    exact (Except.ok.inj ho) ▸ noUpperHex_append (encodeCells_noUpperHex _ _ _ _ _ _ rs hrs)
      (noUpperHex_terminator true)

/-- The outcomes of an output command: a fault, or an end whose output has no uppercase hex digit. An error is such
an end, with no output. -/
inductive OutputsNoUpperHex (s : State) : Out → Prop where
  | fault (f : Fault) : OutputsNoUpperHex s (.fault f)
  | finish (start : Nat) {r : Except EngineError (List Byte)} (hr : ReturnsNoUpperHex r) :
      OutputsNoUpperHex s (.next (s.finishOutput start r))

section

variable {s : State}

theorem OutputsNoUpperHex.raise (e : Err) (p : Nat) : OutputsNoUpperHex s (.next (s.raise e p)) :=
  .finish 0 (r := .error ⟨e, p⟩) nofun

theorem OutputsNoUpperHex.ite {c : Prop} [Decidable c] {a b : Out} (ha : OutputsNoUpperHex s a)
    (hb : OutputsNoUpperHex s b) : OutputsNoUpperHex s (if c then a else b) := by
  split
  · exact ha
  · exact hb

/-- A command that reads its input whole and then ends with an output (R106, R107, R130). -/
theorem OutputsNoUpperHex.readInput {r : List Byte → Except EngineError (List Byte)}
    (hr : ∀ h, ReturnsNoUpperHex (r h)) :
    OutputsNoUpperHex s (match s.readInput with
      | none => .fault .engineReadUnwritten
      | some h => .next (s.finishOutput 0 (r h))) := by
  cases s.readInput with
  | none => exact .fault _
  | some h => exact .finish 0 (hr h)

/-- Every command that commits output commits no uppercase hex digit. -/
theorem exec_outputsNoUpperHex {i : Instr} (hver : ∀ b, i ≠ .ckverify b)
    (hrec : ∀ xf vf b, i ≠ .recdec xf vf b) (hframe : ∀ b, i ≠ .frameapply b) :
    OutputsNoUpperHex s (exec i s) := by
  cases i with
  | hex2bin b => exact .ite (.raise _ _) (.ite (.raise _ _) (.readInput hexToBinary_noUpperHex))
  | bin2hex b =>
    exact .ite (.raise _ _) (.ite (.raise _ _) (.ite (.raise _ _) (.readInput binaryToHex_noUpperHex)))
  | ckcomp xf b =>
    exact .ite (.raise _ _) (.ite (.raise _ _) (.ite (.raise _ _) (.ite (.raise _ _) (.ite (.raise _ _)
      (.readInput fun d => formedChecksum_noUpperHex d b xf)))))
  | pixenc ck xf ap tm b => exact .finish _ (pixencOutput_noUpperHex ck xf ap tm b s)
  | matrixenc ck xf b => exact .finish _ (matrixencOutput_noUpperHex ck xf b s)
  | ckverify b => exact absurd rfl (hver b)
  | recdec xf vf b => exact absurd rfl (hrec xf vf b)
  | frameapply b => exact absurd rfl (hframe b)

end

theorem mem_of_mem_cellsFrom {a : Nat} {l : List Byte} {c : Host.Cell} (h : c ∈ cellsFrom a l) : c.2 ∈ l := by
  induction l generalizing a with
  | nil => simp [cellsFrom] at h
  | cons b bs ih =>
    obtain rfl | h := List.mem_cons.mp h
    · exact List.mem_cons_self
    · exact List.mem_cons_of_mem _ (ih h)

/-- An uppercase hex digit in OBUF after an output command is not the command's. -/
theorem mem_obuf_of_isUpperHex {s t : State} {c : Host.Cell} (h : OutputsNoUpperHex s (.next t))
    (hc : c ∈ t.obuf) (hup : IsUpperHex c.2) : c ∈ s.obuf := by
  cases h with
  | @finish start r hr =>
    cases r with
    | error e => exact hc
    | ok out =>
      rw [State.finishOutput_ok, State.complete_obuf, State.commitOutput_obuf] at hc
      obtain hc | hc := List.mem_append.mp hc
      · exact (Memory.mem_below.mp hc).1
      · exact absurd hup (hr out rfl _ (mem_of_mem_cellsFrom hc))

/-- Settles O20: the case of input by the table, that of output by the commands that commit any. -/
theorem caseIsIgnoredAndNeverEmitted : Obligations.CaseIsIgnoredAndNeverEmitted := by
  refine ⟨fun h => (hexToBinary_map_lowerChar h).symm, by decide, by decide, fun i s t ht c hc hup => ?_⟩
  by_cases hquiet : (∃ b, i = .ckverify b) ∨ (∃ xf vf b, i = .recdec xf vf b) ∨ ∃ b, i = .frameapply b
  · obtain ⟨-, hobuf⟩ := (exec_cases ht).keeps_output hquiet
    exact hobuf ▸ hc
  · push Not at hquiet
    obtain ⟨hver, hrec, hframe⟩ := hquiet
    exact mem_obuf_of_isUpperHex (ht ▸ exec_outputsNoUpperHex hver hrec hframe) hc hup

end Sys2Proof.Machine
end

section
/-!
PROOFS. The statements of 41_checksum.md: padding, addition with end-around carry and its closed form, what the
oc-sum says of the string's value, and the commands CKCOMP and CKVERIFY.
-/

namespace Sys2Proof.Machine

/-! ## Padding (R120) -/

/-- Settles O25: with fewer than b zeros the padded length's remainder is that of the length plus their number. -/
theorem padIsFewestFrontZeros : Obligations.PadIsFewestFrontZeros := by
  intro d b hb
  refine ⟨(b - d.length % b) % b, Nat.mod_lt _ hb, rfl, ?_,
    fun h => by rw [h, Nat.sub_zero, Nat.mod_self], fun q hq => ?_⟩
  · simpa [pad, Nat.add_comm] using pad_length_mod d hb
  · by_contra! hlt
    have hle := Nat.mod_le (b - d.length % b) b
    have hsum : (d.length % b + q) % b = 0 := by rwa [Nat.mod_add_mod]
    rw [Nat.mod_eq_of_lt (by omega)] at hsum
    have hnone : (b - d.length % b) % b = 0 := by
      rw [show d.length % b = 0 by omega, Nat.sub_zero, Nat.mod_self]
    omega

/-! ## Addition with end-around carry (R122) -/

theorem foldCarry_of_lt {b s : Nat} (h : s < 2 ^ b) (fuel : Nat) : foldCarry b fuel s = s := by
  cases fuel with
  | zero => rfl
  | succ fuel => exact if_neg (not_le.mpr h)

theorem foldCarry_of_le {b s : Nat} (h : 2 ^ b ≤ s) (fuel : Nat) :
    foldCarry b (fuel + 1) s = foldCarry b fuel (s % 2 ^ b + 1) := if_pos h

section

variable {b a x : Nat} (ha : a < 2 ^ b) (hx : x < 2 ^ b)
include ha hx

theorem ocAdd_eq : ocAdd b a x = if a + x < 2 ^ b then a + x else a + x - 2 ^ b + 1 := by
  rw [ocAdd]
  split
  · next hfit => exact foldCarry_of_lt hfit 2
  · next hcarry =>
    have hmod : (a + x) % 2 ^ b = a + x - 2 ^ b := by
      rw [Nat.mod_eq_sub_mod (not_lt.mp hcarry), Nat.mod_eq_of_lt (by omega)]
    rw [foldCarry_of_le (not_lt.mp hcarry), hmod, foldCarry_of_lt (by omega)]

theorem ocAdd_lt : ocAdd b a x < 2 ^ b := by
  rw [ocAdd_eq ha hx]
  split <;> omega

theorem ocAdd_eq_zero : ocAdd b a x = 0 ↔ a + x = 0 := by
  rw [ocAdd_eq ha hx]
  split <;> omega

/-- The carry folded in replaces 2^b by 1. -/
theorem ocAdd_modEq : ocAdd b a x ≡ a + x [MOD 2 ^ b - 1] := by
  rw [ocAdd_eq ha hx]
  split
  · exact Nat.ModEq.refl _
  · next hcarry =>
    have hsum : a + x = a + x - 2 ^ b + 1 + (2 ^ b - 1) := by omega
    rw [Nat.ModEq, hsum, Nat.add_mod_right, ← hsum]

end

/-- Settles O26, by whether the sum carries. -/
theorem ocAddFoldsCarryOnce : Obligations.OcAddFoldsCarryOnce :=
  fun _ _ _ ha hx => ⟨ocAdd_lt ha hx, ocAdd_eq ha hx⟩

/-! ## The closed form (R124) -/

/-- R124's closed form of a sum: 0 only for 0, and a multiple of 2^b - 1 otherwise becomes 2^b - 1 itself. -/
def ocReduce (b n : Nat) : Nat := if n = 0 then 0 else (n - 1) % (2 ^ b - 1) + 1

theorem ocReduce_of_ne {b n : Nat} (h : n ≠ 0) : ocReduce b n = (n - 1) % (2 ^ b - 1) + 1 := if_neg h

theorem ocReduce_eq_zero {b n : Nat} : ocReduce b n = 0 ↔ n = 0 := by
  rw [ocReduce]
  split <;> omega

theorem ocReduce_modEq (b n : Nat) : ocReduce b n ≡ n [MOD 2 ^ b - 1] := by
  obtain rfl | hn := eq_or_ne n 0
  · exact Nat.ModEq.refl _
  · rw [ocReduce_of_ne hn]
    simpa [Nat.sub_add_cancel (Nat.one_le_iff_ne_zero.mpr hn)] using
      (Nat.mod_modEq (n - 1) (2 ^ b - 1)).add_right 1

/-- The bound, the congruence and the zero case determine the closed form. -/
theorem eq_ocReduce {b r n : Nat} (hlt : r < 2 ^ b) (hmod : r ≡ n [MOD 2 ^ b - 1])
    (hzero : r = 0 ↔ n = 0) : r = ocReduce b n := by
  by_cases hn : n = 0
  · rw [hzero.mpr hn, ocReduce, if_pos hn]
  · have hr : r ≠ 0 := mt hzero.mp hn
    have hpred : r - 1 ≡ n - 1 [MOD 2 ^ b - 1] :=
      Nat.ModEq.add_right_cancel' 1 (by
        rwa [Nat.sub_add_cancel (Nat.one_le_iff_ne_zero.mpr hr),
          Nat.sub_add_cancel (Nat.one_le_iff_ne_zero.mpr hn)])
    rw [ocReduce_of_ne hn, ← hpred, Nat.mod_eq_of_lt (by omega)]
    omega

section

variable {b : Nat} (hb : 0 < b)
include hb

theorem ocReduce_lt (n : Nat) : ocReduce b n < 2 ^ b := by
  have htwo : 2 ≤ 2 ^ b := Nat.le_self_pow hb.ne' 2
  have hmod := Nat.mod_lt (n - 1) (show 0 < 2 ^ b - 1 by omega)
  rw [ocReduce]
  split <;> omega

theorem ocReduce_congr {m n : Nat} (hmod : m ≡ n [MOD 2 ^ b - 1]) (hzero : m = 0 ↔ n = 0) :
    ocReduce b m = ocReduce b n :=
  eq_ocReduce (ocReduce_lt hb m) ((ocReduce_modEq b m).trans hmod) (ocReduce_eq_zero.trans hzero)

/-- The closed form is all ones exactly for the positive multiples of 2^b - 1. -/
theorem ocReduce_eq_ones {n : Nat} : ocReduce b n = 2 ^ b - 1 ↔ n ≠ 0 ∧ 2 ^ b - 1 ∣ n := by
  have htwo : 2 ≤ 2 ^ b := Nat.le_self_pow hb.ne' 2
  constructor
  · intro h
    have hn : n ≠ 0 := fun hn => by rw [ocReduce_eq_zero.mpr hn] at h; omega
    exact ⟨hn, ((ocReduce_modEq b n).dvd_iff dvd_rfl).mp (dvd_of_eq h.symm)⟩
  · rintro ⟨hn, hdvd⟩
    have hmod : 2 ^ b - 1 ≡ n [MOD 2 ^ b - 1] :=
      (Nat.modEq_zero_iff_dvd.mpr dvd_rfl).trans (Nat.modEq_zero_iff_dvd.mpr hdvd).symm
    exact (eq_ocReduce (by omega) hmod (by omega)).symm

/-- One more block, added to the closed form of the blocks before it. -/
theorem ocAdd_ocReduce (n : Nat) {x : Nat} (hx : x < 2 ^ b) :
    ocAdd b (ocReduce b n) x = ocReduce b (n + x) := by
  have hlt := ocReduce_lt hb n
  refine eq_ocReduce (ocAdd_lt hlt hx) ((ocAdd_modEq hlt hx).trans ((ocReduce_modEq b n).add_right x)) ?_
  rw [ocAdd_eq_zero hlt hx, Nat.add_eq_zero_iff, ocReduce_eq_zero, Nat.add_eq_zero_iff]

theorem foldl_ocAdd_ocReduce {xs : List Nat} (hxs : ∀ x ∈ xs, x < 2 ^ b) (n : Nat) :
    xs.foldl (ocAdd b) (ocReduce b n) = ocReduce b (n + xs.sum) := by
  induction xs generalizing n with
  | nil => rfl
  | cons x xs ih =>
    obtain ⟨hx, hxs⟩ := List.forall_mem_cons.mp hxs
    rw [List.foldl_cons, ocAdd_ocReduce hb n hx, ih hxs, List.sum_cons, Nat.add_assoc]

/-- The oc-sum is the closed form of the sum of the blocks. -/
theorem ocSum_eq_ocReduce_sum (d : List Byte) : ocSum d b = ocReduce b (blocks d b).sum := by
  have hlt : ∀ x ∈ blocks d b, x < 2 ^ b := fun x => block_lt
  unfold ocSum
  cases hblocks : blocks d b with
  | nil => rfl
  | cons x xs =>
    rw [hblocks] at hlt
    obtain ⟨hx, hxs⟩ := List.forall_mem_cons.mp hlt
    have hfirst : x = ocReduce b x := eq_ocReduce hx (Nat.ModEq.refl _) Iff.rfl
    rw [List.sum_cons, ← foldl_ocAdd_ocReduce hb hxs x, ← hfirst]

theorem ocSum_lt (d : List Byte) : ocSum d b < 2 ^ b :=
  ocSum_eq_ocReduce_sum hb d ▸ ocReduce_lt hb _

end

/-- Settles O27, by the closed form of the sum of the blocks. -/
theorem ocSumClosedForm : Obligations.OcSumClosedForm := by
  refine ⟨by decide, fun d b hb _ => ?_⟩
  have hlt := ocSum_lt hb d
  rw [ocSum_eq_ocReduce_sum hb d] at hlt ⊢
  refine ⟨fun hall => ocReduce_eq_zero.mpr (List.sum_eq_zero hall), fun ⟨x, hx, hne⟩ => ?_,
    ocReduce_modEq b _, fun acc x hacc ha hx => ?_⟩
  · have hsum : (blocks d b).sum ≠ 0 := fun h => hne (List.sum_eq_zero_iff.mp h x hx)
    exact ⟨ocReduce_of_ne hsum, Nat.one_le_iff_ne_zero.mpr (mt ocReduce_eq_zero.mp hsum),
      Nat.le_sub_one_of_lt hlt⟩
  · have hzero := ocAdd_eq_zero ha hx
    omega

/-! ## The oc-sum of a string by its value (R121, R124) -/

theorem two_pow_modEq_one (b : Nat) : 2 ^ b ≡ 1 [MOD 2 ^ b - 1] :=
  ((Nat.modEq_iff_dvd' Nat.one_le_two_pow).mpr dvd_rfl).symm

/-- Since 2^b is 1 modulo 2^b - 1, the values of two strings add up where the second is whole blocks. -/
theorem val_append_modEq {b : Nat} (a : List Byte) {c : List Byte} (h : b ∣ c.length) :
    val (a ++ c) ≡ val a + val c [MOD 2 ^ b - 1] := by
  obtain ⟨k, hk⟩ := h
  have hpow : 2 ^ c.length ≡ 1 [MOD 2 ^ b - 1] := by
    simpa [hk, pow_mul] using (two_pow_modEq_one b).pow k
  simpa [val_append] using (hpow.mul_left (val a)).add_right (val c)

/-- A string has the value 0 exactly if no character is `1`. -/
theorem val_eq_zero {l : List Byte} : val l = 0 ↔ 0x31#8 ∉ l := by
  induction l with
  | nil => simp [val]
  | cons c cs ih =>
    obtain rfl | hc := eq_or_ne c 0x31#8
    · simp [val, bitVal]
    · simp [val, bitVal, ih, hc, hc.symm]

theorem val_pad (d : List Byte) (b : Nat) : val (pad d b) = val d := by
  have hzeros (n : Nat) : val (List.replicate n 0x30#8) = 0 := val_eq_zero.mpr (by simp [List.mem_replicate])
  rw [pad, val_append, hzeros, Nat.zero_mul, Nat.zero_add]

/-- The pieces of pad(d, b) of b characters each, in order (R121). -/
def pieces (d : List Byte) (b : Nat) : List (List Byte) :=
  (List.range ((pad d b).length / b)).map fun i => ((pad d b).drop (i * b)).take b

theorem blocks_eq_map_val (d : List Byte) (b : Nat) : blocks d b = (pieces d b).map val := by
  simp [blocks, pieces]

theorem length_of_mem_pieces {d w : List Byte} {b : Nat} (h : w ∈ pieces d b) : w.length = b := by
  simp only [pieces, List.mem_map, List.mem_range] at h
  obtain ⟨i, hi, rfl⟩ := h
  have hle : (i + 1) * b ≤ (pad d b).length :=
    (Nat.mul_le_mul_right b hi).trans (Nat.div_mul_le_self _ b)
  rw [Nat.succ_mul] at hle
  rw [List.length_take, List.length_drop]
  omega

/-- The first n pieces of b characters are the first n * b characters. -/
theorem flatten_take_drop (l : List Byte) (b n : Nat) :
    ((List.range n).map fun i => (l.drop (i * b)).take b).flatten = l.take (n * b) := by
  induction n with
  | zero => simp
  | succ n ih =>
    rw [List.range_succ, List.map_append, List.flatten_append, ih, Nat.succ_mul, List.take_add]
    simp

section

variable {b : Nat} (hb : 0 < b)
include hb

theorem flatten_pieces (d : List Byte) : (pieces d b).flatten = pad d b := by
  rw [pieces, flatten_take_drop, Nat.div_mul_cancel (Nat.dvd_of_mod_eq_zero (pad_length_mod d hb)),
    List.take_length]

/-- The pieces' values and the whole string's value have one closed form. -/
theorem ocReduce_val_flatten {ws : List (List Byte)} (hws : ∀ w ∈ ws, w.length = b) :
    ocReduce b (val ws.flatten) = ocReduce b (ws.map val).sum := by
  refine ocReduce_congr hb ?_ (by simp [val_eq_zero, List.sum_eq_zero_iff])
  induction ws with
  | nil => rfl
  | cons w ws ih =>
    obtain ⟨-, hws⟩ := List.forall_mem_cons.mp hws
    have hdvd : b ∣ ws.flatten.length := by
      rw [List.length_flatten, List.map_congr_left hws]
      simp
    rw [List.flatten_cons, List.map_cons, List.sum_cons]
    exact (val_append_modEq w hdvd).trans ((ih hws).add_left _)

/-- The oc-sum of a string is the closed form of its value. -/
theorem ocSum_eq_ocReduce_val (d : List Byte) : ocSum d b = ocReduce b (val d) := by
  rw [ocSum_eq_ocReduce_sum hb, blocks_eq_map_val,
    ← ocReduce_val_flatten hb fun w => length_of_mem_pieces, flatten_pieces hb, val_pad]

/-- A string's oc-sum is all ones exactly if its value is a positive multiple of 2^b - 1. -/
theorem ocSum_eq_ones {d : List Byte} : ocSum d b = 2 ^ b - 1 ↔ val d ≠ 0 ∧ 2 ^ b - 1 ∣ val d := by
  rw [ocSum_eq_ocReduce_val hb, ocReduce_eq_ones hb]

end

/-! ## computeChecksum and verifyChecksum (R125, R126) -/

theorem ne_nil_of_getElem? {d : List Byte} {i : Nat} {c : Byte} (hc : d[i]? = some c) : d ≠ [] :=
  List.ne_nil_of_mem (List.mem_of_getElem? hc)

theorem checkBinary_of_bad {d : List Byte} {b i : Nat} {c : Byte} (hb : b ≠ 0) (hc : d[i]? = some c)
    (hbad : isBin c = false) (hgood : ∀ c' ∈ d.take i, isBin c' = true) :
    checkBinary d b = .error ⟨.invalidCharacter, i⟩ := by
  have hlen : d.length ≠ 0 := mt List.length_eq_zero_iff.mp (ne_nil_of_getElem? hc)
  simp only [checkBinary, if_neg hb, if_neg hlen, findIdx?_bad_some hc hbad hgood]

theorem formedChecksum_of_bad {d : List Byte} {b i : Nat} {c : Byte} (xf : Bool) (hb : b ≠ 0)
    (hc : d[i]? = some c) (hbad : isBin c = false) (hgood : ∀ c' ∈ d.take i, isBin c' = true) :
    formedChecksum d b xf = .error ⟨.invalidCharacter, i⟩ := by
  simp only [formedChecksum, computeChecksum, checkBinary_of_bad hb hc hbad hgood]

theorem verifyChecksum_of_bad {d : List Byte} {b i : Nat} {c : Byte} (hb : b ≠ 0) (hc : d[i]? = some c)
    (hbad : isBin c = false) (hgood : ∀ c' ∈ d.take i, isBin c' = true) :
    verifyChecksum d b = .error ⟨.invalidCharacter, i⟩ := by
  simp only [verifyChecksum, checkBinary_of_bad hb hc hbad hgood]

theorem onesComplement_eq_zero {b v : Nat} (hv : v < 2 ^ b) : onesComplement b v = 0 ↔ v = 2 ^ b - 1 := by
  rw [onesComplement]
  omega

section

variable {b : Nat} {d : List Byte} (hb : 0 < b) (hd : d ≠ []) (hbin : ∀ c ∈ d, isBin c = true)
include hb hd hbin

theorem computeChecksum_of_isBin : computeChecksum d b = .ok (bits b (onesComplement b (ocSum d b))) :=
  computeChecksum_eq_ok.mpr ⟨⟨hb.ne', hd, hbin⟩, rfl⟩

theorem verifyChecksum_of_isBin : verifyChecksum d b = .ok (decide (ocSum d b = 2 ^ b - 1)) :=
  verifyChecksum_eq_ok.mpr
    ⟨⟨hb.ne', hd, hbin⟩, decide_eq_decide.mpr (onesComplement_eq_zero (ocSum_lt hb d)).symm⟩

end

/-- Behind the string its own checksum makes the value a positive multiple of 2^b - 1. -/
theorem ocSum_append_checksum {b : Nat} (hb : 0 < b) (d : List Byte) :
    ocSum (d ++ bits b (onesComplement b (ocSum d b))) b = 2 ^ b - 1 := by
  have htwo : 2 ≤ 2 ^ b := Nat.le_self_pow hb.ne' 2
  have hlt := ocSum_lt hb d
  have hsum := ocSum_eq_ocReduce_val hb d
  have hval : val (bits b (onesComplement b (ocSum d b))) = 2 ^ b - 1 - ocSum d b := by
    rw [val_bits, onesComplement, Nat.mod_eq_of_lt (by omega)]
  refine (ocSum_eq_ones hb).mpr ⟨fun hzero => ?_, ?_⟩
  · rw [val_append, Nat.add_eq_zero_iff, hval] at hzero
    obtain ⟨hd, hc⟩ := hzero
    have hd : val d = 0 := (Nat.mul_eq_zero.mp hd).resolve_right (by simp)
    rw [hd, ocReduce_eq_zero.mpr rfl] at hsum
    omega
  · refine Nat.modEq_zero_iff_dvd.mp ?_
    calc val (d ++ bits b (onesComplement b (ocSum d b)))
      _ ≡ val d + (2 ^ b - 1 - ocSum d b) [MOD 2 ^ b - 1] := hval ▸ val_append_modEq d (by simp)
      _ ≡ ocSum d b + (2 ^ b - 1 - ocSum d b) [MOD 2 ^ b - 1] := by
        rw [hsum]; exact (ocReduce_modEq b _).symm.add_right _
      _ = 2 ^ b - 1 := by omega
      _ ≡ 0 [MOD 2 ^ b - 1] := Nat.modEq_zero_iff_dvd.mpr dvd_rfl

/-- Settles O28, by the value of the string with its checksum. -/
theorem checksummedPayloadVerifies : Obligations.ChecksummedPayloadVerifies := by
  intro d b hd hbin hb
  refine ⟨_, computeChecksum_of_isBin hb hd hbin, ?_⟩
  rw [verifyChecksum_of_isBin hb (by simp [hd])
    (List.forall_mem_append.mpr ⟨hbin, fun c => isBin_of_mem_bits⟩), ocSum_append_checksum hb d]
  simp

/-! ## One flipped character (R128) -/

/-- A character replaced by another changes the value by its weight times the difference. -/
theorem val_set {p : List Byte} {i : Nat} {c : Byte} (hc : p[i]? = some c) (c' : Byte) :
    val (p.set i c') + bitVal c * 2 ^ (p.length - 1 - i) =
      val p + bitVal c' * 2 ^ (p.length - 1 - i) := by
  obtain ⟨hi, rfl⟩ := List.getElem?_eq_some_iff.mp hc
  have hset (x : Byte) : val (p.set i x) = val (p.take i) * 2 ^ (p.length - (i + 1) + 1) +
      (bitVal x * 2 ^ (p.length - 1 - i) + val (p.drop (i + 1))) := by
    rw [List.set_eq_take_append_cons_drop, if_pos hi, val_append, val, List.length_cons, List.length_drop,
      show p.length - (i + 1) = p.length - 1 - i by omega]
  have hself := hset p[i]
  rw [List.set_getElem_self] at hself
  rw [hset, hself]
  omega

/-- 2^b - 1 is odd, so for two bits or more it divides no power of two. -/
theorem not_ones_dvd_two_pow {b : Nat} (hb : 2 ≤ b) (k : Nat) : ¬ 2 ^ b - 1 ∣ 2 ^ k := by
  intro hdvd
  have hfour : 2 ^ 2 ≤ 2 ^ b := Nat.pow_le_pow_right (by omega) hb
  have hodd : Odd (2 ^ b - 1) :=
    Nat.Even.sub_odd Nat.one_le_two_pow (Nat.even_pow.mpr ⟨even_two, by omega⟩) odd_one
  have hone := Nat.Coprime.eq_one_of_dvd (Nat.Coprime.pow_right k (Nat.coprime_two_right.mpr hodd)) hdvd
  omega

/-- A flip changes the value by a power of two, so it is no multiple of 2^b - 1 any more. -/
theorem not_ones_dvd_val_flip {p : List Byte} {b i : Nat} {f : Bool} (hb : 2 ≤ b) (hdvd : 2 ^ b - 1 ∣ val p)
    (hf : p[i]? = some (bitChar f)) : ¬ 2 ^ b - 1 ∣ val (p.set i (bitChar !f)) := by
  intro hflip
  have hval := val_set hf (bitChar !f)
  refine not_ones_dvd_two_pow hb (p.length - 1 - i) ?_
  cases f with
  | false =>
    have hset : val (p.set i (bitChar true)) = val p + 2 ^ (p.length - 1 - i) := by simpa using hval
    exact (Nat.dvd_add_right hdvd).mp (hset ▸ hflip)
  | true =>
    have hset : val (p.set i (bitChar false)) + 2 ^ (p.length - 1 - i) = val p := by simpa using hval
    exact (Nat.dvd_add_right hflip).mp (hset ▸ hdvd)

/-- For b = 1 the oc-sum is 1 as soon as a `1` occurs. -/
theorem ocSum_one_of_mem {p : List Byte} (h : 0x31#8 ∈ p) : ocSum p 1 = 1 :=
  (ocSum_eq_ones Nat.one_pos).mpr ⟨fun hzero => val_eq_zero.mp hzero h, one_dvd _⟩

/-- Settles O29, by the value of the flipped string. -/
theorem singleFlipDetection : Obligations.SingleFlipDetection := by
  refine ⟨fun p b i f hver hf => ?_, fun p => ocSum_one_of_mem, by decide, by decide⟩
  obtain ⟨⟨hb, hp, hbin⟩, hones⟩ := verifyChecksum_eq_ok.mp hver
  have hb : 0 < b := Nat.pos_of_ne_zero hb
  have hsum : ocSum p b = 2 ^ b - 1 :=
    (onesComplement_eq_zero (ocSum_lt hb p)).mp (of_decide_eq_true hones.symm)
  have hset : p.set i (bitChar !f) ≠ [] := by simpa using hp
  have hbits : ∀ c ∈ p.set i (bitChar !f), isBin c = true := fun c hc =>
    (List.mem_or_eq_of_mem_set hc).elim (hbin c) fun hc => hc ▸ isBin_bitChar _
  rw [verifyChecksum_of_isBin hb hset hbits]
  refine ⟨fun htwo => ?_, ?_⟩
  · obtain ⟨-, hdvd⟩ := (ocSum_eq_ones hb).mp hsum
    have hflip : ocSum (p.set i (bitChar !f)) b ≠ 2 ^ b - 1 := fun h =>
      not_ones_dvd_val_flip htwo hdvd hf ((ocSum_eq_ones hb).mp h).2
    rw [decide_eq_false hflip]
  · rintro rfl hleft
    rw [ocSum_one_of_mem hleft]
    rfl

/-! ## The order of the blocks (R129) -/

theorem isBin_of_mem_pad {d : List Byte} {b : Nat} (hbin : ∀ c ∈ d, isBin c = true) {c : Byte}
    (h : c ∈ pad d b) : isBin c = true := by
  obtain h | h := List.mem_append.mp h
  · rw [List.eq_of_mem_replicate h]; rfl
  · exact hbin c h

/-- Settles O30: the oc-sum is the closed form of the sum of the pieces' values, whatever their order. -/
theorem checksumIgnoresBlockOrder : Obligations.ChecksumIgnoresBlockOrder := by
  intro d b ws vs hb hd hbin hws hflat hperm
  have hvs : ∀ v ∈ vs, v.length = b := fun v hv => hws v (hperm.mem_iff.mpr hv)
  have hsum : ocSum vs.flatten b = ocSum d b := by
    calc ocSum vs.flatten b
      _ = ocReduce b (vs.map val).sum := by rw [ocSum_eq_ocReduce_val hb, ocReduce_val_flatten hb hvs]
      _ = ocReduce b (ws.map val).sum := by rw [(hperm.map val).sum_eq]
      _ = ocReduce b (val (pad d b)) := by rw [← ocReduce_val_flatten hb hws, hflat]
      _ = ocSum d b := by rw [val_pad, ocSum_eq_ocReduce_val hb]
  have hchars : vs.flatten.Perm (pad d b) := hflat ▸ hperm.symm.flatten
  have hne : vs.flatten ≠ [] := fun h => by
    rw [h, List.nil_perm] at hchars
    simp [pad, hd] at hchars
  have hbits : ∀ c ∈ vs.flatten, isBin c = true := fun c hc => isBin_of_mem_pad hbin (hchars.mem_iff.mp hc)
  refine ⟨hsum, ?_⟩
  rw [computeChecksum_of_isBin hb hne hbits, computeChecksum_of_isBin hb hd hbin, hsum]

/-! ## CKCOMP and CKVERIFY (R130, R131) -/

/-- A formed checksum is the complement of the oc-sum in the form asked for. -/
theorem isChecksum_of_formedChecksum {xf : Bool} {b : Nat} {d out : List Byte}
    (h : formedChecksum d b xf = .ok out) : IsChecksum xf b d out := by
  unfold formedChecksum at h
  split at h
  · simp at h
  · next c hc =>
    obtain ⟨-, rfl⟩ := computeChecksum_eq_ok.mp hc
    cases xf with
    | false => exact ⟨fun _ => (Except.ok.inj h).symm, nofun⟩
    | true =>
      obtain ⟨-, -, rfl⟩ := binaryToHex_eq_ok.mp h
      exact ⟨nofun, fun _ => isHexOf_packHex _⟩

/-- The end of CKVERIFY by the result of verifyChecksum (R131). -/
def State.finishVerify (s : State) : Except EngineError Bool → State
  | .error e => s.raise e.err e.pos
  | .ok false => s.raise .checksumMismatch 0
  | .ok true => s.complete true

section

variable {s : State} {b : Nat}

theorem exec_ckcomp_of_badArgument {xf : Bool}
    (h : s.caps.ibufBytes < s.ilen.toNat ∨ b = 0 ∨ s.ilen.toNat = 0 ∨ (xf = true ∧ b % 4 ≠ 0) ∨
      s.caps.obufBytes < checksumChars xf b) :
    exec (.ckcomp xf b) s = .next (s.raise .invalidArgument 0) := by
  simp only [exec, execCkcomp, ← ite_or]
  exact if_pos h

theorem exec_ckverify_of_badArgument
    (h : s.caps.ibufBytes < s.ilen.toNat ∨ b = 0 ∨ s.ilen.toNat = 0) :
    exec (.ckverify b) s = .next (s.raise .invalidArgument 0) := by
  simp only [exec, execCkverify, ← ite_or]
  exact if_pos h

variable {d : List Byte} (hin : s.InputIs d) (hd : d ≠ [])
include hin hd

/-- CKCOMP of a written nonempty input with legal arguments is the formed checksum of it. -/
theorem exec_ckcomp_of_input {xf : Bool} (hsize : BlockSizeOk true xf b)
    (hfit : checksumChars xf b ≤ s.caps.obufBytes) :
    exec (.ckcomp xf b) s = .next (s.finishOutput 0 (formedChecksum d b xf)) := by
  obtain ⟨hb, hmod⟩ := hsize rfl
  have hread := hin.readInput
  obtain ⟨hlen, hcap, -⟩ := hin
  have hne : d.length ≠ 0 := mt List.length_eq_zero_iff.mp hd
  have hx : ¬ (xf = true ∧ b % 4 ≠ 0) := fun ⟨hxf, hne⟩ => hne (hmod hxf)
  simp only [exec, execCkcomp, hlen, if_neg (not_lt.mpr hcap), if_neg hb, if_neg hne, if_neg hx,
    if_neg (not_lt.mpr hfit), hread]

/-- CKVERIFY of a written nonempty input ends by verifyChecksum of it. -/
theorem exec_ckverify_of_input (hb : b ≠ 0) :
    exec (.ckverify b) s = .next (s.finishVerify (verifyChecksum d b)) := by
  have hread := hin.readInput
  obtain ⟨hlen, hcap, -⟩ := hin
  have hne : d.length ≠ 0 := mt List.length_eq_zero_iff.mp hd
  simp only [exec, execCkverify, hlen, if_neg (not_lt.mpr hcap), if_neg hb, if_neg hne, hread]
  cases verifyChecksum d b with
  | error e => rfl
  | ok r => cases r <;> rfl

end

/-- Settles O31: the command commits the formed checksum, which exists and fits. -/
theorem ckcompWritesChecksum : Obligations.CkcompWritesChecksum := by
  intro xf b s d hin hd hsize hfit hbin
  obtain ⟨hb, hmod⟩ := hsize rfl
  obtain ⟨out, hout⟩ := formedChecksum_ok hb hmod hd hbin
  have hexec := exec_ckcomp_of_input hin hd hsize hfit
  rw [hout] at hexec
  exact ⟨_, out, hexec, isChecksum_of_formedChecksum hout,
    outputDone_finishOutput (formedChecksum_length hout ▸ hfit)⟩

/-- Settles O32, by whether the oc-sum is all ones. -/
theorem ckverifyReportsValidity : Obligations.CkverifyReportsValidity := by
  intro b s p hin hp hb hbin
  have hver := verifyChecksum_of_isBin (Nat.pos_of_ne_zero hb) hp hbin
  rw [exec_ckverify_of_input hin hp hb, hver]
  refine ⟨fun hones => ?_, fun hones => ?_⟩
  · rw [decide_eq_true hones]; rfl
  · rw [decide_eq_false hones]; rfl

/-- Settles O33: the argument checks, then the lowest bad character. -/
theorem checksumCommandErrors : Obligations.ChecksumCommandErrors := by
  refine ⟨fun xf b s => ⟨exec_ckcomp_of_badArgument, fun d i c hin hsize hfit hc hbad hgood => ?_⟩,
    fun b s => ⟨exec_ckverify_of_badArgument, fun d i c hin hb hc hbad hgood => ?_⟩⟩
  · obtain ⟨hb, -⟩ := hsize rfl
    rw [exec_ckcomp_of_input hin (ne_nil_of_getElem? hc) hsize hfit,
      formedChecksum_of_bad xf hb hc hbad hgood, State.finishOutput_error]
  · rw [exec_ckverify_of_input hin (ne_nil_of_getElem? hc) hb, verifyChecksum_of_bad hb hc hbad hgood]
    rfl

end Sys2Proof.Machine
end

section
/-!
PROOFS. The statements of 42_pixel_frame.md sections 2 to 4 about a record: its fields and its trailer, and decoding
what is encoded.
-/

namespace Sys2Proof.Machine

/-! ## Characters of a record (R153, R162) -/

theorem isHex_of_isBin {c : Byte} (h : isBin c = true) : isHex c = true := by
  revert c; decide

/-- No delimiter is a hex character, so none is a field or a checksum character. -/
theorem not_delimiter_of_isHex {c : Byte} (h : isHex c = true) :
    c ≠ Config.pixelSep ∧ c ≠ Config.frameTerm := by
  revert c; decide

theorem noDelimiter_of_fieldChar {fb : Bool} {t : List Byte} (h : ∀ c ∈ t, fieldChar fb c = true) :
    NoDelimiter t :=
  fun c hc => not_delimiter_of_isHex (isHex_of_fieldChar (h c hc))

/-! ## A field (R152, R153) -/

theorem enc2_of_fits {fb : Bool} {v : Nat} (h : fb = false → v ≤ 99) : enc2 fb v = some (fieldText fb v) := by
  cases fb with
  | true => rfl
  | false => exact if_neg (not_lt.mpr (h rfl))

theorem enc2_of_overflow {v : Nat} (h : 99 < v) : enc2 false v = none := if_pos h

/-- The two characters of a value are of the base's class and spell the value. -/
theorem exists_fieldText {fb : Bool} {v : Nat} (hv : v < 256) (h : fb = false → v ≤ 99) :
    ∃ x0 x1, fieldText fb v = [x0, x1] ∧ (fieldChar fb x0 = true ∧ fieldChar fb x1 = true) ∧
      fieldValue fb x0 x1 = v := by
  cases fb with
  | true =>
    have hhigh : v / 16 < 16 := by omega
    have hlow : v % 16 < 16 := by omega
    refine ⟨_, _, rfl, ⟨isHex_hexch _ hhigh, isHex_hexch _ hlow⟩, ?_⟩
    simp only [fieldValue, if_true, nib_hexch _ hhigh, nib_hexch _ hlow]
    omega
  | false =>
    have hdigit : ∀ d < 10, isDec (BitVec.ofNat 8 (0x30 + d)) = true ∧
        (BitVec.ofNat 8 (0x30 + d)).toNat - 0x30 = d := by decide
    have hv : v ≤ 99 := h rfl
    obtain ⟨hhigh, hhighVal⟩ := hdigit (v / 10) (by omega)
    obtain ⟨hlow, hlowVal⟩ := hdigit (v % 10) (by omega)
    refine ⟨_, _, rfl, ⟨hhigh, hlow⟩, ?_⟩
    simp only [fieldValue, Bool.false_eq_true, if_false, hhighVal, hlowVal]
    omega

/-! ## The fields of a pixel (R154) -/

theorem encodeFields_of_fits {fb : Bool} {vs : List Nat} (h : ∀ v ∈ vs, fb = false → v ≤ 99) (i : Nat) :
    encodeFields fb i vs = .ok (vs.flatMap (fieldText fb)) := by
  induction vs generalizing i with
  | nil => rfl
  | cons v vs ih =>
    obtain ⟨hv, hvs⟩ := List.forall_mem_cons.mp h
    simp only [encodeFields, enc2_of_fits hv, ih hvs, List.flatMap_cons]

/-- The first value that two decimal digits cannot hold is named by its field. -/
theorem encodeFields_of_overflow {pre post : List Nat} {x : Nat} (hpre : ∀ v ∈ pre, v ≤ 99) (hx : 99 < x)
    (i : Nat) :
    encodeFields false i (pre ++ x :: post) = .error ⟨.invalidArgument, i + pre.length⟩ := by
  induction pre generalizing i with
  | nil => simp only [List.nil_append, encodeFields, enc2_of_overflow hx, List.length_nil, Nat.add_zero]
  | cons v vs ih =>
    obtain ⟨hv, hvs⟩ := List.forall_mem_cons.mp hpre
    simp only [List.cons_append, encodeFields, enc2_of_fits fun _ => hv, ih hvs, List.length_cons,
      Nat.add_assoc, Nat.add_comm 1]

section

variable {fb : Bool} {row col : Nat} {v : Rgb} (hrow : row < 16) (hcol : col < 16)
include hrow hcol

theorem encodePixel_of_fits (hv : ChannelsFit fb v) :
    encodePixel fb row col v = .ok (pixelText fb row col v ++ [Config.pixelSep]) := by
  have hvals : ∀ x ∈ [row, col, v.red.toNat, v.green.toNat, v.blue.toNat], fb = false → x ≤ 99 := by
    intro x hx hfb
    obtain ⟨hred, hgreen, hblue⟩ := hv hfb
    simp only [List.mem_cons, List.not_mem_nil, or_false] at hx
    omega
  simp only [encodePixel, if_neg (not_le.mpr hrow), if_neg (not_le.mpr hcol), encodeFields_of_fits hvals,
    List.flatMap_cons, List.flatMap_nil, List.append_nil, List.append_assoc]

theorem encodePixel_of_overflow {pre post : List Nat} {x : Nat}
    (hchannels : [v.red.toNat, v.green.toNat, v.blue.toNat] = pre ++ x :: post)
    (hpre : ∀ u ∈ pre, u ≤ 99) (hx : 99 < x) :
    encodePixel false row col v = .error ⟨.invalidArgument, pre.length + 2⟩ := by
  have hfit : ∀ u ∈ row :: col :: pre, u ≤ 99 :=
    List.forall_mem_cons.mpr ⟨by omega, List.forall_mem_cons.mpr ⟨by omega, hpre⟩⟩
  have hfields := encodeFields_of_overflow (post := post) hfit hx 0
  simp only [List.length_cons, List.cons_append, ← hchannels] at hfields
  simp only [encodePixel, if_neg (not_le.mpr hrow), if_neg (not_le.mpr hcol), hfields, Nat.zero_add,
    Nat.add_assoc]

theorem encodePixel_red_overflow (hred : 99 < v.red.toNat) :
    encodePixel false row col v = .error ⟨.invalidArgument, 2⟩ :=
  encodePixel_of_overflow hrow hcol (pre := []) rfl (List.forall_mem_nil _) hred

theorem encodePixel_green_overflow (hred : v.red.toNat ≤ 99) (hgreen : 99 < v.green.toNat) :
    encodePixel false row col v = .error ⟨.invalidArgument, 3⟩ :=
  encodePixel_of_overflow hrow hcol (pre := [v.red.toNat]) rfl (List.forall_mem_singleton.mpr hred) hgreen

theorem encodePixel_blue_overflow (hred : v.red.toNat ≤ 99) (hgreen : v.green.toNat ≤ 99)
    (hblue : 99 < v.blue.toNat) : encodePixel false row col v = .error ⟨.invalidArgument, 4⟩ :=
  encodePixel_of_overflow hrow hcol (pre := [v.red.toNat, v.green.toNat]) rfl
    (List.forall_mem_cons.mpr ⟨hred, List.forall_mem_singleton.mpr hgreen⟩) hblue

/-- A pixel with a channel its base cannot hold has no record. -/
theorem encodePixel_of_not_fits (hv : ¬ ChannelsFit fb v) : ∃ e, encodePixel fb row col v = .error e := by
  obtain ⟨rfl, hover⟩ := Classical.not_imp.mp hv
  by_cases hred : v.red.toNat ≤ 99
  · by_cases hgreen : v.green.toNat ≤ 99
    · exact ⟨_, encodePixel_blue_overflow hrow hcol hred hgreen (by omega)⟩
    · exact ⟨_, encodePixel_green_overflow hrow hcol hred (not_le.mp hgreen)⟩
  · exact ⟨_, encodePixel_red_overflow hrow hcol (not_le.mp hred)⟩

end

/-! ## Where a record lies (R158) -/

theorem separatorAt_append {a : List Byte} (h : NoDelimiter a) (z : List Byte) :
    separatorAt (a ++ Config.pixelSep :: z) = some a.length := by
  induction a with
  | nil => rfl
  | cons c cs ih =>
    obtain ⟨⟨hsep, hterm⟩, hcs⟩ := List.forall_mem_cons.mp h
    rw [List.cons_append, separatorAt, if_neg hsep, if_neg hterm, ih hcs]
    rfl

/-- There is no separator, or the terminator comes before it. -/
theorem separatorAt_eq_none {l : List Byte}
    (h : ∀ k, l[k]? = some Config.pixelSep → Config.frameTerm ∈ l.take k) : separatorAt l = none := by
  induction l with
  | nil => rfl
  | cons c cs ih =>
    have hsep : c ≠ Config.pixelSep := fun hc => by simpa using h 0 (congrArg some hc)
    rw [separatorAt, if_neg hsep]
    split
    · rfl
    · next hterm =>
      rw [ih fun k hk => (List.mem_cons.mp (h (k + 1) hk)).resolve_left (Ne.symm hterm)]
      rfl

/-- The characters behind do not change a field. -/
theorem recordField_append {a : List Byte} {f : Nat} (h : 2 * f + 1 < a.length) (fb : Bool) (z : List Byte) :
    recordField fb (a ++ z) f = recordField fb a f := by
  rw [recordField, List.getD_append _ _ _ _ (Nat.lt_of_succ_lt h), List.getD_append _ _ _ _ h]
  rfl

theorem decodeAt_of_no_separator {rest : List Byte} (h : separatorAt rest = none) (fb : Bool) (p : Nat) :
    decodeAt fb p rest = .error ⟨.truncatedFrame, p⟩ := by
  simp only [decodeAt, h]

section

variable {a : List Byte} (hno : NoDelimiter a) (fb : Bool) (p : Nat) (z : List Byte)
include hno

theorem decodeAt_of_short (hlen : a.length < 10) :
    decodeAt fb p (a ++ Config.pixelSep :: z) = .error ⟨.truncatedFrame, p⟩ := by
  simp only [decodeAt, separatorAt_append hno, if_pos hlen]

variable {fb} (hlen : 10 ≤ a.length)
include hlen

theorem decodeAt_of_badChar {j : Nat} {c : Byte} (hj : j < 10) (hc : a[j]? = some c)
    (hbad : fieldChar fb c = false) (hgood : ∀ c' ∈ a.take j, fieldChar fb c' = true) :
    decodeAt fb p (a ++ Config.pixelSep :: z) = .error ⟨.invalidCharacter, p + j⟩ := by
  have hc : (a.take 10)[j]? = some c := by rw [List.getElem?_take_of_lt hj, hc]
  have hgood : ∀ c' ∈ (a.take 10).take j, fieldChar fb c' = true := by
    rwa [List.take_take, Nat.min_eq_left hj.le]
  simp only [decodeAt, separatorAt_append hno, if_neg (not_lt.mpr hlen), List.take_append_of_le_length hlen,
    findIdx?_bad_some hc hbad hgood]

variable (hclass : ∀ c ∈ a.take 10, fieldChar fb c = true)
include hclass

theorem decodeAt_of_badRow (hrow : 16 ≤ recordField fb a 0) :
    decodeAt fb p (a ++ Config.pixelSep :: z) = .error ⟨.invalidArgument, p⟩ := by
  simp only [decodeAt, separatorAt_append hno, if_neg (not_lt.mpr hlen), List.take_append_of_le_length hlen,
    findIdx?_bad_none.mpr hclass, recordField_append (show 2 * 0 + 1 < a.length by omega),
    dif_neg (not_lt.mpr hrow)]

theorem decodeAt_of_badCol (hrow : recordField fb a 0 < 16) (hcol : 16 ≤ recordField fb a 1) :
    decodeAt fb p (a ++ Config.pixelSep :: z) = .error ⟨.invalidArgument, p + 2⟩ := by
  simp only [decodeAt, separatorAt_append hno, if_neg (not_lt.mpr hlen), List.take_append_of_le_length hlen,
    findIdx?_bad_none.mpr hclass, recordField_append (show 2 * 0 + 1 < a.length by omega),
    recordField_append (show 2 * 1 + 1 < a.length by omega), dif_pos hrow, dif_neg (not_lt.mpr hcol)]

/-- Ten characters of the class that spell row, column and channels are decoded to them. -/
theorem decodeAt_of_fields {row col : Fin 16} {v : Rgb} (hrow : recordField fb a 0 = row.val)
    (hcol : recordField fb a 1 = col.val) (hred : recordField fb a 2 = v.red.toNat)
    (hgreen : recordField fb a 3 = v.green.toNat) (hblue : recordField fb a 4 = v.blue.toNat) :
    decodeAt fb p (a ++ Config.pixelSep :: z) =
      .ok ⟨row, col, v, p + 10, a.length - 10, p + a.length + 1⟩ := by
  have hfield (f : Nat) (hf : f < 5) :
      recordField fb (a ++ Config.pixelSep :: z) f = recordField fb a f := recordField_append (by omega) _ _
  simp only [decodeAt, separatorAt_append hno, if_neg (not_lt.mpr hlen), List.take_append_of_le_length hlen,
    findIdx?_bad_none.mpr hclass, hfield 0 (by omega), hfield 1 (by omega), hfield 2 (by omega),
    hfield 3 (by omega), hfield 4 (by omega), hrow, hcol, hred, hgreen, hblue, row.isLt, col.isLt, dite_true,
    BitVec.ofNat_toNat, BitVec.setWidth_eq]

end

/-! ## A record that spells a pixel (R150) -/

section

variable {r : WireRecord} {fb : Bool} (h : r.Spells fb)
include h

/-- A record that spells a pixel is decoded to it, whatever its trailer and what follows it. -/
theorem WireRecord.Spells.decodeAt (p : Nat) (rest : List Byte) :
    decodeAt fb p (r.text ++ rest) =
      .ok ⟨r.row, r.col, r.rgb, p + 10, r.trail.length, p + r.text.length⟩ := by
  obtain ⟨⟨hlen, hclass, hno⟩, hrow, hcol, hred, hgreen, hblue⟩ := h
  have hfields : (r.fields ++ r.trail).take 10 = r.fields := by rw [← hlen, List.take_left]
  have hfield {f n : Nat} (hf : f < 5) (hn : recordField fb r.fields f = n) :
      recordField fb (r.fields ++ r.trail) f = n :=
    (recordField_append (by omega) fb r.trail).trans hn
  have hdec := decodeAt_of_fields (a := r.fields ++ r.trail)
    (List.forall_mem_append.mpr ⟨noDelimiter_of_fieldChar hclass, hno⟩) p rest (by simp [hlen])
    (hfields.symm ▸ hclass) (hfield (by omega) hrow) (hfield (by omega) hcol) (hfield (by omega) hred)
    (hfield (by omega) hgreen) (hfield (by omega) hblue)
  simpa [hlen, Nat.add_assoc] using hdec

/-- A string that is one record. -/
theorem WireRecord.Spells.decodeRecord_text :
    decodeRecord fb r.text 0 = .ok ⟨r.row, r.col, r.rgb, 10, r.trail.length, 11 + r.trail.length⟩ := by
  have hdec := h.decodeAt 0 []
  obtain ⟨⟨hlen, -, -⟩, -⟩ := h
  have hnext : 0 + r.text.length = 11 + r.trail.length := by
    simp only [List.length_append, List.length_singleton, hlen]
    omega
  rwa [List.append_nil, hnext] at hdec

theorem WireRecord.Spells.take_fields (rest : List Byte) : (r.text ++ rest).take 10 = r.fields := by
  obtain ⟨⟨hlen, -, -⟩, -⟩ := h
  simp [WireRecord.text, ← hlen]

theorem WireRecord.Spells.take_trail (rest : List Byte) :
    ((r.text ++ rest).drop 10).take r.trail.length = r.trail := by
  obtain ⟨⟨hlen, -, -⟩, -⟩ := h
  simp [WireRecord.text, ← hlen]

/-- Its first character is a field's: no frame ends there. -/
theorem WireRecord.Spells.exists_cons (rest : List Byte) :
    ∃ c cs, r.text ++ rest = c :: cs ∧ c ≠ Config.frameTerm := by
  obtain ⟨⟨hlen, hclass, -⟩, -⟩ := h
  obtain ⟨c, cs, hfields⟩ := List.exists_cons_of_length_pos (show 0 < r.fields.length by omega)
  have hc : fieldChar fb c = true := hclass c (hfields ▸ List.mem_cons_self)
  exact ⟨c, cs ++ r.trail ++ [Config.pixelSep] ++ rest, by simp [WireRecord.text, hfields],
    (not_delimiter_of_isHex (isHex_of_fieldChar hc)).2⟩

end

/-- The ten characters a pixel is encoded to spell it, with any trailer behind them. -/
theorem spells_pixelText {fb : Bool} {row col : Fin 16} {v : Rgb} (hv : ChannelsFit fb v) {tr : List Byte}
    (htr : NoDelimiter tr) : WireRecord.Spells ⟨row, col, v, pixelText fb row.val col.val v, tr⟩ fb := by
  obtain ⟨r0, r1, hrow, hrowClass, hrowVal⟩ := exists_fieldText (fb := fb) (v := row.val) (by omega) (by omega)
  obtain ⟨c0, c1, hcol, hcolClass, hcolVal⟩ := exists_fieldText (fb := fb) (v := col.val) (by omega) (by omega)
  obtain ⟨x0, x1, hred, hredClass, hredVal⟩ := exists_fieldText v.red.isLt fun hfb => (hv hfb).1
  obtain ⟨y0, y1, hgreen, hgreenClass, hgreenVal⟩ := exists_fieldText v.green.isLt fun hfb => (hv hfb).2.1
  obtain ⟨z0, z1, hblue, hblueClass, hblueVal⟩ := exists_fieldText v.blue.isLt fun hfb => (hv hfb).2.2
  have htext : pixelText fb row.val col.val v = [r0, r1, c0, c1, x0, x1, y0, y1, z0, z1] := by
    rw [pixelText, hrow, hcol, hred, hgreen, hblue]; rfl
  rw [htext]
  exact ⟨⟨rfl, by simp [*], htr⟩, hrowVal, hcolVal, hredVal, hgreenVal, hblueVal⟩

/-! ## Trailers (R155, R160) -/

/-- The characters a trailer may hold in the form XF asks for. -/
abbrev trailerChar (xf : Bool) (c : Byte) : Bool := if xf then isHex c else isBin c

/-- The binary string a trailer stands for in the form XF asks for. -/
abbrev trailerBits (xf : Bool) (tr : List Byte) : List Byte := if xf then expandHex tr else tr

theorem isHex_of_trailerChar {xf : Bool} {c : Byte} (h : trailerChar xf c = true) : isHex c = true := by
  cases xf with
  | false => exact isHex_of_isBin h
  | true => exact h

theorem isBin_of_mem_trailerBits {xf : Bool} {tr : List Byte} (h : ∀ c ∈ tr, trailerChar xf c = true) {c : Byte}
    (hc : c ∈ trailerBits xf tr) : isBin c = true := by
  cases xf with
  | false => exact h c hc
  | true => exact isBin_of_mem_expandHex hc

/-- A formed checksum has the characters of its form, and stands for the complement of the oc-sum. -/
theorem formedChecksum_spec {d t : List Byte} {b : Nat} {xf : Bool} (h : formedChecksum d b xf = .ok t) :
    (b ≠ 0 ∧ d ≠ []) ∧ (∀ c ∈ t, trailerChar xf c = true) ∧
      trailerBits xf t = bits b (onesComplement b (ocSum d b)) := by
  unfold formedChecksum at h
  split at h
  · simp at h
  · next c hc =>
    obtain ⟨⟨hb, hd, -⟩, rfl⟩ := computeChecksum_eq_ok.mp hc
    refine ⟨⟨hb, hd⟩, ?_⟩
    cases xf with
    | false => exact (Except.ok.inj h) ▸ ⟨fun c => isBin_of_mem_bits, rfl⟩
    | true =>
      obtain ⟨hlen, hbin, rfl⟩ := binaryToHex_eq_ok.mp h
      exact ⟨fun c => isHex_of_mem_packHex, expandHex_packHex hlen hbin⟩

/-- A trailer is the formed checksum of the expanded field characters. -/
theorem trailer_eq_ok {f t : List Byte} {b : Nat} {xf : Bool} :
    trailer f b xf = .ok t ↔ (∀ c ∈ f, isHex c = true) ∧ formedChecksum (expandHex f) b xf = .ok t := by
  unfold trailer
  split
  · next e he =>
    have hbad : ¬ ∀ c ∈ f, isHex c = true := fun hf => by rw [hexToBinary_of_isHex hf] at he; simp at he
    exact ⟨nofun, fun h => absurd h.1 hbad⟩
  · next d hd =>
    obtain ⟨hf, rfl⟩ := hexToBinary_eq_ok.mp hd
    exact (and_iff_right hf).symm

theorem encodeChecksum_eq_ok {f r : List Byte} {b : Nat} {xf : Bool} (hf : f.length = 10) :
    encodeChecksum (f ++ [Config.pixelSep]) b xf = .ok r ↔
      ∃ t, trailer f b xf = .ok t ∧ r = f ++ t ++ [Config.pixelSep] := by
  have hfields : (f ++ [Config.pixelSep]).take 10 = f := by rw [← hf, List.take_left]
  rw [encodeChecksum, hfields]
  cases trailer f b xf <;> simp [eq_comm]

theorem expandHex_ne_nil {f : List Byte} (hf : f ≠ []) : expandHex f ≠ [] := by
  rw [← List.length_pos_iff, expandHex_length]
  have := List.length_pos_iff.mpr hf
  omega

theorem noDelimiter_of_trailerChar {xf : Bool} {t : List Byte} (h : ∀ c ∈ t, trailerChar xf c = true) :
    NoDelimiter t :=
  fun c hc => not_delimiter_of_isHex (isHex_of_trailerChar (h c hc))

/-- The scan of R160 for the first trailer character outside the class. -/
theorem trailerScan_eq (xf : Bool) :
    (fun c => if xf then !isHex c else !isBin c) = fun c => !trailerChar xf c := by
  cases xf <;> rfl

section

variable (f : List Byte) {tr : List Byte} {b : Nat} {xf : Bool} (toff : Nat)

theorem verifyRecord_of_length (hlen : tr.length ≠ checksumChars xf b) :
    verifyRecord f tr b xf toff = .error ⟨.invalidArgument, toff⟩ := if_pos hlen

variable (hlen : tr.length = checksumChars xf b)
include hlen

theorem verifyRecord_of_badChar {j : Nat} {c : Byte} (hc : tr[j]? = some c) (hbad : trailerChar xf c = false)
    (hgood : ∀ c' ∈ tr.take j, trailerChar xf c' = true) :
    verifyRecord f tr b xf toff = .error ⟨.invalidCharacter, toff + j⟩ := by
  simp only [verifyRecord, ne_eq, hlen, not_true_eq_false, if_false, trailerScan_eq,
    findIdx?_bad_some hc hbad hgood]

variable {f}

/-- The check of a trailer of the right length and class is whether the two expansions have the oc-sum 2^b - 1. -/
theorem verifyRecord_of_class (hb : b ≠ 0) (hf : ∀ c ∈ f, isHex c = true) (hne : f ≠ [])
    (hclass : ∀ c ∈ tr, trailerChar xf c = true) :
    verifyRecord f tr b xf toff =
      .ok (decide (ocSum (expandHex f ++ trailerBits xf tr) b = 2 ^ b - 1)) := by
  have hver : verifyChecksum (expandHex f ++ trailerBits xf tr) b =
      .ok (decide (ocSum (expandHex f ++ trailerBits xf tr) b = 2 ^ b - 1)) :=
    verifyChecksum_of_isBin (Nat.pos_of_ne_zero hb) (by simp [expandHex_ne_nil hne])
      (List.forall_mem_append.mpr ⟨fun c => isBin_of_mem_expandHex, fun c => isBin_of_mem_trailerBits hclass⟩)
  have hexpand : (if xf then hexToBinary tr else .ok tr) = .ok (trailerBits xf tr) := by
    cases xf with
    | false => rfl
    | true => exact hexToBinary_of_isHex hclass
  simp only [verifyRecord, ne_eq, hlen, not_true_eq_false, if_false, trailerScan_eq,
    findIdx?_bad_none.mpr hclass, hexToBinary_of_isHex hf, hexpand, hver]

end

/-- A trailer verifies behind the field characters it was computed of. -/
theorem verifyRecord_trailer {f t : List Byte} {b : Nat} {xf : Bool} (h : trailer f b xf = .ok t) (toff : Nat) :
    verifyRecord f t b xf toff = .ok true := by
  obtain ⟨hf, hform⟩ := trailer_eq_ok.mp h
  obtain ⟨⟨hb, hd⟩, hclass, hbits⟩ := formedChecksum_spec hform
  have hne : f ≠ [] := by rintro rfl; exact hd rfl
  rw [verifyRecord_of_class toff (trailer_length h) hb hf hne hclass, hbits,
    ocSum_append_checksum (Nat.pos_of_ne_zero hb), decide_eq_true rfl]

/-- A legal block size gives every pixel a trailer (R155). -/
theorem exists_trailer {f : List Byte} {b : Nat} {xf : Bool} (hf : ∀ c ∈ f, isHex c = true) (hne : f ≠ [])
    (hsize : BlockSizeOk true xf b) : ∃ t, trailer f b xf = .ok t := by
  obtain ⟨hb, hmod⟩ := hsize rfl
  obtain ⟨t, ht⟩ := formedChecksum_ok hb hmod (expandHex_ne_nil hne) fun c => isBin_of_mem_expandHex
  exact ⟨t, trailer_eq_ok.mpr ⟨hf, ht⟩⟩

/-- Settles O34: the record, with or without a trailer, spells the pixel it was encoded from. -/
theorem pixelRoundTrip : Obligations.PixelRoundTrip := by
  intro fb row col v hv
  have hspells {tr : List Byte} (htr : NoDelimiter tr) := spells_pixelText (row := row) (col := col) hv htr
  have hplain := hspells (tr := []) (List.forall_mem_nil _)
  have hdec := hplain.decodeRecord_text
  obtain ⟨⟨hlen, hclass, -⟩, -⟩ := hplain
  rw [WireRecord.text, List.append_nil] at hdec
  refine ⟨_, encodePixel_of_fits row.isLt col.isLt hv, hdec, fun b xf hsize => ?_⟩
  obtain ⟨t, ht⟩ := exists_trailer (fun c hc => isHex_of_fieldChar (hclass c hc))
    (List.ne_nil_of_length_pos (by omega)) hsize
  obtain ⟨-, hform⟩ := trailer_eq_ok.mp ht
  obtain ⟨-, hchars, -⟩ := formedChecksum_spec hform
  have htlen : t.length = if xf then b / 4 else b := trailer_length ht
  refine ⟨_, (encodeChecksum_eq_ok hlen).mpr ⟨t, ht, rfl⟩, ?_⟩
  rw [← htlen]
  exact (hspells (noDelimiter_of_trailerChar hchars)).decodeRecord_text

/-- Settles O35: the first ten characters are the fields, the next ones their trailer. -/
theorem encodedRecordVerifies : Obligations.EncodedRecordVerifies := by
  intro fb xf b row col v r r' hr hr'
  obtain ⟨-, -, f, hlen, rfl, -⟩ := encodePixel_eq_ok hr
  obtain ⟨t, ht, rfl⟩ := (encodeChecksum_eq_ok hlen).mp hr'
  have htlen : t.length = if xf then b / 4 else b := trailer_length ht
  have hfields : (f ++ t ++ [Config.pixelSep]).take 10 = f := by simp [← hlen]
  have htrail : ((f ++ t ++ [Config.pixelSep]).drop 10).take (if xf then b / 4 else b) = t := by
    simp [← hlen, ← htlen]
  rw [hfields, htrail]
  exact verifyRecord_trailer ht 10

end Sys2Proof.Machine
end

section
/-!
PROOFS. The statements of 42_pixel_frame.md section 5 about one record: the commands PIXENC and RECDEC.
-/

namespace Sys2Proof.Machine

/-! ## Output behind what OBUF holds (R75, R169) -/

/-- A commit behind `prior`, which OBUF holds from 0 on, leaves OBUF[0:OLEN) as `prior` and the output. -/
theorem State.output_commitOutput_behind {s : State} {prior out : List Byte}
    (hprior : readAll (s.obuf.readFrom 0 prior.length) = some prior)
    (hfit : prior.length + out.length ≤ s.caps.obufBytes) :
    (s.commitOutput prior.length out).output = some (prior ++ out) := by
  have hcap := s.caps.obufBytes_range
  have holen : (s.commitOutput prior.length out).olen.toNat = prior.length + out.length := by
    rw [State.commitOutput_olen, BitVec.toNat_ofNat, Nat.mod_eq_of_lt (by omega)]
  have hread {i : Nat} (hi : i < prior.length) : s.obuf.read i = prior[i]? := by
    have hcell := congrArg (·[i]?) (readAll_eq_some.mp hprior)
    simp only [Memory.readFrom_getElem?, if_pos hi, Nat.zero_add, List.getElem?_map,
      List.getElem?_eq_getElem hi, Option.map_some, Option.some.injEq] at hcell
    rw [hcell, List.getElem?_eq_getElem hi]
  rw [State.output, readAll_eq_some, holen]
  refine List.ext_getElem? fun i => ?_
  simp only [Memory.readFrom_getElem?, State.commitOutput_read, Nat.zero_add, List.getElem?_map,
    List.getElem?_append]
  split
  · next hi =>
    split
    · next hlt => rw [hread hlt, List.getElem?_eq_getElem hlt]; rfl
    · next hge => rw [List.getElem?_eq_getElem (by omega)]; rfl
  · next hi => rw [if_neg (by omega), List.getElem?_eq_none (by omega)]; rfl

theorem outputDone_finishOutput_behind {s : State} {prior out : List Byte}
    (hprior : readAll (s.obuf.readFrom 0 prior.length) = some prior)
    (hfit : prior.length + out.length ≤ s.caps.obufBytes) :
    OutputDone s (s.finishOutput prior.length (.ok out)) (prior ++ out) :=
  ⟨State.output_commitOutput_behind hprior hfit, by simp, rfl⟩

/-- A listed index has a value. -/
theorem Memory.read_ne_none {m : Memory} {i : Nat} (h : i ∈ m.map (·.1)) : m.read i ≠ none := by
  induction m with
  | nil => simp at h
  | cons c t ih =>
    obtain ⟨b, v⟩ := c
    rw [Memory.read_cons]
    split
    · simp
    · next hne => exact ih ((List.mem_cons.mp h).resolve_left (Ne.symm hne))

/-- OBUF has a value at every index below OLEN (R75). -/
theorem State.OutputOk.exists_output {s : State} (h : s.OutputOk) : ∃ out, s.output = some out := by
  obtain ⟨hidx, -⟩ := h
  refine Option.ne_none_iff_exists'.mp fun hnone => ?_
  obtain ⟨i, -, hi, hread⟩ := (readAll_readFrom_eq_none s.obuf 0 s.olen.toNat).mp hnone
  exact Memory.read_ne_none (hidx ▸ List.mem_range.mpr hi) hread

/-! ## Block sizes and trailers of a record (R81, R155) -/

theorem not_blockSizeOk {used xf : Bool} {b : Nat} :
    ¬ BlockSizeOk used xf b ↔ (used = true ∧ b = 0) ∨ (used = true ∧ xf = true ∧ b % 4 ≠ 0) := by
  unfold BlockSizeOk
  tauto

/-- A legal block size passes the two checks of it every command makes. -/
theorem blockSize_checks {used xf : Bool} {b : Nat} (h : BlockSizeOk used xf b) :
    ¬ (used = true ∧ b = 0) ∧ ¬ (used = true ∧ xf = true ∧ b % 4 ≠ 0) :=
  not_or.mp fun hbad => not_blockSizeOk.mpr hbad h

/-- The trailer of the field characters `f`: none without CK, else their checksum (R155, R157). -/
abbrev IsTrailer (ck xf : Bool) (b : Nat) (f tr : List Byte) : Prop :=
  (ck = false → tr = []) ∧ (ck = true → IsChecksum xf b (nibbles f) tr)

theorem isTrailer_of_trailer {f t : List Byte} {b : Nat} {xf : Bool} (h : trailer f b xf = .ok t) :
    IsTrailer true xf b f t := by
  obtain ⟨-, hform⟩ := trailer_eq_ok.mp h
  refine ⟨nofun, fun _ => ?_⟩
  rw [nibbles, ← expandHex_eq_flatMap]
  exact isChecksum_of_formedChecksum hform

theorem encodeRecord_of_error {fb : Bool} {row col : Nat} {v : Rgb} {e : EngineError}
    (h : encodePixel fb row col v = .error e) (ck xf : Bool) (b : Nat) :
    encodeRecord fb ck xf b row col v = .error e := by
  simp only [encodeRecord, h]

/-- The record of a pixel the layout can hold: its characters, the trailer CK asks for and the separator. -/
theorem encodeRecord_of_fits {fb ck xf : Bool} {b row col : Nat} {v : Rgb} (hrow : row < 16) (hcol : col < 16)
    (hv : ChannelsFit fb v) (hsize : BlockSizeOk ck xf b) :
    ∃ tr, IsTrailer ck xf b (pixelText fb row col v) tr ∧
      encodeRecord fb ck xf b row col v = .ok (pixelText fb row col v ++ tr ++ [Config.pixelSep]) := by
  have hpixel := encodePixel_of_fits hrow hcol hv
  cases ck with
  | false => exact ⟨[], ⟨fun _ => rfl, nofun⟩, by simp only [encodeRecord_no_checksum, hpixel, List.append_nil]⟩
  | true =>
    obtain ⟨⟨hlen, hclass, -⟩, -⟩ :=
      spells_pixelText (row := ⟨row, hrow⟩) (col := ⟨col, hcol⟩) hv (tr := []) (List.forall_mem_nil _)
    obtain ⟨t, ht⟩ := exists_trailer (fun c hc => isHex_of_fieldChar (hclass c hc))
      (List.ne_nil_of_length_pos (by omega)) hsize
    refine ⟨t, isTrailer_of_trailer ht, ?_⟩
    simp only [encodeRecord, hpixel, if_true]
    exact (encodeChecksum_eq_ok hlen).mpr ⟨t, ht, rfl⟩

/-! ## PIXENC (R169) -/

@[simp] theorem terminator_length (tm : Bool) : (terminator tm).length = if tm then 1 else 0 := by
  cases tm <;> rfl

/-- The characters PIXENC's checks count: what stands before its output, and the output. -/
theorem pixencChars_eq (ck xf ap tm : Bool) (b : Nat) (s : State) :
    (if ap then s.olen.toNat else 0) + 11 + (if ck then (if xf then b / 4 else b) else 0) + (if tm then 1 else 0) =
      s.appendFrom ap + (11 + trailerChars ck xf b + (terminator tm).length) := by
  rw [terminator_length, trailerChars, checksumChars, State.appendFrom, Nat.add_assoc, Nat.add_assoc,
    Nat.add_assoc]

section

variable {ck xf ap tm : Bool} {b : Nat} {s : State}

theorem exec_pixenc_of_badArgument
    (h : ¬ BlockSizeOk ck xf b ∨
      s.caps.obufBytes < s.appendFrom ap + (11 + trailerChars ck xf b + (terminator tm).length)) :
    exec (.pixenc ck xf ap tm b) s = .next (s.raise .invalidArgument 0) := by
  rw [not_blockSizeOk, or_assoc] at h
  simp only [exec, execPixenc, pixencOutput, ← ite_or]
  rw [if_pos h, State.finishOutput_error]

variable (hsize : BlockSizeOk ck xf b)
  (hfit : s.appendFrom ap + (11 + trailerChars ck xf b + (terminator tm).length) ≤ s.caps.obufBytes)
include hsize hfit

theorem pixencOutput_of_legal : pixencOutput ck xf ap tm b s =
    (encodeRecord s.fb16 ck xf b s.pixRow.toNat s.pixCol.toNat s.pixRgb).map (· ++ terminator tm) := by
  obtain ⟨hzero, hmod⟩ := blockSize_checks hsize
  rw [pixencOutput, if_neg hzero, if_neg hmod, if_neg (not_lt.mpr hfit)]
  cases encodeRecord s.fb16 ck xf b s.pixRow.toNat s.pixCol.toNat s.pixRgb <;> rfl

theorem exec_pixenc_of_error {e : EngineError}
    (h : encodePixel s.fb16 s.pixRow.toNat s.pixCol.toNat s.pixRgb = .error e) :
    exec (.pixenc ck xf ap tm b) s = .next (s.raise e.err e.pos) := by
  rw [exec, execPixenc, pixencOutput_of_legal hsize hfit, encodeRecord_of_error h]
  rfl

end

/-- What stands before PIXENC's output: OBUF[0:OLEN) with AP, else nothing. -/
theorem State.OutputOk.exists_prior {s : State} (h : s.OutputOk) (ap : Bool) :
    ∃ prior, (ap = false → prior = []) ∧ (ap = true → s.output = some prior) ∧
      s.appendFrom ap = prior.length ∧ readAll (s.obuf.readFrom 0 prior.length) = some prior := by
  cases ap with
  | false => exact ⟨[], fun _ => rfl, nofun, rfl, rfl⟩
  | true =>
    obtain ⟨prior, hprior⟩ := h.exists_output
    have hlen := State.output_length hprior
    exact ⟨prior, nofun, fun _ => hprior, hlen.symm, hlen ▸ hprior⟩

/-- Settles O36: the record is committed behind what AP keeps. -/
theorem pixencWritesRecord : Obligations.PixencWritesRecord := by
  intro ck xf ap tm b s hout hrow hcol hv hsize hfit
  rw [pixencChars_eq] at hfit
  obtain ⟨prior, hnone, hsome, hstart, hprior⟩ := hout.exists_prior ap
  obtain ⟨tr, ⟨hnotr, htr⟩, hrec⟩ := encodeRecord_of_fits hrow hcol hv hsize
  have hlen := encodeRecord_length hrec
  have hexec : exec (.pixenc ck xf ap tm b) s = .next (s.finishOutput prior.length
      (.ok (pixelText s.fb16 s.pixRow.toNat s.pixCol.toNat s.pixRgb ++ tr ++ [Config.pixelSep] ++
        terminator tm))) := by
    rw [exec, execPixenc, pixencOutput_of_legal hsize hfit, hrec, hstart]
    rfl
  have hdone := outputDone_finishOutput_behind (out := _ ++ terminator tm) hprior
    (by rw [List.length_append, hlen, ← hstart]; exact hfit)
  refine ⟨_, prior, tr, hexec, hnone, hsome, hnotr, htr, ?_⟩
  simpa only [terminator, List.append_assoc] using hdone

/-- Settles O37: the arguments, then the first field that cannot be encoded. -/
theorem pixencErrors : Obligations.PixencErrors := by
  intro ck xf ap tm b s
  simp only [pixencChars_eq]
  refine ⟨exec_pixenc_of_badArgument, fun hsize hfit => ⟨fun hrow => ?_, fun hrow hcol => ?_,
    fun hrow hcol hfb => ⟨fun hred => ?_, fun hred hgreen => ?_, fun hred hgreen hblue => ?_⟩⟩⟩
  · exact exec_pixenc_of_error hsize hfit (e := ⟨.invalidArgument, 0⟩) (if_pos hrow)
  · exact exec_pixenc_of_error hsize hfit (e := ⟨.invalidArgument, 1⟩)
      ((if_neg (not_le.mpr hrow)).trans (if_pos hcol))
  · exact exec_pixenc_of_error hsize hfit (hfb ▸ encodePixel_red_overflow hrow hcol hred)
  · exact exec_pixenc_of_error hsize hfit (hfb ▸ encodePixel_green_overflow hrow hcol hred hgreen)
  · exact exec_pixenc_of_error hsize hfit (hfb ▸ encodePixel_blue_overflow hrow hcol hred hgreen hblue)

/-! ## RECDEC (R170) -/

theorem State.RestIs.readRest {s : State} {t : List Byte} (h : s.RestIs t) : s.readRest = some t := by
  obtain ⟨hlen, -, hholds⟩ := h
  rw [State.readRest_eq_some, ← hlen, Nat.add_sub_cancel_left]
  exact hholds

/-- The end of RECDEC with VF of a decoded record, by the result of verifyRecord (R170). -/
def State.finishRecord (s : State) (r : Record) : Except EngineError Bool → State
  | .error e => s.raise e.err e.pos
  | .ok false => (s.surface r).raise .checksumMismatch s.iptr.toNat
  | .ok true => (s.surface r).complete true

/-- The end of RECDEC of the characters `t` at IPTR, by the result of decodeRecord (R170). -/
def State.finishDecode (s : State) (xf vf : Bool) (b : Nat) (t : List Byte) : Except EngineError Record → State
  | .error e => s.raise e.err e.pos
  | .ok r =>
    if vf then s.finishRecord r (verifyRecord (t.take 10) ((t.drop 10).take r.tlen) b xf r.toff)
    else (s.surface r).complete false

section

variable {xf vf : Bool} {b : Nat} {s : State}

theorem exec_recdec_of_badArgument (hcap : s.ilen.toNat ≤ s.caps.ibufBytes)
    (h : s.ilen.toNat < s.iptr.toNat ∨ ¬ BlockSizeOk vf xf b) :
    exec (.recdec xf vf b) s = .next (s.raise .invalidArgument s.iptr.toNat) := by
  rw [not_blockSizeOk] at h
  simp only [exec, execRecdec, if_neg (not_lt.mpr hcap), ← ite_or]
  exact if_pos h

/-- RECDEC of a written input with legal arguments ends by decodeRecord of it. -/
theorem exec_recdec_of_rest {t : List Byte} (hrest : s.RestIs t) (hsize : BlockSizeOk vf xf b) :
    exec (.recdec xf vf b) s = .next (s.finishDecode xf vf b t (decodeAt s.fb16 s.iptr.toNat t)) := by
  have hread := hrest.readRest
  obtain ⟨hlen, hcap, -⟩ := hrest
  obtain ⟨hzero, hmod⟩ := blockSize_checks hsize
  simp only [exec, execRecdec, if_neg (not_lt.mpr hcap), if_neg (show ¬ s.ilen.toNat < s.iptr.toNat by omega),
    if_neg hzero, if_neg hmod, hread]
  cases decodeAt s.fb16 s.iptr.toNat t with
  | error e => rfl
  | ok r =>
    cases vf with
    | false => rfl
    | true =>
      simp only [State.finishDecode, if_true]
      cases verifyRecord (t.take 10) ((t.drop 10).take r.tlen) b xf r.toff with
      | error e => rfl
      | ok verified => cases verified <;> rfl

theorem exec_recdec_of_error {t : List Byte} (hrest : s.RestIs t) (hsize : BlockSizeOk vf xf b) {e : EngineError}
    (h : decodeAt s.fb16 s.iptr.toNat t = .error e) :
    exec (.recdec xf vf b) s = .next (s.raise e.err e.pos) := by
  rw [exec_recdec_of_rest hrest hsize, h]
  rfl

/-- RECDEC with VF of a record that spells a pixel ends by verifyRecord of its fields and its trailer. -/
theorem exec_recdec_of_spells {r : WireRecord} {rest : List Byte} (hspells : r.Spells s.fb16)
    (hrest : s.RestIs (r.text ++ rest)) (hsize : BlockSizeOk true xf b) :
    exec (.recdec xf true b) s = .next
      (s.finishRecord ⟨r.row, r.col, r.rgb, s.iptr.toNat + 10, r.trail.length, s.iptr.toNat + r.text.length⟩
        (verifyRecord r.fields r.trail b xf (s.iptr.toNat + 10))) := by
  rw [exec_recdec_of_rest hrest hsize, hspells.decodeAt, State.finishDecode, if_pos rfl, hspells.take_fields,
    hspells.take_trail]

end

/-- Settles O40, by the order of the argument checks. -/
theorem recdecArgumentErrors : Obligations.RecdecArgumentErrors := by
  refine fun xf vf b s => ⟨fun hcap => ?_, exec_recdec_of_badArgument⟩
  simp only [exec, execRecdec, if_pos hcap]

/-- Settles O38: the record is decoded to the pixel it spells, and its trailer is not looked at. -/
theorem recdecSurfacesRecord : Obligations.RecdecSurfacesRecord := by
  intro xf b s r rest hspells hrest
  rw [exec_recdec_of_rest (vf := false) hrest nofun, hspells.decodeAt]
  rfl

/-- Settles O39: the record is surfaced, and the oc-sum decides the completion. -/
theorem recdecVerifiesRecord : Obligations.RecdecVerifiesRecord := by
  rintro xf b s r rest d hspells hrest hsize hlen hclass rfl
  obtain ⟨hb, -⟩ := hsize rfl
  have hexec := exec_recdec_of_spells hspells hrest hsize
  obtain ⟨⟨hten, hfields, -⟩, -⟩ := hspells
  simp only [nibbles, ← expandHex_eq_flatMap]
  rw [verifyRecord_of_class _ hlen hb (fun c hc => isHex_of_fieldChar (hfields c hc))
    (List.ne_nil_of_length_pos (by omega)) hclass] at hexec
  refine ⟨fun hones => ?_, fun hones => ?_⟩
  · rw [hexec, decide_eq_true hones]
    rfl
  · rw [hexec, decide_eq_false hones]
    simp [State.finishRecord, State.raise, State.surface]

/-- Settles O41: what decodeRecord finds first is what RECDEC ends with. -/
theorem recdecRecordErrors : Obligations.RecdecRecordErrors := by
  intro xf vf b s rest hrest hsize
  have herror {e : EngineError} := exec_recdec_of_error (e := e) hrest hsize
  refine ⟨fun hnone => herror (decodeAt_of_no_separator (separatorAt_eq_none hnone) _ _), ?_⟩
  rintro a z rfl hno
  refine ⟨fun hlen => herror (decodeAt_of_short hno _ _ z hlen), fun j c hlen hj hc hbad hgood => ?_,
    fun hlen hclass => ⟨fun hrow => ?_, fun hrow hcol => ?_⟩⟩
  · exact herror (decodeAt_of_badChar hno _ z hlen hj hc hbad hgood)
  · exact herror (decodeAt_of_badRow hno _ z hlen hclass hrow)
  · exact herror (decodeAt_of_badCol hno _ z hlen hclass hrow hcol)

/-- Settles O42: the length of the trailer is checked first, then its characters. -/
theorem recdecTrailerErrors : Obligations.RecdecTrailerErrors := by
  intro xf b s r rest hspells hrest hsize
  have hexec := exec_recdec_of_spells hspells hrest hsize
  refine ⟨fun hlen => ?_, fun j c hlen hc hbad hgood => ?_⟩
  · rw [hexec, verifyRecord_of_length _ _ hlen]
    rfl
  · rw [hexec, verifyRecord_of_badChar _ _ hlen hc hbad hgood]
    rfl

end Sys2Proof.Machine
end

section
/-!
PROOFS. The statements of 42_pixel_frame.md section 5 about a frame: the commands FRAMEAPPLY and MATRIXENC.
-/

namespace Sys2Proof.Machine

/-! ## The matrix store (R40, R42) -/

theorem cellIndex_inj {r c r' c' : Fin 16} : cellIndex r c = cellIndex r' c' ↔ r = r' ∧ c = c' := by
  simp only [cellIndex, Fin.ext_iff]
  omega

theorem matrixRead_matrixWrite_same (m : Matrix) (r c : Fin 16) (v : Rgb) :
    matrixRead (matrixWrite m r c v) r c = v := by
  simp [matrixRead, matrixWrite]

theorem matrixRead_matrixWrite_other (m : Matrix) {r c r' c' : Fin 16} (v : Rgb) (h : ¬ (r = r' ∧ c = c')) :
    matrixRead (matrixWrite m r c v) r' c' = matrixRead m r' c' := by
  have hne : (cellIndex r c).val ≠ (cellIndex r' c').val := fun he => h (cellIndex_inj.mp (Fin.ext he))
  simp [matrixRead, matrixWrite, hne]

/-- A cell no record names keeps its channels (R164). -/
theorem matrixRead_writeRecords_of_unnamed {rs : List WireRecord} {row col : Fin 16}
    (h : ∀ r ∈ rs, ¬ (r.row = row ∧ r.col = col)) (m : Matrix) :
    matrixRead (writeRecords m rs) row col = matrixRead m row col := by
  induction rs generalizing m with
  | nil => rfl
  | cons r rs ih =>
    obtain ⟨hr, hrs⟩ := List.forall_mem_cons.mp h
    exact (ih hrs _).trans (matrixRead_matrixWrite_other m r.rgb hr)

/-- A cell holds the channels of the last record that names it (R164). -/
theorem matrixRead_writeRecords_last {post : List WireRecord} {w : WireRecord}
    (h : ∀ r ∈ post, ¬ (r.row = w.row ∧ r.col = w.col)) (m : Matrix) (pre : List WireRecord) :
    matrixRead (writeRecords m (pre ++ w :: post)) w.row w.col = w.rgb := by
  rw [writeRecords, List.foldl_append, List.foldl_cons]
  exact (matrixRead_writeRecords_of_unnamed h _).trans (matrixRead_matrixWrite_same _ _ _ _)

/-! ## The frame loop over decodable records (R161) -/

/-- The loop applies the records one by one and goes on behind them, with fuel enough for what is left. -/
theorem frameLoop_records {fb : Bool} {rs : List WireRecord} (hrs : ∀ r ∈ rs, r.Spells fb) {tail : List Byte}
    {f g p cnt : Nat} {m : Matrix} (hf : (rs.flatMap WireRecord.text ++ tail).length < f)
    (hg : tail.length < g) :
    frameLoop fb f p (rs.flatMap WireRecord.text ++ tail) cnt m =
      frameLoop fb g (p + (rs.flatMap WireRecord.text).length) tail (cnt + rs.length) (writeRecords m rs) := by
  induction rs generalizing f p cnt m with
  | nil => exact frameLoop_fuel fb f g p tail cnt m hf hg
  | cons r rs ih =>
    obtain ⟨hr, hrs⟩ := List.forall_mem_cons.mp hrs
    rw [List.flatMap_cons, List.append_assoc] at hf ⊢
    obtain ⟨c, cs, htext, hc⟩ := hr.exists_cons (rs.flatMap WireRecord.text ++ tail)
    have hdec := hr.decodeAt p (rs.flatMap WireRecord.text ++ tail)
    obtain ⟨f, rfl⟩ := Nat.exists_eq_add_one_of_ne_zero (Nat.ne_zero_of_lt hf)
    have hround := frameLoop_record (f := f) (cnt := cnt) (m := m) hc (htext ▸ hdec)
    rw [← htext, Nat.add_sub_cancel_left, List.drop_left] at hround
    have hlen : (rs.flatMap WireRecord.text ++ tail).length < f := by
      simp only [List.length_append, List.length_singleton] at hf ⊢
      omega
    calc frameLoop fb (f + 1) p (r.text ++ (rs.flatMap WireRecord.text ++ tail)) cnt m
      _ = frameLoop fb f (p + r.text.length) (rs.flatMap WireRecord.text ++ tail) (cnt + 1)
          (matrixWrite m r.row r.col r.rgb) := hround
      _ = frameLoop fb g (p + r.text.length + (rs.flatMap WireRecord.text).length) tail (cnt + 1 + rs.length)
          (writeRecords m (r :: rs)) := ih hrs hlen
      _ = _ := by
        rw [List.length_append (as := r.text), List.length_cons, Nat.add_assoc p, Nat.add_assoc cnt,
          Nat.add_comm 1]

section

variable {fb : Bool} {rs : List WireRecord} (hrs : ∀ r ∈ rs, r.Spells fb) (p : Nat) (m : Matrix)
include hrs

/-- A frame ended by the terminator or by the end of input is applied whole. -/
theorem applyFrame_of_frame (fin : Bool) {rest : List Byte} (hrest : fin = false → rest = []) :
    applyFrame fb p (rs.flatMap WireRecord.text ++ (if fin then [Config.frameTerm] else []) ++ rest) m =
      .done (p + (rs.flatMap WireRecord.text ++ if fin then [Config.frameTerm] else []).length) rs.length
        (writeRecords m rs) := by
  rw [applyFrame, List.append_assoc, frameLoop_records hrs (Nat.lt_succ_self _) (Nat.lt_succ_self _), Nat.zero_add]
  cases fin with
  | false =>
    obtain rfl := hrest rfl
    simp [frameLoop]
  | true => simp [frameLoop, Nat.add_assoc]

/-- A record that decodeRecord refuses ends the frame, the records before it applied. -/
theorem applyFrame_of_bad {bad : List Byte} {e : EngineError} (hne : bad ≠ [])
    (hterm : bad.head? ≠ some Config.frameTerm)
    (hbad : decodeAt fb (p + (rs.flatMap WireRecord.text).length) bad = .error e) :
    applyFrame fb p (rs.flatMap WireRecord.text ++ bad) m =
      .failed e (p + (rs.flatMap WireRecord.text).length) rs.length (writeRecords m rs) := by
  rw [applyFrame, frameLoop_records hrs (Nat.lt_succ_self _) (Nat.lt_succ_self _), Nat.zero_add]
  obtain ⟨c, cs, rfl⟩ := List.exists_cons_of_ne_nil hne
  have hc : c ≠ Config.frameTerm := fun hc => hterm (congrArg some hc)
  simp only [frameLoop, if_neg hc, hbad]

end

/-! ## FRAMEAPPLY (R171) -/

/-- The end of FRAMEAPPLY, by how the frame ends (R171). -/
def State.finishFrame (s : State) : FrameEnd → State
  | .done next count m => (s.applied next count m).complete false
  | .failed e next count m => (s.applied next count m).raise e.err e.pos

/-- FRAMEAPPLY of a written input with legal arguments ends by applyFrame of it. -/
theorem exec_frameapply_of_rest {s : State} {t : List Byte} (hrest : s.RestIs t) (b : Nat) :
    exec (.frameapply b) s = .next (s.finishFrame (applyFrame s.fb16 s.iptr.toNat t s.matrix)) := by
  have hread := hrest.readRest
  obtain ⟨hlen, hcap, -⟩ := hrest
  simp only [exec, execFrameapply, if_neg (not_lt.mpr hcap),
    if_neg (show ¬ s.ilen.toNat < s.iptr.toNat by omega), hread]
  cases applyFrame s.fb16 s.iptr.toNat t s.matrix <;> rfl

/-- Settles O43: the frame is applied whole. -/
theorem frameapplyAppliesFrame : Obligations.FrameapplyAppliesFrame := by
  rintro b s rs fin text rest ⟨hrs, rfl, hrest, hend⟩
  rw [exec_frameapply_of_rest hrest, applyFrame_of_frame hrs _ _ fin hend]
  rfl

/-- Settles O44: the argument checks, then the first record that decodeRecord refuses. -/
theorem frameapplyStopsAtBadRecord : Obligations.FrameapplyStopsAtBadRecord := by
  refine fun b s => ⟨fun hcap => ?_, fun hcap hptr => ?_, ?_⟩
  · simp only [exec, execFrameapply, if_pos hcap]
  · simp only [exec, execFrameapply, if_neg (not_lt.mpr hcap), if_pos hptr]
  · rintro rs bad e q hrs hrest hne hterm rfl hbad
    rw [exec_frameapply_of_rest hrest, applyFrame_of_bad hrs _ _ hne hterm hbad]
    rfl

/-- Settles O45: the matrix is the records written in order. -/
theorem lastRecordOfCellWins : Obligations.LastRecordOfCellWins := by
  intro b s rs fin text rest hframe
  refine ⟨_, frameapplyAppliesFrame b s rs fin text rest hframe, fun row col => ⟨fun hnone => ?_, ?_⟩⟩
  · exact matrixRead_writeRecords_of_unnamed hnone s.matrix
  · rintro pre post w rfl rfl rfl hlast
    exact matrixRead_writeRecords_last hlast s.matrix pre

/-! ## Cells in row-major order (R42, R157) -/

theorem matrix_getElem?_cell (m : Matrix) (r c : Fin 16) :
    m.toList[16 * r.val + c.val]? = some (matrixRead m r c) := by
  have hlt : 16 * r.val + c.val < m.toList.length := by rw [Vector.length_toList]; omega
  rw [List.getElem?_eq_getElem hlt, Vector.getElem_toList]
  rfl

/-- Every index of the store is that of a cell. -/
theorem exists_cell {k : Nat} (hk : k < 256) : ∃ r c : Fin 16, k = 16 * r.val + c.val :=
  ⟨⟨k / 16, by omega⟩, ⟨k % 16, by omega⟩, by simp only; omega⟩

/-- Cells the layout can hold are encoded to their records, one each. -/
theorem encodeCells_of_fits {fb ck xf : Bool} {b i : Nat} {vs : List Rgb} (hsize : BlockSizeOk ck xf b)
    (hi : i + vs.length ≤ 256) (hvs : ∀ v ∈ vs, ChannelsFit fb v) :
    ∃ recs : List (List Byte), encodeCells fb ck xf b i vs = .ok recs.flatten ∧ recs.length = vs.length ∧
      ∀ k v, vs[k]? = some v → ∃ tr,
        recs[k]? = some (pixelText fb ((i + k) / 16) ((i + k) % 16) v ++ tr ++ [Config.pixelSep]) ∧
          IsTrailer ck xf b (pixelText fb ((i + k) / 16) ((i + k) % 16) v) tr := by
  induction vs generalizing i with
  | nil => exact ⟨[], rfl, rfl, nofun⟩
  | cons v vs ih =>
    rw [List.length_cons] at hi
    obtain ⟨hv, hvs⟩ := List.forall_mem_cons.mp hvs
    obtain ⟨tr, htr, hrec⟩ := encodeRecord_of_fits (row := i / 16) (col := i % 16) (by omega) (by omega) hv hsize
    obtain ⟨recs, hrecs, hlen, hcells⟩ := ih (i := i + 1) (by omega) hvs
    have hout : encodeCells fb ck xf b i (v :: vs) =
        .ok ((pixelText fb (i / 16) (i % 16) v ++ tr ++ [Config.pixelSep]) :: recs).flatten := by
      simp only [encodeCells, hrec, hrecs, List.flatten_cons]
    refine ⟨_, hout, congrArg (· + 1) hlen, fun k u hk => ?_⟩
    cases k with
    | zero =>
      obtain rfl : v = u := by simpa using hk
      exact ⟨tr, rfl, htr⟩
    | succ k =>
      have hcell := hcells k u hk
      rwa [Nat.add_assoc, Nat.add_comm 1] at hcell

/-- The first cell the layout cannot hold is named by its index. -/
theorem encodeCells_of_not_fits {fb ck xf : Bool} {b i k : Nat} {vs : List Rgb} {v : Rgb}
    (hsize : BlockSizeOk ck xf b) (hi : i + vs.length ≤ 256) (hk : vs[k]? = some v) (hbad : ¬ ChannelsFit fb v)
    (hgood : ∀ u ∈ vs.take k, ChannelsFit fb u) :
    encodeCells fb ck xf b i vs = .error ⟨.invalidArgument, i + k⟩ := by
  induction vs generalizing i k with
  | nil => simp at hk
  | cons u us ih =>
    rw [List.length_cons] at hi
    have hrow : i / 16 < 16 := by omega
    have hcol : i % 16 < 16 := by omega
    cases k with
    | zero =>
      obtain rfl : u = v := by simpa using hk
      obtain ⟨e, he⟩ := encodePixel_of_not_fits hrow hcol hbad
      simp only [encodeCells, encodeRecord_of_error he, Nat.add_zero]
    | succ k =>
      obtain ⟨hu, hus⟩ := List.forall_mem_cons.mp hgood
      obtain ⟨tr, -, hrec⟩ := encodeRecord_of_fits hrow hcol hu hsize
      simp only [encodeCells, hrec, ih (i := i + 1) (by omega) hk hus, Nat.add_assoc, Nat.add_comm 1]

/-! ## MATRIXENC (R172) -/

section

variable {ck xf : Bool} {b : Nat} {s : State}

theorem exec_matrixenc_of_badArgument
    (h : ¬ BlockSizeOk ck xf b ∨ s.caps.obufBytes < 256 * (11 + trailerChars ck xf b) + 1) :
    exec (.matrixenc ck xf b) s = .next (s.raise .invalidArgument 0) := by
  rw [not_blockSizeOk, or_assoc] at h
  simp only [exec, execMatrixenc, matrixencOutput, ← ite_or]
  rw [if_pos h, State.finishOutput_error]

theorem exec_matrixenc_of_legal (hsize : BlockSizeOk ck xf b)
    (hfit : 256 * (11 + trailerChars ck xf b) + 1 ≤ s.caps.obufBytes) :
    exec (.matrixenc ck xf b) s = .next (s.finishOutput 0 (encodeMatrix s.matrix s.fb16 ck xf b)) := by
  obtain ⟨hzero, hmod⟩ := blockSize_checks hsize
  rw [exec, execMatrixenc, matrixencOutput, if_neg hzero, if_neg hmod, if_neg (not_lt.mpr hfit)]

end

/-- Settles O46: the records of the cells in order, each at its cell's index. -/
theorem matrixencWritesFrame : Obligations.MatrixencWritesFrame := by
  intro ck xf b s hcells hsize hfit
  have hexec := exec_matrixenc_of_legal hsize hfit
  have hfits : ∀ v ∈ s.matrix.toList, ChannelsFit s.fb16 v := fun v hv => by
    obtain ⟨k, hk⟩ := List.mem_iff_getElem?.mp hv
    have hlt : k < 256 := by simpa using (List.getElem?_eq_some_iff.mp hk).1
    obtain ⟨r, c, rfl⟩ := exists_cell hlt
    rw [matrix_getElem?_cell] at hk
    exact Option.some.inj hk ▸ hcells r c
  obtain ⟨recs, hrecs, hlen, hrec⟩ := encodeCells_of_fits (i := 0) hsize (by simp) hfits
  have hout : encodeMatrix s.matrix s.fb16 ck xf b = .ok (recs.flatten ++ [Config.frameTerm]) := by
    simp only [encodeMatrix, hrecs]
  rw [hout] at hexec
  refine ⟨_, recs, hexec, by simpa using hlen, fun r c => ?_,
    outputDone_finishOutput (encodeMatrix_length hout ▸ hfit)⟩
  obtain ⟨tr, hat, hnotr, htr⟩ := hrec _ _ (matrix_getElem?_cell s.matrix r c)
  have hrow : (0 + (16 * r.val + c.val)) / 16 = r.val := by omega
  have hcol : (0 + (16 * r.val + c.val)) % 16 = c.val := by omega
  rw [hrow, hcol] at hat htr
  exact ⟨tr, hat, hnotr, htr⟩

/-- Settles O47: the arguments, then the first cell that cannot be encoded. -/
theorem matrixencErrors : Obligations.MatrixencErrors := by
  refine fun ck xf b s => ⟨exec_matrixenc_of_badArgument, fun r c hsize hfit hbad hgood => ?_⟩
  have hbefore : ∀ v ∈ s.matrix.toList.take (16 * r.val + c.val), ChannelsFit s.fb16 v := fun v hv => by
    obtain ⟨k, hk, rfl⟩ := List.mem_take_iff_getElem.mp hv
    have hlt : k < 16 * r.val + c.val := by omega
    obtain ⟨r', c', rfl⟩ := exists_cell (show k < 256 by omega)
    have hcell := matrix_getElem?_cell s.matrix r' c'
    rw [List.getElem?_eq_getElem (by rw [Vector.length_toList]; omega)] at hcell
    exact Option.some.inj hcell ▸ hgood r' c' hlt
  have hcells := encodeCells_of_not_fits (i := 0) hsize (by simp) (matrix_getElem?_cell s.matrix r c) hbad hbefore
  rw [exec_matrixenc_of_legal hsize hfit, encodeMatrix, hcells, Nat.zero_add]
  rfl

end Sys2Proof.Machine
end

section
/-!
PROOFS. The statements of 60_exceptions.md: a word that names no command, what an error leaves, and which errors a
command raises.
-/

namespace Sys2Proof.Machine

/-! ## Error completions (R193, R195) -/

/-- Settles O5, by the engine's step on a word that does not decode. -/
theorem illegalCommandWritesOnlyStatus : Obligations.IllegalCommandWritesOnlyStatus := fun _ _ h =>
  ⟨engineStep_of_illegal h, rfl⟩

/-- A command that ends with ERR an error has committed no output and leaves VALID = 0. -/
theorem Ends.no_output_of_error {s t : State} {i : Instr} {e : Err} (h : Ends s i t) (he : t.err = .error e) :
    t.olen = s.olen ∧ t.obuf = s.obuf ∧ t.valid = false := by
  cases h with
  | raised | mismatch | stopped => exact ⟨rfl, rfl, rfl⟩
  | output | verified | surfaced | applied => cases he

/-- Settles O11, by the ways a command ends. -/
theorem errorCommitsNoOutput : Obligations.ErrorCommitsNoOutput := fun _ _ _ _ h he =>
  (exec_cases h).no_output_of_error he

/-! ## The errors of a function (R12, R198) -/

/-- The result of a function whose only errors are those of `P`. -/
inductive Raises {α : Type} (P : Err → Prop) : Except EngineError α → Prop where
  | ok (a : α) : Raises P (.ok a)
  | error (e : EngineError) (h : P e.err) : Raises P (.error e)

section

variable {α : Type} {P Q : Err → Prop} {r : Except EngineError α}

theorem Raises.err (h : Raises P r) {e : EngineError} (he : r = .error e) : P e.err := by
  subst he
  cases h with
  | error _ he => exact he

theorem Raises.mono (h : Raises P r) (hPQ : ∀ e, P e → Q e) : Raises Q r := by
  cases h with
  | ok a => exact .ok a
  | error e he => exact .error e (hPQ _ he)

theorem Raises.ite {c : Prop} [Decidable c] {r' : Except EngineError α} (h : Raises P r) (h' : Raises P r') :
    Raises P (if c then r else r') := by
  split
  · exact h
  · exact h'

end

/-- The errors of a function of strings: a bad character or a bad argument. -/
abbrev IsStringErr (e : Err) : Prop := e = .invalidCharacter ∨ e = .invalidArgument

/-- The errors of decoding a record: those of a string, or no whole record. -/
abbrev IsRecordErr (e : Err) : Prop := e = .invalidCharacter ∨ e = .invalidArgument ∨ e = .truncatedFrame

theorem hexToBinary_raises (h : List Byte) : Raises (· = .invalidCharacter) (hexToBinary h) := by
  unfold hexToBinary
  split
  · exact .error _ rfl
  · exact .ok _

theorem binaryToHex_raises (b : List Byte) : Raises IsStringErr (binaryToHex b) := by
  refine .ite (.error _ (.inr rfl)) ?_
  split
  · exact .error _ (.inl rfl)
  · exact .ok _

theorem checkBinary_raises (d : List Byte) (b : Nat) : Raises IsStringErr (checkBinary d b) := by
  refine .ite (.error _ (.inr rfl)) (.ite (.error _ (.inr rfl)) ?_)
  split
  · exact .error _ (.inl rfl)
  · exact .ok _

theorem verifyChecksum_raises (p : List Byte) (b : Nat) : Raises IsStringErr (verifyChecksum p b) := by
  unfold verifyChecksum
  split
  · next e he => exact .error e ((checkBinary_raises p b).err he)
  · exact .ok _

theorem computeChecksum_raises (d : List Byte) (b : Nat) : Raises IsStringErr (computeChecksum d b) := by
  unfold computeChecksum
  split
  · next e he => exact .error e ((checkBinary_raises d b).err he)
  · exact .ok _

theorem formedChecksum_raises (d : List Byte) (b : Nat) (xf : Bool) :
    Raises IsStringErr (formedChecksum d b xf) := by
  unfold formedChecksum
  split
  · next e he => exact .error e ((computeChecksum_raises d b).err he)
  · exact .ite (binaryToHex_raises _) (.ok _)

theorem encodeFields_raises (fb : Bool) (i : Nat) (vs : List Nat) :
    Raises (· = .invalidArgument) (encodeFields fb i vs) := by
  induction vs generalizing i with
  | nil => exact .ok _
  | cons v vs ih =>
    unfold encodeFields
    split
    · exact .error _ rfl
    · split
      · next e he => exact .error e ((ih (i + 1)).err he)
      · exact .ok _

theorem encodePixel_raises (fb : Bool) (row col : Nat) (v : Rgb) :
    Raises (· = .invalidArgument) (encodePixel fb row col v) := by
  refine .ite (.error _ rfl) (.ite (.error _ rfl) ?_)
  split
  · next e he => exact .error e ((encodeFields_raises fb 0 _).err he)
  · exact .ok _

/-- With a legal block size the trailer of a record raises nothing: its data is the expansion of the hex characters
the record's fields are made of (R155). -/
theorem encodeRecord_raises {ck xf : Bool} {b : Nat} (hsize : BlockSizeOk ck xf b) (fb : Bool) (row col : Nat)
    (v : Rgb) : Raises (· = .invalidArgument) (encodeRecord fb ck xf b row col v) := by
  cases hpixel : encodePixel fb row col v with
  | error e =>
    rw [encodeRecord_of_error hpixel]
    exact .error e ((encodePixel_raises fb row col v).err hpixel)
  | ok r =>
    obtain ⟨hrow, hcol, -⟩ := encodePixel_eq_ok hpixel
    have hv : ChannelsFit fb v := by
      by_contra hv
      obtain ⟨e, he⟩ := encodePixel_of_not_fits hrow hcol hv
      cases hpixel.symm.trans he
    obtain ⟨tr, -, hrec⟩ := encodeRecord_of_fits hrow hcol hv hsize
    exact hrec ▸ .ok _

theorem pixencOutput_raises (ck xf ap tm : Bool) (b : Nat) (s : State) :
    Raises (· = .invalidArgument) (pixencOutput ck xf ap tm b s) := by
  unfold pixencOutput
  split
  · exact .error _ rfl
  · next hzero =>
    split
    · exact .error _ rfl
    · next hmod =>
      have hsize : BlockSizeOk ck xf b := by
        by_contra hbad
        exact (not_blockSizeOk.mp hbad).elim hzero hmod
      refine .ite (.error _ rfl) ?_
      split
      · next e he => exact .error e ((encodeRecord_raises hsize _ _ _ _).err he)
      · exact .ok _

/-- The frame of the matrix names a cell that cannot be encoded as a bad argument, whatever its record's error
(R157). -/
theorem encodeCells_raises (fb ck xf : Bool) (b i : Nat) (vs : List Rgb) :
    Raises (· = .invalidArgument) (encodeCells fb ck xf b i vs) := by
  induction vs generalizing i with
  | nil => exact .ok _
  | cons v vs ih =>
    unfold encodeCells
    split
    · exact .error _ rfl
    · split
      · next e he => exact .error e ((ih (i + 1)).err he)
      · exact .ok _

theorem matrixencOutput_raises (ck xf : Bool) (b : Nat) (s : State) :
    Raises (· = .invalidArgument) (matrixencOutput ck xf b s) := by
  refine .ite (.error _ rfl) (.ite (.error _ rfl) (.ite (.error _ rfl) ?_))
  unfold encodeMatrix
  split
  · next e he => exact .error e ((encodeCells_raises ..).err he)
  · exact .ok _

theorem decodeAt_raises (fb : Bool) (p : Nat) (rest : List Byte) :
    Raises IsRecordErr (decodeAt fb p rest) := by
  unfold decodeAt
  split
  · exact .error _ (.inr (.inr rfl))
  · refine .ite (.error _ (.inr (.inr rfl))) ?_
    split
    · exact .error _ (.inl rfl)
    · split
      · split
        · exact .ok _
        · exact .error _ (.inr (.inl rfl))
      · exact .error _ (.inr (.inl rfl))

theorem verifyRecord_raises (f tr : List Byte) (b : Nat) (xf : Bool) (toff : Nat) :
    Raises IsStringErr (verifyRecord f tr b xf toff) := by
  refine .ite (.error _ (.inr rfl)) ?_
  split
  · exact .error _ (.inl rfl)
  · split
    · next e he => exact .error e (.inl ((hexToBinary_raises f).err he))
    · split
      · next e he =>
        have htr : Raises (· = .invalidCharacter) (if xf then hexToBinary tr else .ok tr) :=
          .ite (hexToBinary_raises tr) (.ok tr)
        exact .error e (.inl (htr.err he))
      · exact verifyChecksum_raises _ b

/-- A frame that stops stops at a record that does not decode. -/
theorem frameLoop_err {fb : Bool} {fuel p : Nat} {rest : List Byte} {cnt : Nat} {m : Matrix} {e : EngineError}
    {next count : Nat} {m' : Matrix} (h : frameLoop fb fuel p rest cnt m = .failed e next count m') :
    IsRecordErr e.err := by
  induction fuel generalizing p rest cnt m with
  | zero => cases h
  | succ fuel ih =>
    cases rest with
    | nil => cases h
    | cons c cs =>
      simp only [frameLoop] at h
      split at h
      · cases h
      · split at h
        · next e' he =>
          cases h
          exact (decodeAt_raises ..).err he
        · exact ih h

/-! ## The errors of a command (R198) -/

/-- The outcomes of a command that raises only errors of `P`: a fault, or one of the two completions (R194, R195). -/
inductive OnlyRaises (P : Err → Prop) : Out → Prop where
  | fault (f : Fault) : OnlyRaises P (.fault f)
  | complete (s : State) (valid : Bool) : OnlyRaises P (.next (s.complete valid))
  | raise (s : State) {e : Err} (p : Nat) (h : P e) : OnlyRaises P (.next (s.raise e p))

section

variable {P : Err → Prop} {s : State}

theorem OnlyRaises.err {out : Out} {t : State} {e : Err} (hout : OnlyRaises P out) (h : out = .next t)
    (he : t.err = .error e) : P e := by
  subst h
  cases hout with
  | complete => cases he
  | raise _ _ hP =>
    cases he
    exact hP

/-- An argument check before the rest of a command. -/
theorem OnlyRaises.check (h : P .invalidArgument) {c : Prop} [Decidable c] {p : Nat} {out : Out}
    (hout : OnlyRaises P out) : OnlyRaises P (if c then .next (s.raise .invalidArgument p) else out) := by
  split
  · exact .raise s p h
  · exact hout

theorem OnlyRaises.finishOutput {r : Except EngineError (List Byte)} (h : Raises P r) (start : Nat) :
    OnlyRaises P (.next (s.finishOutput start r)) := by
  cases h with
  | ok out => exact .complete _ false
  | error e he => exact .raise s e.pos he

/-- A command that reads its input whole and then ends with an output (R106, R107, R130). -/
theorem OnlyRaises.readInput {r : List Byte → Except EngineError (List Byte)} (h : ∀ d, Raises P (r d)) :
    OnlyRaises P (match s.readInput with
      | none => .fault .engineReadUnwritten
      | some d => .next (s.finishOutput 0 (r d))) := by
  cases s.readInput with
  | none => exact .fault _
  | some d => exact .finishOutput (h d) 0

end

section

variable (xf vf : Bool) (b : Nat) (s : State)

theorem execHex2bin_onlyRaises : OnlyRaises IsStringErr (execHex2bin b s) :=
  have harg : IsStringErr .invalidArgument := .inr rfl
  .check harg (.check harg (.readInput fun h => (hexToBinary_raises h).mono fun _ => .inl))

theorem execBin2hex_onlyRaises : OnlyRaises IsStringErr (execBin2hex b s) :=
  have harg : IsStringErr .invalidArgument := .inr rfl
  .check harg (.check harg (.check harg (.readInput binaryToHex_raises)))

theorem execCkcomp_onlyRaises : OnlyRaises IsStringErr (execCkcomp xf b s) :=
  have harg : IsStringErr .invalidArgument := .inr rfl
  .check harg (.check harg (.check harg (.check harg (.check harg
    (.readInput fun d => formedChecksum_raises d b xf)))))

theorem execCkverify_onlyRaises :
    OnlyRaises (fun e => e = .invalidCharacter ∨ e = .invalidArgument ∨ e = .checksumMismatch)
      (execCkverify b s) := by
  refine .check (.inr (.inl rfl)) (.check (.inr (.inl rfl)) (.check (.inr (.inl rfl)) ?_))
  split
  · exact .fault _
  · next p _ =>
    split
    · next e he => exact .raise s e.pos (((verifyChecksum_raises p b).err he).imp_right .inl)
    · exact .raise s 0 (.inr (.inr rfl))
    · exact .complete s true

theorem execRecdec_onlyRaises :
    OnlyRaises (fun e => e = .invalidCharacter ∨ e = .invalidArgument ∨ e = .truncatedFrame ∨
      (vf = true ∧ e = .checksumMismatch)) (execRecdec xf vf b s) := by
  refine .check (.inr (.inl rfl)) (.check (.inr (.inl rfl)) (.check (.inr (.inl rfl))
    (.check (.inr (.inl rfl)) ?_)))
  split
  · exact .fault _
  · next rest _ =>
    split
    · next e he =>
      exact .raise s e.pos (((decodeAt_raises _ _ rest).err he).imp_right (.imp_right .inl))
    · next r _ =>
      split
      · next hvf =>
        split
        · next e he => exact .raise s e.pos (((verifyRecord_raises ..).err he).imp_right .inl)
        · exact .raise (s.surface r) _ (.inr (.inr (.inr ⟨hvf, rfl⟩)))
        · exact .complete (s.surface r) true
      · exact .complete (s.surface r) false

theorem execFrameapply_onlyRaises : OnlyRaises IsRecordErr (execFrameapply b s) := by
  refine .check (.inr (.inl rfl)) (.check (.inr (.inl rfl)) ?_)
  split
  · exact .fault _
  · split
    · exact .complete _ false
    · next e next count m he => exact .raise _ e.pos (frameLoop_err he)

end

/-- Settles O12, by the errors each command's meaning can raise. -/
theorem commandRaisesOnlyItsErrors : Obligations.CommandRaisesOnlyItsErrors := by
  intro i s t e h he
  cases i with
  | hex2bin b => exact (execHex2bin_onlyRaises b s).err h he
  | bin2hex b => exact (execBin2hex_onlyRaises b s).err h he
  | ckcomp xf b => exact (execCkcomp_onlyRaises xf b s).err h he
  | ckverify b => exact (execCkverify_onlyRaises b s).err h he
  | pixenc ck xf ap tm b => exact (OnlyRaises.finishOutput (pixencOutput_raises ck xf ap tm b s) _).err h he
  | recdec xf vf b => exact (execRecdec_onlyRaises xf vf b s).err h he
  | frameapply b => exact (execFrameapply_onlyRaises b s).err h he
  | matrixenc ck xf b => exact (OnlyRaises.finishOutput (matrixencOutput_raises ck xf b s) _).err h he

end Sys2Proof.Machine
end

section
/-!
PROOFS. The statements of 70_reset_and_hazards.md: the reset event, R213's window, and reads of bytes that hold no
value.
-/

namespace Sys2Proof.Machine

/-! ## The reset event (R210) -/

/-- Settles O17: the scheduled turn is the reset event, which is the host's part of the state beside a reset block. -/
theorem resetEventResetsBlock : Obligations.ResetEventResetsBlock := by
  intro s ts ht
  rw [step_scheduled ht]
  rfl

/-! ## R213's window -/

/-- BUSY is bit 0 of STATUS (R26). -/
theorem State.statusWord_getLsbD_zero (s : State) : s.statusWord.getLsbD 0 = s.busy := by
  rw [State.statusWord, BitVec.getLsbD_append]
  simp

/-- A read of STATUS, allowed in any state, ends R213's window when BUSY is 0. -/
theorem hostAccess_status (s : State) :
    hostAccess s (.read32 Reg.status.addr) = .ok
      { s with
        hostReads := s.statusWord :: s.hostReads
        awaiting := if s.busy then s.awaiting else false } := by
  cases hb : s.busy with
  | true => rw [hostAccess_status_busy hb, if_pos rfl, ← hb]
  | false => rw [hostAccess_status_idle hb, if_neg Bool.false_ne_true, ← hb]

/-- Settles O49: the window names every other access, and a read of STATUS is the same in it as outside. -/
theorem busyWindowAllowsOnlyStatus : Obligations.BusyWindowAllowsOnlyStatus := fun s _ hwin =>
  ⟨hostAccess_inBusyWindow (s.inBusyWindow_iff.mpr hwin), hostAccess_status s, s.statusWord_getLsbD_zero⟩

/-! ## Host reads of bytes that hold no value (R75, R211) -/

/-- An OBUF byte at index OLEN or beyond holds no value (R75). -/
theorem State.outputByte_beyond_olen {s : State} {i : Nat} (h : s.olen.toNat ≤ i) : s.outputByte i = none :=
  if_neg (not_lt.mpr h)

/-- A word one of whose four bytes has no value has none. -/
theorem word4_eq_none {byte : Nat → Option Byte} {i k : Nat} (hk : k < 4) (h : byte (i + k) = none) :
    word4 byte i = none := by
  unfold word4
  split
  · next h0 h1 h2 h3 => interval_cases k <;> simp_all
  · rfl

theorem hostAccess_read8_error {s : State} {a : Addr} {f : Fault} (h : busRead8 s a = .error f) :
    hostAccess s (.read8 a) = .error f := by
  simp only [hostAccess, h]

theorem hostAccess_read32_error {s : State} {a : Addr} {f : Fault} (h : busRead32 s a = .error f) :
    hostAccess s (.read32 a) = .error f := by
  simp only [hostAccess, h]

section

variable {s : State} {i : Nat} (hb : s.busy = false) (ha : s.awaiting = false)
include hb ha

theorem hostAccess_read8_unwritten (hi : i < s.caps.ibufBytes) (hnone : s.ibuf.read i = none) :
    hostAccess s (.read8 (BitVec.ofNat 18 (0x10000 + i))) = .error .hostReadUnwritten :=
  hostAccess_read8_error (by rw [busRead8_ibuf hb ha hi, hnone, orViolation])

theorem hostAccess_read8_beyond_olen (hi : i < s.caps.obufBytes) (holen : s.olen.toNat ≤ i) :
    hostAccess s (.read8 (BitVec.ofNat 18 (0x20000 + i))) = .error .hostReadBeyondOlen :=
  hostAccess_read8_error
    (by rw [busRead8_obuf hb ha hi, State.outputByte_beyond_olen holen, orViolation])

variable (hal : i % 4 = 0)
include hal

theorem hostAccess_read32_unwritten {k : Nat} (hk : k < 4) (hi : i + 3 < s.caps.ibufBytes)
    (hnone : s.ibuf.read (i + k) = none) :
    hostAccess s (.read32 (BitVec.ofNat 18 (0x10000 + i))) = .error .hostReadUnwritten :=
  hostAccess_read32_error (by rw [busRead32_ibuf hb ha hal hi, word4_eq_none hk hnone, orViolation])

/-- The last byte of the word is at index OLEN or beyond if any of its bytes is. -/
theorem hostAccess_read32_beyond_olen (hi : i + 3 < s.caps.obufBytes) (holen : s.olen.toNat ≤ i + 3) :
    hostAccess s (.read32 (BitVec.ofNat 18 (0x20000 + i))) = .error .hostReadBeyondOlen :=
  have hlast : word4 s.outputByte i = none :=
    word4_eq_none (show 3 < 4 by decide) (State.outputByte_beyond_olen holen)
  hostAccess_read32_error (by rw [busRead32_obuf hb ha hal hi, hlast, orViolation])

end

/-! ## Commands whose operand is not all written (R85, R211) -/

section

variable {s : State} {b : Nat} (hcap : s.ilen.toNat ≤ s.caps.ibufBytes)
include hcap

section

variable (hread : s.readInput = none)
include hread

theorem exec_hex2bin_of_unwritten (hfit : 4 * s.ilen.toNat ≤ s.caps.obufBytes) :
    exec (.hex2bin b) s = .fault .engineReadUnwritten := by
  simp only [exec, execHex2bin, if_neg (not_lt.mpr hcap), if_neg (not_lt.mpr hfit), hread]

theorem exec_bin2hex_of_unwritten (hmod : s.ilen.toNat % 4 = 0) (hfit : s.ilen.toNat / 4 ≤ s.caps.obufBytes) :
    exec (.bin2hex b) s = .fault .engineReadUnwritten := by
  simp only [exec, execBin2hex, if_neg (not_lt.mpr hcap), if_neg (not_not.mpr hmod), if_neg (not_lt.mpr hfit),
    hread]

variable (hlen : s.ilen.toNat ≠ 0)
include hlen

theorem exec_ckcomp_of_unwritten {xf : Bool} (hsize : BlockSizeOk true xf b)
    (hfit : checksumChars xf b ≤ s.caps.obufBytes) :
    exec (.ckcomp xf b) s = .fault .engineReadUnwritten := by
  obtain ⟨hb, hmod⟩ := hsize rfl
  have hx : ¬ (xf = true ∧ b % 4 ≠ 0) := fun ⟨hxf, hne⟩ => hne (hmod hxf)
  simp only [exec, execCkcomp, if_neg (not_lt.mpr hcap), if_neg hb, if_neg hlen, if_neg hx,
    if_neg (not_lt.mpr hfit), hread]

theorem exec_ckverify_of_unwritten (hb : b ≠ 0) : exec (.ckverify b) s = .fault .engineReadUnwritten := by
  simp only [exec, execCkverify, if_neg (not_lt.mpr hcap), if_neg hb, if_neg hlen, hread]

end

variable (hptr : s.iptr.toNat ≤ s.ilen.toNat) (hread : s.readRest = none)
include hptr hread

theorem exec_recdec_of_unwritten {xf vf : Bool} (hsize : BlockSizeOk vf xf b) :
    exec (.recdec xf vf b) s = .fault .engineReadUnwritten := by
  obtain ⟨hzero, hmod⟩ := blockSize_checks hsize
  simp only [exec, execRecdec, if_neg (not_lt.mpr hcap), if_neg (not_lt.mpr hptr), if_neg hzero, if_neg hmod,
    hread]

theorem exec_frameapply_of_unwritten : exec (.frameapply b) s = .fault .engineReadUnwritten := by
  simp only [exec, execFrameapply, if_neg (not_lt.mpr hcap), if_neg (not_lt.mpr hptr), hread]

end

/-- Settles O58: the byte has no value for the host, and one clear mark makes the command's operand unreadable. -/
theorem readOfNoValueFaults : Obligations.ReadOfNoValueFaults := by
  refine ⟨fun s i hb ha => ⟨hostAccess_read8_unwritten hb ha, hostAccess_read8_beyond_olen hb ha,
    fun k hk hal => hostAccess_read32_unwritten hb ha hal hk, hostAccess_read32_beyond_olen hb ha⟩,
    fun s i b hi hcap hnone => ?_, fun s b i hp hi hcap hnone => ?_⟩
  · have hread : s.readInput = none := State.readInput_eq_none.mpr ⟨i, hi, hnone⟩
    have hlen : s.ilen.toNat ≠ 0 := Nat.ne_zero_of_lt hi
    exact ⟨exec_hex2bin_of_unwritten hcap hread, exec_bin2hex_of_unwritten hcap hread,
      fun xf => exec_ckcomp_of_unwritten hcap hread hlen, exec_ckverify_of_unwritten hcap hread hlen⟩
  · have hread : s.readRest = none := State.readRest_eq_none.mpr ⟨i, hp, hi, hnone⟩
    have hptr : s.iptr.toNat ≤ s.ilen.toNat := hp.trans hi.le
    exact ⟨fun xf vf => exec_recdec_of_unwritten hcap hptr hread, exec_frameapply_of_unwritten hcap hptr hread⟩

end Sys2Proof.Machine
end
